-- ==== Sys2Proof/Word.lean ====
section
/-! DEFINITION. The value types of the block: 16-bit units, 15-bit payloads, 64-bit keys, phrases. -/

namespace Sys2Proof

/-- A symbol of a text: one 16-bit code unit (R10 `UNIT_BITS`, R17). -/
abbrev Sym := BitVec 16

/-- A stored word of a bitstream: payload plus 32 (R12, R100). -/
abbrev Word := BitVec 16

/-- The 15-bit payload of a word; also the width of a lane and of the packer's accumulator
(R10 `PAYLOAD_BITS`, R12, R39, R204). -/
abbrev Payload := BitVec 15

/-- A 64-bit cipher quantity: a key, Z, INC, or an operand or result of MIX (R10 `KEY_BITS`). -/
abbrev Key := BitVec 64

/-- A phrase: a finite sequence of symbols (R14). -/
abbrev Phrase := List Sym

end Sys2Proof
end

