-- ==== Sys2Proof/Config.lean ====
section
/-! DEFINITION. What one block fixes: the constants of R10 and R11, the open function MIX (R203), and
the free values that stand where the spec states no value. A constant declared `opaque` has no body:
nothing can be proved of its value, so what is proved holds for every value of it. -/

namespace Sys2Proof

/-- `PAYLOAD_BITS` (R10): payload bits in one stored word. -/
abbrev Config.payloadBits : Nat := 15

/-- `OFFSET` (R10): a stored value is payload + 32. -/
abbrev Config.offset : BitVec 16 := 32

/-- `CODE_LIT8` (R10): the token code for "8-bit literal follows". -/
abbrev Config.codeLit8 : Nat := 0

/-- `CODE_LIT16` (R10): the token code for "16-bit literal follows". -/
abbrev Config.codeLit16 : Nat := 1

/-- `CODE_END` (R10): the token code for "end of stream". -/
abbrev Config.codeEnd : Nat := 2

/-- `LIT8_BITS` (R10): the width of an 8-bit literal's symbol field. -/
abbrev Config.lit8Bits : Nat := 8

/-- `LIT16_BITS` (R10): the width of a 16-bit literal's symbol field. -/
abbrev Config.lit16Bits : Nat := 16

/-- `LIT8_LIMIT` (R10): a symbol is sent as an 8-bit literal iff it is below 256. -/
abbrev Config.lit8Limit : Nat := 256

/-- The first id that names a phrase; codes 0, 1 and 2 are reserved (R104). -/
abbrev Config.firstId : Nat := 3

/-- `ENC_NUMBITS0` (R11, decision D4). -/
abbrev Config.encNumBits0 : Nat := 2

/-- `ENC_ENLARGEIN0` (R11, decision D4). -/
abbrev Config.encEnlargeIn0 : Nat := 2

/-- `ENC_NEXTID0` (R11, decision D4). -/
abbrev Config.encNextId0 : Nat := 3

/-- `PRO_BITS` (R11, decision D5): the width of a stream's first code field. -/
abbrev Config.proBits : Nat := 2

/-- `DEC_NUMBITS0` (R10): the decoder's start state after the first token. -/
abbrev Config.decNumBits0 : Nat := 3

/-- `DEC_ENLARGEIN0` (R10). -/
abbrev Config.decEnlargeIn0 : Nat := 4

/-- `DEC_NEXTID0` (R10). -/
abbrev Config.decNextId0 : Nat := 4

/-- `GROUP` (R10): words in one keystream step. -/
abbrev Config.group : Nat := 4

/-- `LANE3_LO` (R11, decision D19): the lowest bit of the fourth lane. -/
abbrev Config.lane3Lo : Nat := 49

/-- `INC_MUL` (R10, R19): the multiplier of the increment, zero-extended to 64 bits. -/
abbrev Config.incMul : Key := 0x9E3779BA

/-- `INC_ADD` (R10, R19): the addend of the increment, zero-extended to 64 bits. -/
abbrev Config.incAdd : Key := 0x632BE5AB

/-- `MIX` (R203, decision D17 OPEN): a total function of a 64-bit value, the same for every call, key
and command, of which nothing else may be assumed (log 8, safe). -/
opaque Config.mix : Key → Key

/-- FREE VALUE (log 10, safe): what a read of DICT gives at an id that holds no phrase (U5: any value). -/
opaque Config.freePhrase : Nat → Phrase

/-- FREE VALUE (log 11, safe): `first([])`, which R14 leaves undefined. -/
opaque Config.freeFirst : Sym

/-- FREE VALUE (log 12, safe): the id EEMIT works with when its phrase is in no entry of DICT, which
R152 rules out and gives no value for. -/
opaque Config.freeId : Phrase → Nat

/-- FREE VALUE (log 12, safe): the PENDING bit of an id that has no entry (R44: the bit does not exist). -/
opaque Config.freePending : Nat → Bool

/-- FREE VALUE (log 13, safe): `ENLARGEIN - 1` at ENLARGEIN = 0, which R151's precondition rules out and
for which R13 states no result. -/
opaque Config.freeBelowZero : Nat

/-- FREE VALUE (log 14, safe): `KI - 1` after DECRYPT has applied key 0 (R85), for which the natural number
KI of R43 has no value. -/
opaque Config.freeKeyIndex : Nat

end Sys2Proof
end

