-- ==== Sys2Proof/Syntax.lean ====
section
/-! DEFINITION. The operations of the block: one constructor of `Instr` per row of
spec/opcode_table.json, with the operands the row and its rule give it. -/

namespace Sys2Proof

/-- The direction of a keystream step (R206). -/
inductive Dir where
  | forward   -- dir = +1, encryption
  | backward  -- dir = -1, decryption
  deriving DecidableEq, Repr

/-- The three exception causes (R250 to R253). -/
inductive Cause where
  | unknownCode
  | inputExhausted
  | badFirstCode
  deriving DecidableEq, Repr

/-- What the meaning of a token's code field depends on (R102, R107): the first token of a stream has a
2-bit code field; a later one has the width NUMBITS and is compared with NEXTID. -/
inductive TokenCtx where
  | first
  | later (numBits nextId : Nat)
  deriving DecidableEq, Repr

/-- The operations: tokens (R109), host commands (R114) and micro-operations (R16, R84). A literal
carries its symbol field, REF, SREF and ILLEGAL carry the value of their code field. -/
inductive Instr where
  -- tokens: the first of a stream (R171, R253)
  | lit8P (sym : BitVec 8)
  | lit16P (sym : BitVec 16)
  | endP
  | illegalP
  -- tokens: every later one (R173 to R179)
  | lit8 (sym : BitVec 8)
  | lit16 (sym : BitVec 16)
  | endTok
  | ref (id : Nat)
  | sref (id : Nat)
  | illegal (code : Nat)
  -- host commands (R231, R232)
  | compress
  | decompress
  -- packer and unpacker (R130 to R138)
  | pinit
  | pushBit (b : Bool)
  | push (value width : Nat)
  | flush
  | uinit
  | readBit
  | read (width : Nat)
  -- encoder (R150 to R156)
  | einit
  | tick
  | ereg (c : Sym)
  | eemit
  | esym
  | efin
  | encode
  -- decoder (R170 to R180)
  | dinit
  | dpro
  | dstep
  | dapply
  | decode
  -- cipher (R201 to R210)
  | kinc (key : Key)
  | kseed (key : Key)
  | mix (r : Key)
  | kstep (dir : Dir)
  | lane (r : Key) (j : Fin 4)
  | xw (i : Nat) (lane : Payload)
  | epass (key : Key)
  | dpass (key : Key)
  | encrypt
  | decrypt
  -- start of a command (R230)
  | cstart
  -- dictionary primitives (R84)
  | insert (p : Phrase) (pending : Bool)
  | find (p : Phrase)
  | isPending (id : Nat)
  | clearPending (id : Nat)
  -- trap entry (R256)
  | raise (cause : Cause) (info : Nat)
  deriving DecidableEq, Repr

end Sys2Proof
end

