-- ==== Sys2Proof/WellFormed.lean ====
section
/-! DEFINITION. Which operands the rules allow an operation, as far as it does not depend on the state. -/

namespace Sys2Proof

/-- The operands are ones a rule of the spec can pass.
PUSH takes a value below `2^width` (R131).
A REF names an id from 3 (R104), an SREF an id from 4 and an ILLEGAL code is above NEXTID, so from 5
(R171 leaves NEXTID = 4 before the first such token).
An inserted phrase is not empty (R48) and only a one-symbol phrase is pending (R158 b).
A PENDING bit belongs to an entry, so to an id from 3 (R44, R104).
The recorded information of a raise is the code or the cursor its cause names (R251 to R253). -/
def Instr.wf : Instr → Bool
  | .push value width => decide (value < 2 ^ width)
  | .ref id => decide (3 ≤ id)
  | .sref id => decide (4 ≤ id)
  | .illegal code => decide (5 ≤ code)
  | .insert p pending => !p.isEmpty && (!pending || decide (p.length = 1))
  | .isPending id => decide (3 ≤ id)
  | .clearPending id => decide (3 ≤ id)
  | .raise .unknownCode info => decide (5 ≤ info)
  | .raise .badFirstCode info => decide (info = 3)
  | .raise .inputExhausted _ => true
  | .lit8P _ | .lit16P _ | .endP | .illegalP | .lit8 _ | .lit16 _ | .endTok => true
  | .compress | .decompress | .cstart => true
  | .pinit | .pushBit _ | .flush | .uinit | .readBit | .read _ => true
  | .einit | .tick | .ereg _ | .eemit | .esym | .efin | .encode => true
  | .dinit | .dpro | .dstep | .dapply | .decode => true
  | .kinc _ | .kseed _ | .mix _ | .kstep _ | .lane _ _ | .xw _ _ => true
  | .epass _ | .dpass _ | .encrypt | .decrypt => true
  | .find _ => true

end Sys2Proof
end

