-- ==== Sys2Proof/Decode.lean ====
section
/-! DEFINITION. The wire word, stream bits and fields (20_memory.md R71 to R73, 30_encoding.md R100,
R101), the decoder of tokens and commands (R102, R109, R114), and after it the encoder. Every bit list
is in stream order: its head is the bit that comes first in the stream. -/

namespace Sys2Proof

/-- `stored(p) = p + 32` (R73). -/
def stored (p : Payload) : Word := p.setWidth 16 + Config.offset

/-- `(w - 32) mod 2^16` (R73): the value UVAL takes and XW works on. -/
def unstored (w : Word) : BitVec 16 := w - Config.offset

/-- The bits of a field of width `n` holding `v`, least significant first (R72, decision D3). -/
def fieldBits (v n : Nat) : List Bool := (List.range n).map v.testBit

/-- The value of a field from its stream bits, the first bit being bit 0 (R72, R101). -/
def fieldValue : List Bool → Nat
  | [] => 0
  | b :: bs => b.toNat + 2 * fieldValue bs

/-- The 15 stream bits of a stored word, payload bit 14 first (R71). -/
def wordBits (w : Word) : List Bool :=
  (List.range Config.payloadBits).map fun i => (unstored w).getLsbD (14 - i)

/-- The stream bits of a bitstream (R101). -/
def streamBits (ws : List Word) : List Bool := ws.flatMap wordBits

/-- The stored word whose stream bits are the first 15 of `bs`, zero-padded (R71, R133). -/
def packWord (bs : List Bool) : Word :=
  stored (BitVec.ofNat 15
    (fieldValue ((bs.take 15 ++ List.replicate (15 - bs.length) false).reverse)))

/-- The first `n` words of the stream `bs`, zero-padded (R71, R106). -/
def packWords : Nat → List Bool → List Word
  | 0, _ => []
  | n + 1, bs => packWord bs :: packWords n (bs.drop 15)

/-- Why a token cannot be decoded: the stream ends inside one of its fields (R110 c). A code that names
no token is decoded, to ILLEGAL or ILLEGAL.P. -/
inductive DecodeReject where
  | streamEndsInField
  deriving DecidableEq, Repr

/-- A field of `n` bits at the head of the stream, and the stream after it. -/
def takeField (n : Nat) (bs : List Bool) : Except DecodeReject (Nat × List Bool) :=
  if n ≤ bs.length then .ok (fieldValue (bs.take n), bs.drop n) else .error .streamEndsInField

/-- The width of the code field (R102, R108). -/
def codeWidth : TokenCtx → Nat
  | .first => Config.proBits
  | .later numBits _ => numBits

/-- The width of the symbol field that follows a code (R102, R103): formats T8, T16 and T0. -/
def symWidth (code : Nat) : Nat :=
  if code = Config.codeLit8 then Config.lit8Bits
  else if code = Config.codeLit16 then Config.lit16Bits
  else 0

/-- The token selected by the value of the code field (R102, R109), with its symbol field. -/
def assemble (ctx : TokenCtx) (code sym : Nat) : Instr :=
  match ctx with
  | .first =>
    if code = Config.codeLit8 then .lit8P (BitVec.ofNat 8 sym)
    else if code = Config.codeLit16 then .lit16P (BitVec.ofNat 16 sym)
    else if code = Config.codeEnd then .endP
    else .illegalP
  | .later _ nextId =>
    if code = Config.codeLit8 then .lit8 (BitVec.ofNat 8 sym)
    else if code = Config.codeLit16 then .lit16 (BitVec.ofNat 16 sym)
    else if code = Config.codeEnd then .endTok
    else if code < nextId then .ref code
    else if code = nextId then .sref code
    else .illegal code

/-- The token at the head of a bit stream and the stream after it (R102 to R105, R109, R110). -/
def decodeToken (ctx : TokenCtx) (bs : List Bool) : Except DecodeReject (Instr × List Bool) :=
  match takeField (codeWidth ctx) bs with
  | .error e => .error e
  | .ok (code, rest) =>
    match takeField (symWidth code) rest with
    | .error e => .error e
    | .ok (sym, rest') => .ok (assemble ctx code sym, rest')

/-- The command a write of CMD starts (R32, R114): OP = 0 is COMPRESS, OP = 1 is DECOMPRESS. -/
def decodeCmd (op : BitVec 1) : Instr := if op = 0 then .compress else .decompress

/-- The stored words of a token whose stream bit k is bit k of `w` (the table's numbering), every bit
from `nbits` on being 0. Two words hold the longest first token, LIT16.P of 18 bits. -/
def tableWords (nbits w : Nat) : List Word := packWords 2 (fieldBits (w % 2 ^ nbits) 30)

/-- A word of the opcode table that is a write of CMD: CMD has one 1-bit field (R114), and no first
token with a symbol field fits one byte, so a value 0 or 1 of at most one byte is read as CMD.OP
(log 2). -/
def tableWordIsCmd (nbits w : Nat) : Bool := decide (nbits ≤ 8) && decide (w < 2)

/-- What the decoder reads from a word numbered as spec/opcode_table.json numbers it: a write of CMD,
or the first token of a stream. -/
def decodeTableWord (nbits w : Nat) : Option Instr :=
  if tableWordIsCmd nbits w then some (decodeCmd (BitVec.ofNat 1 w))
  else
    match decodeToken .first (streamBits (tableWords nbits w)) with
    | .ok (i, _) => some i
    | .error _ => none

/-- The operation is a token that can stand at this place of a stream (R102, R106, R109, R110): its
kind agrees with the place, and the value of its code field is one the place gives to it. -/
def Instr.fits : TokenCtx → Instr → Bool
  | .first, .lit8P _ => true
  | .first, .lit16P _ => true
  | .first, .endP => true
  | .first, .illegalP => true
  | .later numBits _, .lit8 _ => decide (2 ≤ numBits)
  | .later numBits _, .lit16 _ => decide (2 ≤ numBits)
  | .later numBits _, .endTok => decide (2 ≤ numBits)
  | .later numBits nextId, .ref id =>
    decide (3 ≤ id) && decide (id < nextId) && decide (id < 2 ^ numBits)
  | .later numBits nextId, .sref id =>
    decide (3 ≤ id) && decide (id = nextId) && decide (id < 2 ^ numBits)
  | .later numBits nextId, .illegal code =>
    decide (3 ≤ code) && decide (nextId < code) && decide (code < 2 ^ numBits)
  | _, _ => false

/-- The value of a token's code field (R109); none for an operation that is no token. -/
def tokenCode : Instr → Option Nat
  | .lit8P _ => some Config.codeLit8
  | .lit16P _ => some Config.codeLit16
  | .endP => some Config.codeEnd
  | .illegalP => some 3
  | .lit8 _ => some Config.codeLit8
  | .lit16 _ => some Config.codeLit16
  | .endTok => some Config.codeEnd
  | .ref id => some id
  | .sref id => some id
  | .illegal code => some code
  | _ => none

/-- The stream bits of a token's symbol field (R103, R105); no bit where the token has none. -/
def tokenSymBits : Instr → List Bool
  | .lit8P sym => fieldBits sym.toNat Config.lit8Bits
  | .lit16P sym => fieldBits sym.toNat Config.lit16Bits
  | .lit8 sym => fieldBits sym.toNat Config.lit8Bits
  | .lit16 sym => fieldBits sym.toNat Config.lit16Bits
  | _ => []

/-- The stream bits of a token at its place (R102, R103): the code field, then the symbol field. None
for an operation that has no token encoding (R109: micro-operations and commands). -/
def encode (ctx : TokenCtx) (i : Instr) : Option (List Bool) :=
  (tokenCode i).map fun code => fieldBits code (codeWidth ctx) ++ tokenSymBits i

/-- CMD.OP of a command (R114); none for any other operation. -/
def encodeCmd : Instr → Option (BitVec 1)
  | .compress => some 0
  | .decompress => some 1
  | _ => none

end Sys2Proof
end

