-- ==== Sys2Proof/Machine/State.lean ====
section
/-! DEFINITION. The state of the block as plain data (10_state.md), the reasons a step could stop, and
the state after reset (R60, R61). -/

namespace Sys2Proof.Machine

/-- A memory of `w`-bit units (R46, R47, R45): (index, unit) pairs, indices strictly rising, no unit
equal to 0, which is what an index not listed reads as (log 6). -/
abbrev Mem (w : Nat) := List (Nat × BitVec w)

/-- One entry of DICT (R48): a phrase and its PENDING bit (R44). -/
structure Entry where
  phrase : Phrase
  pending : Bool
  deriving DecidableEq, Repr

/-- DICT (R48): (id, entry) pairs, ids strictly rising; an id not listed has no phrase. -/
abbrev Dict := List (Nat × Entry)

/-- What the host writes (R32 to R35, R45, R46). -/
structure HostPort where
  /-- CMD: the OP of a command that was written and not yet begun, or none (R32). -/
  cmd : Option (BitVec 1)
  /-- IN_NULL (R33). -/
  inNull : Bool
  /-- IN_LEN (R34). -/
  inLen : Nat
  /-- IN (R46). -/
  inp : Mem 16
  /-- KEYS_NULL (R35). -/
  keysNull : Bool
  /-- NKEYS (R35). -/
  nKeys : Nat
  /-- KEYS (R45). -/
  keys : Mem 64
  deriving DecidableEq, Repr

/-- What the host reads (R36, R37, R46). -/
structure OutPort where
  /-- OUT_NULL (R36). -/
  null : Bool
  /-- OUT_LEN (R36). -/
  len : Nat
  /-- OUT (R46). -/
  mem : Mem 16
  /-- DCAUSE (R37). -/
  dcause : BitVec 2
  /-- DINFO (R37). -/
  dinfo : Nat
  deriving DecidableEq, Repr

/-- BUF and BUF_LEN (R47). -/
structure Buffer where
  mem : Mem 16
  len : Nat
  deriving DecidableEq, Repr

/-- The code-width registers NUMBITS, ENLARGEIN, NEXTID (R38). -/
structure CodeWidth where
  numBits : Nat
  enlargeIn : Nat
  nextId : Nat
  deriving DecidableEq, Repr

/-- The packer registers ACC and POS (R39). -/
structure Packer where
  acc : Payload
  pos : Fin 15
  deriving DecidableEq, Repr

/-- The unpacker registers UIDX, UMASK, UVAL (R40): the decoder's program counter. -/
structure Unpacker where
  uidx : Nat
  umask : Payload
  uval : BitVec 16
  deriving DecidableEq, Repr

/-- The encoder registers W and SCAN (R41). -/
structure Encoder where
  w : Phrase
  scan : Nat
  deriving DecidableEq, Repr

/-- The decoder registers PREV, CODE, ENTRY (R42). -/
structure Decoder where
  prev : Phrase
  code : Nat
  entry : Phrase
  deriving DecidableEq, Repr

/-- The cipher registers Z, INC, RMIX, KI, CI (R43). -/
structure Cipher where
  z : Key
  inc : Key
  rmix : Key
  ki : Nat
  ci : Nat
  deriving DecidableEq, Repr

/-- What the sequencer does next (R30; the model's own field, log 1). -/
inductive Phase where
  /-- No command runs: the block waits for CMD (R61, R62). -/
  | idle
  /-- The decoder is about to take in the first token of BUF (R171). -/
  | firstToken
  /-- The decoder is in its main loop, about to take in a later token (R172). -/
  | laterToken
  deriving DecidableEq, Repr

/-- The value the last value-returning micro-operation gave back with `return` (R15; the model's own
field, log 3). -/
inductive Returned where
  | nothing
  /-- READBIT (R137), IsPending (R84). -/
  | bit (b : Bool)
  /-- READ (R138). -/
  | value (n : Nat)
  /-- Insert (R84): the id used. -/
  | id (n : Nat)
  /-- Find (R84): an id, or none. -/
  | found (o : Option Nat)
  /-- LANE (R204). -/
  | lane (l : Payload)
  /-- MIX (R203). -/
  | mixed (r : Key)
  deriving DecidableEq, Repr

/-- The state of the block: the host's interface, BUF and DICT, the working registers of each unit,
and the model's own two fields. -/
structure State where
  port : HostPort
  out : OutPort
  buf : Buffer
  dict : Dict
  width : CodeWidth
  packer : Packer
  unpacker : Unpacker
  enc : Encoder
  dec : Decoder
  cipher : Cipher
  phase : Phase
  ret : Returned
  deriving DecidableEq, Repr

/-- Reasons the machine stops. There is none: every rule of the spec is total (93, end of section 1),
the exceptions of R250 are next states (R256), and where a rule states no value the value is free. -/
inductive Fault where
  deriving DecidableEq, Repr

/-- Reasons an operation has no meaning here. -/
inductive Refusal where
  /-- An operation whose meaning is not written; raised by no arm of `exec`. Safe: the run stops. -/
  | notModelled (mnemonic : String)
  deriving DecidableEq, Repr

/-- The state after hardware reset (R61): idle, the outputs 0. The spec gives no value to the inputs
the host writes (log 4), to the working state (log 5) or to a unit nothing has written (log 6). -/
def State.reset : State where
  port := { cmd := none, inNull := false, inLen := 0, inp := [], keysNull := false, nKeys := 0, keys := [] }
  out := { null := false, len := 0, mem := [], dcause := 0, dinfo := 0 }
  buf := { mem := [], len := 0 }
  dict := []
  width := { numBits := 2, enlargeIn := 2, nextId := 3 }
  packer := { acc := 0, pos := 0 }
  unpacker := { uidx := 0, umask := 0, uval := 0 }
  enc := { w := [], scan := 0 }
  dec := { prev := [], code := 0, entry := [] }
  cipher := { z := 0, inc := 0x632BE5AB, rmix := 0, ki := 0, ci := 0 }
  phase := .idle
  ret := .nothing

end Sys2Proof.Machine
end

