-- ==== Sys2Proof/Machine/Ops.lean ====
section
/-! DEFINITION. The shared operations: the memories (R15 `MemRead`, `MemWrite`, `append`), the
dictionary table and its primitives (R84), the end of a command, the trap entry (R256), loops, and the
host's moves (R281, R237). -/

namespace Sys2Proof.Machine

/-! Tables: (index, item) lists with rising indices. -/

/-- The item listed at an index. -/
def tableGet {α : Type} : List (Nat × α) → Nat → Option α
  | [], _ => none
  | (k, x) :: t, i => if k = i then some x else tableGet t i

/-- Lists `x` at index `i`, in the place the rising order gives it. -/
def tableSet {α : Type} : List (Nat × α) → Nat → α → List (Nat × α)
  | [], i, x => [(i, x)]
  | (k, y) :: t, i, x =>
    if i < k then (i, x) :: (k, y) :: t
    else if i = k then (i, x) :: t
    else (k, y) :: tableSet t i x

/-- Unlists index `i`. -/
def tableErase {α : Type} (t : List (Nat × α)) (i : Nat) : List (Nat × α) :=
  t.filter fun e => decide (e.1 ≠ i)

/-- The indices are strictly rising. -/
abbrev TableSorted {α : Type} (t : List (Nat × α)) : Prop := t.Pairwise fun a b => a.1 < b.1

/-! Memories of units (R46, R47, R45). -/

/-- `MemRead(SPACE, i)` (R15): the unit at index `i`; 0 where nothing is listed (log 6). -/
def memRead {w : Nat} (m : Mem w) (i : Nat) : BitVec w := (tableGet m i).getD 0

/-- `MemWrite(SPACE, i, v)` (R15). Writing what an unlisted index reads as unlists the index. -/
def memWrite {w : Nat} (m : Mem w) (i : Nat) (v : BitVec w) : Mem w :=
  if v = 0 then tableErase m i else tableSet m i v

/-- The canonical form of a memory: indices strictly rising, no unit equal to 0. -/
abbrev MemWf {w : Nat} (m : Mem w) : Prop := TableSorted m ∧ ∀ e ∈ m, e.2 ≠ 0

/-- The units at indices 0 to `n - 1`, in order. -/
def memUnits {w : Nat} (m : Mem w) (n : Nat) : List (BitVec w) := (List.range n).map (memRead m)

/-- Writes `vs` at `i`, `i + 1`, and so on. -/
def memWriteFrom {w : Nat} (m : Mem w) (i : Nat) : List (BitVec w) → Mem w
  | [] => m
  | v :: vs => memWriteFrom (memWrite m i v) (i + 1) vs

/-- `for i in 0 .. n-1: MemWrite(dst, i, MemRead(src, i))` (R231, R232). -/
def memCopy {w : Nat} (n : Nat) (src dst : Mem w) : Mem w :=
  (List.range n).foldl (fun d i => memWrite d i (memRead src i)) dst

/-- `append(BUF, v)` (R15, R85). -/
def appendBuf (b : Buffer) (v : Word) : Buffer :=
  { mem := memWrite b.mem b.len v, len := b.len + 1 }

/-- `append(OUT, s)` (R15, R85). -/
def appendOut (o : OutPort) (s : Sym) : OutPort :=
  { o with mem := memWrite o.mem o.len s, len := o.len + 1 }

/-- `for i in 0 .. len(p)-1: append(OUT, p[i])` (R177). -/
def appendOutAll (o : OutPort) (p : Phrase) : OutPort := p.foldl appendOut o

/-! The dictionary (R48, R84). -/

/-- The phrase DICT holds at an id, if it holds one. -/
def dictPhrase? (d : Dict) (id : Nat) : Option Phrase := (tableGet d id).map Entry.phrase

/-- `MemRead(DICT, id)` (R48): the phrase; a free one where there is none (U5, log 10). -/
def dictRead (d : Dict) (id : Nat) : Phrase := (dictPhrase? d id).getD (Config.freePhrase id)

/-- `MemWrite(DICT, id, p)` with the entry's PENDING bit. -/
def dictWrite (d : Dict) (id : Nat) (p : Phrase) (pending : Bool) : Dict :=
  tableSet d id { phrase := p, pending := pending }

/-- `Find(p)` (R84): the least id in `3 .. NEXTID-1` with `DICT[id] = p`, or none. -/
def dictFind (d : Dict) (nextId : Nat) (p : Phrase) : Option Nat :=
  (List.range' Config.firstId (nextId - Config.firstId)).find? fun id =>
    decide (dictPhrase? d id = some p)

/-- `Insert(p, pending)` (R84): writes the entry at NEXTID, then NEXTID <- NEXTID + 1. -/
def insertPhrase (p : Phrase) (pending : Bool) (s : State) : State :=
  { s with
    dict := dictWrite s.dict s.width.nextId p pending
    width := { s.width with nextId := s.width.nextId + 1 } }

/-! The end of a command, and the trap. -/

/-- The command ends normally (R175 `stop`, R231 `done`): the block is idle. OUT is the result. -/
def endCommand (s : State) : State := { s with phase := .idle }

/-- The value of DCAUSE for a cause (R37, R251 to R253). -/
def Cause.number : Cause → BitVec 2
  | .unknownCode => 1
  | .inputExhausted => 2
  | .badFirstCode => 3

/-- Trap entry, `raise X(info)` (R256): records the cause, discards the output, ends the command.
Nothing is saved and control goes to no handler; there is no return from it (R257). -/
def enterTrap (c : Cause) (info : Nat) (s : State) : State :=
  { s with
    out := { s.out with dcause := Cause.number c, dinfo := info, len := 0, null := false }
    phase := .idle }

/-- What a micro-operation that can raise gives: a value and the state it goes on from, or the state
after the trap entry that ended the command. -/
inductive Res (α : Type) where
  | ok (a : α) (s : State)
  | raised (s : State)
  deriving DecidableEq, Repr

/-! Loops. -/

/-- `while cond: body`, at most `n` times; each use says why `n` rounds are enough. -/
def whileUpTo (cond : State → Bool) (body : State → State) : Nat → State → State
  | 0, s => s
  | n + 1, s => if cond s then whileUpTo cond body n (body s) else s

/-! The host's moves (R30, R237, R281): it acts only while the block is idle. -/

/-- The host writes IN_NULL, IN_LEN and IN; an absent input leaves IN_LEN and IN (R33). -/
def hostWriteInput (input : Option (List Sym)) (p : HostPort) : HostPort :=
  match input with
  | none => { p with inNull := true }
  | some us => { p with inNull := false, inLen := us.length, inp := memWriteFrom p.inp 0 us }

/-- The host writes KEYS_NULL, NKEYS and KEYS; an absent key list leaves NKEYS and KEYS (R35). -/
def hostWriteKeys (keys : Option (List Key)) (p : HostPort) : HostPort :=
  match keys with
  | none => { p with keysNull := true }
  | some ks => { p with keysNull := false, nKeys := ks.length, keys := memWriteFrom p.keys 0 ks }

/-- The host loads the inputs and then writes CMD (R281). It has no such move while a command runs or
waits (U6, U7, log 17). `COMPRESS(T, K)` and `DECOMPRESS(T, K)` of R236 are this move with `T`, `K` and OP, the
step after it, and `output`. -/
def hostStart (input : Option (List Sym)) (keys : Option (List Key)) (op : BitVec 1) (s : State) :
    Option State :=
  if s.phase = .idle ∧ s.port.cmd = none then
    some { s with port := { hostWriteKeys keys (hostWriteInput input s.port) with cmd := some op } }
  else none

/-- The sequencer takes the pending command: the write of CMD is consumed (R32). -/
def takeCmd (s : State) : State := { s with port := { s.port with cmd := none } }

/-- What the host reads after a command (R36, R236): absent, or OUT[0 .. OUT_LEN-1]. -/
def output (s : State) : Option (List (BitVec 16)) :=
  if s.out.null then none else some (memUnits s.out.mem s.out.len)

end Sys2Proof.Machine
end

