-- ==== Sys2Proof/Machine/Flags.lean ====
section
/-! DEFINITION. The flags of R44 and the counters tested against zero: the PENDING bits, the growth
rule of NUMBITS and ENLARGEIN (R151), and the test that engages the cipher (R233). -/

namespace Sys2Proof.Machine

/-- `IsPending(id)` (R84): the entry's PENDING bit; free where there is no entry (log 12). -/
def isPending (d : Dict) (id : Nat) : Bool :=
  match tableGet d id with
  | some e => e.pending
  | none => Config.freePending id

/-- `ClearPending(id)` (R84): an id with no entry has no bit to clear (log 15). -/
def clearPending (d : Dict) (id : Nat) : Dict :=
  match tableGet d id with
  | some e => tableSet d id { e with pending := false }
  | none => d

/-- `ENLARGEIN - 1` (R151); free at 0, which the rule's precondition rules out (log 13). -/
def decrement : Nat → Nat
  | 0 => Config.freeBelowZero
  | n + 1 => n

/-- TICK (R151): decrement ENLARGEIN; at zero the code width grows by one bit and ENLARGEIN becomes
2 to the width before the growth (decision D6). -/
def growth (c : CodeWidth) : CodeWidth :=
  if decrement c.enlargeIn = 0 then
    { c with enlargeIn := 2 ^ c.numBits, numBits := c.numBits + 1 }
  else { c with enlargeIn := decrement c.enlargeIn }

/-- The cipher is engaged iff `KEYS_NULL = 0 and NKEYS > 0` (R35, R233, R216). -/
def cipherEngaged (p : HostPort) : Bool := !p.keysNull && decide (0 < p.nKeys)

end Sys2Proof.Machine
end

