-- ==== Sys2Proof/Machine/Operands.lean ====
section
/-! DEFINITION. Where operands come from: the first symbol of a phrase (R14), the bits and fields the
unpacker reads from BUF at the cursor (R137, R138), the lanes of a mixed value (R204), and the token at
the cursor. -/

namespace Sys2Proof.Machine

/-- `first(p)` (R14); free for the empty phrase (log 11). -/
def firstSym : Phrase → Sym
  | [] => Config.freeFirst
  | c :: _ => c

/-- The bit of UVAL that UMASK marks, UMASK then moving one place down (R137). -/
def yieldBit (s : State) : Res Bool :=
  .ok (decide (s.unpacker.uval &&& s.unpacker.umask.setWidth 16 ≠ 0))
    { s with unpacker := { s.unpacker with umask := s.unpacker.umask >>> 1 } }

/-- The unpacker after it has loaded the word at UIDX (R137). -/
def refill (s : State) : State :=
  { s with unpacker :=
    { uval := unstored (memRead s.buf.mem s.unpacker.uidx)
      uidx := s.unpacker.uidx + 1
      umask := 0x4000 } }

/-- READBIT (R137): the next stream bit, a word being loaded only when a bit is demanded and UMASK is
zero; raises InputExhausted(UIDX) where no word is left (R252). -/
def readBit (s : State) : Res Bool :=
  if s.unpacker.umask = 0 then
    if s.buf.len ≤ s.unpacker.uidx then .raised (enterTrap .inputExhausted s.unpacker.uidx s)
    else yieldBit (refill s)
  else yieldBit s

/-- READ(width) (R138): the first bit read is bit 0 of the value. -/
def readField : Nat → State → Res Nat
  | 0, s => .ok 0 s
  | n + 1, s =>
    match readBit s with
    | .raised t => .raised t
    | .ok b s1 =>
      match readField n s1 with
      | .raised t => .raised t
      | .ok v s2 => .ok (b.toNat + 2 * v) s2

/-- LANE(r, j) (R204, decision D19): three 15-bit lanes from bit 0 up, the fourth from bit 49. -/
def laneOf (r : Key) (j : Fin 4) : Payload :=
  if j = 3 then r.extractLsb' Config.lane3Lo 15 else r.extractLsb' (15 * j.val) 15

/-- The place in the token stream (R102): its first token, or a later one under NUMBITS and NEXTID. -/
def tokenCtx (s : State) : TokenCtx :=
  match s.phase with
  | .laterToken => .later s.width.numBits s.width.nextId
  | .firstToken | .idle => .first

/-- The state with the value of a code field in CODE (R171, R172). -/
def setCode (c : Nat) (s : State) : State := { s with dec := { s.dec with code := c } }

/-- Fetches the token at the cursor: reads its code field into CODE and its symbol field, if it has
one, each of which may raise InputExhausted (R171 to R174, R255). -/
def fetchToken (ctx : TokenCtx) (s : State) : Res Instr :=
  match readField (codeWidth ctx) s with
  | .raised t => .raised t
  | .ok code s1 =>
    match readField (symWidth code) (setCode code s1) with
    | .raised t => .raised t
    | .ok sym s2 => .ok (assemble ctx code sym) s2

/-- The idle block with a write of CMD pending, OP being bit 0 of the word (R114). -/
def placeCmd (w : Nat) (s : State) : State :=
  { s with port := { s.port with cmd := some (BitVec.ofNat 1 w) }, phase := .idle }

/-- The decoder about to take in its first token, with these words as the whole stream in BUF and
nothing read (R136, R170, R171). -/
def placeStream (ws : List Word) (s : State) : State :=
  { s with
    buf := { mem := memWriteFrom s.buf.mem 0 ws, len := ws.length }
    unpacker := { uidx := 0, umask := 0, uval := 0 }
    phase := .firstToken }

/-- The number of bits of the current word not yet read: those at or below the set bit of UMASK (R40). -/
def maskBits (m : Payload) : Nat := if m = 0 then 0 else m.toNat.log2 + 1

/-- BITPOS (R40): how many stream bits have been read. -/
def bitPos (u : Unpacker) : Nat := 15 * u.uidx - maskBits u.umask

/-- The stream bits not yet read: the rest of UVAL, then the words of BUF from UIDX on (R40, R101). -/
def unreadBits (s : State) : List Bool :=
  ((List.range (maskBits s.unpacker.umask)).reverse.map s.unpacker.uval.getLsbD) ++
    streamBits ((memUnits s.buf.mem s.buf.len).drop s.unpacker.uidx)

end Sys2Proof.Machine
end

