-- ==== Sys2Proof/Machine/CipherOps.lean ====
section
/-! DEFINITION. The Keystream Cipher (43_cipher.md): KINC, KSEED, MIX, KSTEP, LANE, XW, EPASS, DPASS,
ENCRYPT, DECRYPT. All 64-bit arithmetic wraps (R214). -/

namespace Sys2Proof.Machine

/-- The increment of a key, `INC_MUL * key + INC_ADD` (R201). The sum is written with the constant first:
it is the same sum, and a kernel that compares it does not count the constant down. -/
def increment (key : Key) : Key := Config.incAdd + Config.incMul * key

/-- KINC(key) (R201). -/
def deriveInc (key : Key) (c : Cipher) : Cipher := { c with inc := increment key }

/-- KSEED(key) (R202, decision D15). -/
def seed (key : Key) (c : Cipher) : Cipher := { c with z := key }

/-- KSTEP(dir) (R206): `Z <- (Z + dir * INC) mod 2^64; RMIX <- MIX(Z)`. -/
def keyStep (dir : Dir) (c : Cipher) : Cipher :=
  let z := match dir with
    | .forward => c.z + c.inc
    | .backward => c.z - c.inc
  { c with z := z, rmix := Config.mix z }

/-- A word with a lane XORed into its payload (R205): the offset off, the XOR, the offset on. -/
def xorLane (w : Word) (l : Payload) : Word := (unstored w ^^^ l.setWidth 16) + Config.offset

/-- XW(i, lane) (R205). -/
def xorWord (i : Nat) (l : Payload) (b : Buffer) : Buffer :=
  { b with mem := memWrite b.mem i (xorLane (memRead b.mem i) l) }

/-- `for t in ts: XW(base + t, LANE(r, f t))`. -/
def xorWords (base : Nat) (r : Key) (f : Nat → Fin 4) (ts : List Nat) (b : Buffer) : Buffer :=
  ts.foldl (fun b t => xorWord (base + t) (laneOf r (f t)) b) b

/-- The lane of word `j` of a full group (R207, decision D18). -/
def groupLane (j : Nat) : Fin 4 := Fin.ofNat 4 j

/-- The lane of trailing word `t` (R207, decision D20): the highest lane first. -/
def trailingLane (t : Nat) : Fin 4 := Fin.ofNat 4 (3 - t)

/-- A full group of EPASS (R207): a step forward, words `CI` to `CI + 3` in ascending order. -/
def encryptGroup (s : State) : State :=
  let c := keyStep .forward s.cipher
  { s with
    cipher := { c with ci := c.ci + Config.group }
    buf := xorWords s.cipher.ci c.rmix groupLane [0, 1, 2, 3] s.buf }

/-- EPASS(key) (R207). Each full group adds 4 to CI, so BUF_LEN rounds are enough. -/
def encryptPass (key : Key) (s : State) : State :=
  let s1 := { s with cipher := { seed key (deriveInc key s.cipher) with ci := 0 } }
  let s2 := whileUpTo (fun t => decide (t.cipher.ci + Config.group ≤ t.buf.len)) encryptGroup
    s.buf.len s1
  let m := s2.buf.len - s2.cipher.ci
  if 0 < m then
    let c := keyStep .forward s2.cipher
    { s2 with
      cipher := { c with ci := s2.buf.len }
      buf := xorWords s2.cipher.ci c.rmix trailingLane (List.range m) s2.buf }
  else s2

/-- A full group of DPASS (R208): a step backward, words `CI - 1` to `CI - 4` in descending order. -/
def decryptGroup (s : State) : State :=
  let c := keyStep .backward s.cipher
  { s with
    cipher := { c with ci := c.ci - Config.group }
    buf := xorWords (s.cipher.ci - Config.group) c.rmix groupLane [3, 2, 1, 0] s.buf }

/-- `ceil(L / 4)` (R13, R208). -/
def stepCount (len : Nat) : Nat := (len + 3) / 4

/-- DPASS(key) (R208, decision D21). Each full group takes 4 from CI, so BUF_LEN rounds are enough. -/
def decryptPass (key : Key) (s : State) : State :=
  let len := s.buf.len
  let c0 := deriveInc key s.cipher
  let c1 := { c0 with z := key + BitVec.ofNat 64 (stepCount len + 1) * c0.inc, ci := len }
  let m := len % Config.group
  let s1 := { s with cipher := c1 }
  let s2 :=
    if 0 < m then
      let c := keyStep .backward s1.cipher
      { s1 with
        cipher := { c with ci := len - m }
        buf := xorWords (len - m) c.rmix trailingLane (List.range m).reverse s1.buf }
    else s1
  whileUpTo (fun t => decide (0 < t.cipher.ci)) decryptGroup len s2

/-- The state with KI at the key a pass applies (R43, R209, R210). -/
def selectKey (k : Nat) (s : State) : State := { s with cipher := { s.cipher with ki := k } }

/-- KI moves up by one when a key has been applied in list order (R85). -/
def advanceKey (s : State) : State := selectKey (s.cipher.ki + 1) s

/-- `KI - 1` (R85); free below 0 (log 14). -/
def keyBelow : Nat → Nat
  | 0 => Config.freeKeyIndex
  | k + 1 => k

/-- KI moves down by one when a key has been applied in reverse order (R85). -/
def retreatKey (s : State) : State := selectKey (keyBelow s.cipher.ki) s

/-- One round of ENCRYPT: the pass of key `k`, then KI + 1 (R209, R85). -/
def encryptKey (s : State) (k : Nat) : State :=
  advanceKey (encryptPass (memRead s.port.keys k) (selectKey k s))

/-- One round of DECRYPT: the pass of key `k`, then KI - 1 (R210, R85). -/
def decryptKey (s : State) (k : Nat) : State :=
  retreatKey (decryptPass (memRead s.port.keys k) (selectKey k s))

/-- ENCRYPT (R209): a pass for every key, in list order, performed only where the cipher is engaged (R209,
R216). -/
def encryptAll (s : State) : State :=
  if cipherEngaged s.port then (List.range s.port.nKeys).foldl encryptKey s else s

/-- DECRYPT (R210): a pass for every key, in reverse list order, performed only where the cipher is engaged
(R216). -/
def decryptAll (s : State) : State :=
  if cipherEngaged s.port then (List.range s.port.nKeys).reverse.foldl decryptKey s else s

/-- KINC (R201). -/
def execKinc (key : Key) (s : State) : Host.Outcome State Fault Refusal :=
  .next { s with cipher := deriveInc key s.cipher }

/-- KSEED (R202). -/
def execKseed (key : Key) (s : State) : Host.Outcome State Fault Refusal :=
  .next { s with cipher := seed key s.cipher }

/-- MIX (R203): gives back the mixed value. -/
def execMix (r : Key) (s : State) : Host.Outcome State Fault Refusal :=
  .next { s with ret := .mixed (Config.mix r) }

/-- KSTEP (R206). -/
def execKstep (dir : Dir) (s : State) : Host.Outcome State Fault Refusal :=
  .next { s with cipher := keyStep dir s.cipher }

/-- LANE (R204): gives back the lane. -/
def execLane (r : Key) (j : Fin 4) (s : State) : Host.Outcome State Fault Refusal :=
  .next { s with ret := .lane (laneOf r j) }

/-- XW (R205). -/
def execXw (i : Nat) (l : Payload) (s : State) : Host.Outcome State Fault Refusal :=
  .next { s with buf := xorWord i l s.buf }

/-- EPASS (R207). -/
def execEpass (key : Key) (s : State) : Host.Outcome State Fault Refusal :=
  .next (encryptPass key s)

/-- DPASS (R208). -/
def execDpass (key : Key) (s : State) : Host.Outcome State Fault Refusal :=
  .next (decryptPass key s)

/-- ENCRYPT (R209): nothing is written where the cipher is bypassed (R216). -/
def execEncrypt (s : State) : Host.Outcome State Fault Refusal := .next (encryptAll s)

/-- DECRYPT (R210): nothing is written where the cipher is bypassed (R216). -/
def execDecrypt (s : State) : Host.Outcome State Fault Refusal := .next (decryptAll s)

end Sys2Proof.Machine
end

