-- ==== Sys2Proof/Machine/Packer.lean ====
section
/-! DEFINITION. The Bit Packer (40_bitpacker.md section 1): PINIT, PUSHBIT, PUSH, FLUSH. -/

namespace Sys2Proof.Machine

/-- PINIT (R135). -/
def packerInit (s : State) : State := { s with packer := { acc := 0, pos := 0 } }

/-- `((ACC << 1) | b)[14:0]` (R130). -/
def shiftIn (acc : Payload) (b : Bool) : Payload := (acc <<< 1) ||| (if b then 1 else 0)

/-- PUSHBIT(b) (R130). -/
def pushBit (s : State) (b : Bool) : State :=
  if s.packer.pos = 14 then
    { s with
      buf := appendBuf s.buf (stored (shiftIn s.packer.acc b))
      packer := { acc := 0, pos := 0 } }
  else
    { s with packer := { acc := shiftIn s.packer.acc b, pos := s.packer.pos + 1 } }

/-- Pushes stream bits one after another. -/
def pushBits (bs : List Bool) (s : State) : State := bs.foldl pushBit s

/-- PUSH(value, width) (R131): bit 0 of the value first; bits from `width` on are ignored. -/
def pushField (value width : Nat) (s : State) : State := pushBits (fieldBits value width) s

/-- FLUSH (R133): always appends exactly one word, zero-padded (decision D9). -/
def flushWord (s : State) : State :=
  { s with
    buf := appendBuf s.buf (stored (s.packer.acc <<< (15 - s.packer.pos.val)))
    packer := { acc := 0, pos := 0 } }

/-- PINIT (R135). -/
def execPinit (s : State) : Host.Outcome State Fault Refusal := .next (packerInit s)

/-- PUSHBIT (R130). -/
def execPushBit (b : Bool) (s : State) : Host.Outcome State Fault Refusal := .next (pushBit s b)

/-- PUSH (R131). -/
def execPush (value width : Nat) (s : State) : Host.Outcome State Fault Refusal :=
  .next (pushField value width s)

/-- FLUSH (R133). -/
def execFlush (s : State) : Host.Outcome State Fault Refusal := .next (flushWord s)

end Sys2Proof.Machine
end

