-- ==== Sys2Proof/Machine/Encode.lean ====
section
/-! DEFINITION. The Dictionary Encoder (41_encoder.md): EINIT, TICK, EREG, EEMIT, ESYM, EFIN, ENCODE. -/

namespace Sys2Proof.Machine

/-- EINIT (R150). -/
def encoderInit (s : State) : State :=
  packerInit { s with
    dict := []
    width :=
      { numBits := Config.encNumBits0
        enlargeIn := Config.encEnlargeIn0
        nextId := Config.encNextId0 }
    enc := { w := [], scan := 0 } }

/-- TICK (R151). -/
def tick (s : State) : State := { s with width := growth s.width }

/-- EREG(c) (R153): a symbol not seen before gets its code now, pending (decision D8). -/
def registerSym (c : Sym) (s : State) : State :=
  match dictFind s.dict s.width.nextId [c] with
  | none => insertPhrase [c] true s
  | some _ => s

/-- The id EEMIT works with: `Find(W)`, which the rules never let be none (R152, R158); then free
(log 12). -/
def emitId (s : State) : Nat :=
  (dictFind s.dict s.width.nextId s.enc.w).getD (Config.freeId s.enc.w)

/-- The literal token EEMIT sends for a pending phrase (R152): both fields at the width before either
tick. -/
def pushLiteral (c : Sym) (s : State) : State :=
  if c.toNat < Config.lit8Limit then
    pushField c.toNat Config.lit8Bits (pushField Config.codeLit8 s.width.numBits s)
  else pushField c.toNat Config.lit16Bits (pushField Config.codeLit16 s.width.numBits s)

/-- EEMIT (R152): a pending phrase is sent as a literal, with a tick of its own and its PENDING bit
cleared; any other phrase as its code; then the tick of every emission (decision D7). -/
def emitPhrase (s : State) : State :=
  let id := emitId s
  if isPending s.dict id then
    let s1 := tick (pushLiteral (firstSym s.enc.w) s)
    tick { s1 with dict := clearPending s1.dict id }
  else tick (pushField id s.width.numBits s)

/-- ESYM (R154): one step of the scan. -/
def scanSym (s : State) : State :=
  let c := memRead s.port.inp s.enc.scan
  let s1 := registerSym c { s with enc := { s.enc with scan := s.enc.scan + 1 } }
  let wc := s1.enc.w ++ [c]
  match dictFind s1.dict s1.width.nextId wc with
  | some _ => { s1 with enc := { s1.enc with w := wc } }
  | none =>
    let s2 := insertPhrase wc false (emitPhrase s1)
    { s2 with enc := { s2.enc with w := [c] } }

/-- EFIN (R155): the last phrase, the END code at the width the ticks left, and FLUSH. -/
def encoderFinish (s : State) : State :=
  let s1 := if s.enc.w = [] then s else emitPhrase s
  flushWord (pushField Config.codeEnd s1.width.numBits s1)

/-- ENCODE (R156): exactly IN_LEN ESYM steps, since SCAN starts at 0 and each step adds one. -/
def encodeText (s : State) : State :=
  encoderFinish
    (whileUpTo (fun t => decide (t.enc.scan < t.port.inLen)) scanSym s.port.inLen (encoderInit s))

/-- EINIT (R150). -/
def execEinit (s : State) : Host.Outcome State Fault Refusal := .next (encoderInit s)

/-- TICK (R151). -/
def execTick (s : State) : Host.Outcome State Fault Refusal := .next (tick s)

/-- EREG (R153). -/
def execEreg (c : Sym) (s : State) : Host.Outcome State Fault Refusal := .next (registerSym c s)

/-- EEMIT (R152). -/
def execEemit (s : State) : Host.Outcome State Fault Refusal := .next (emitPhrase s)

/-- ESYM (R154). -/
def execEsym (s : State) : Host.Outcome State Fault Refusal := .next (scanSym s)

/-- EFIN (R155). -/
def execEfin (s : State) : Host.Outcome State Fault Refusal := .next (encoderFinish s)

/-- ENCODE (R156). -/
def execEncode (s : State) : Host.Outcome State Fault Refusal := .next (encodeText s)

end Sys2Proof.Machine
end

