-- ==== Sys2Proof/Machine/Tokens.lean ====
section
/-! DEFINITION. The Dictionary Decoder (42_decoder.md): the tokens it executes, and DINIT, DPRO, DSTEP,
DAPPLY, DECODE. A token's meaning is what its rule does once its fields have been read. -/

namespace Sys2Proof.Machine

/-- `MemWrite(DICT, NEXTID, p); NEXTID <- NEXTID + 1`: the decoder sets no PENDING bit (R44, log 15). -/
def installPhrase (p : Phrase) (s : State) : State := insertPhrase p false s

/-- LIT8.P and LIT16.P (R171): the first symbol becomes entry 3, the previous phrase and the output,
and the main loop starts at (3, 4, 4). -/
def firstLiteral (c : Sym) (s : State) : State :=
  { s with
    dict := dictWrite s.dict Config.firstId [c] false
    dec := { s.dec with prev := [c] }
    out := appendOut s.out c
    width :=
      { numBits := Config.decNumBits0
        enlargeIn := Config.decEnlargeIn0
        nextId := Config.decNextId0 }
    phase := .laterToken }

/-- END.P (R171): the command ends with the empty text. -/
def endFirst (s : State) : State := endCommand { s with out := { s.out with len := 0 } }

/-- A first code of 3 (R171, R253). -/
def illegalFirst (s : State) : State := enterTrap .badFirstCode 3 s

/-- LIT8 and LIT16 once the symbol is read (R173, R174): the symbol becomes a new entry, CODE its id,
ENTRY its phrase, and the literal ticks once. -/
def literal (c : Sym) (s : State) : State :=
  let s1 := installPhrase [c] s
  tick { s1 with dec := { s1.dec with code := s.width.nextId, entry := [c] } }

/-- END (R175): the command ends; the text is OUT[0 .. OUT_LEN-1]. -/
def endStream (s : State) : State := endCommand s

/-- REF (R176): the phrase of an existing entry. -/
def reference (id : Nat) (s : State) : State :=
  { s with dec := { s.dec with entry := dictRead s.dict id } }

/-- SREF (R178): the previous phrase and its own first symbol. -/
def selfReference (s : State) : State :=
  { s with dec := { s.dec with entry := s.dec.prev ++ [firstSym s.dec.prev] } }

/-- An unknown code (R172, R179, R251). -/
def illegalCode (code : Nat) (s : State) : State := enterTrap .unknownCode code s

/-- DAPPLY (R177): the common tail of LIT8, LIT16, REF and SREF. -/
def applyEntry (s : State) : State :=
  let s1 := { s with out := appendOutAll s.out s.dec.entry }
  let s2 := tick (installPhrase (s1.dec.prev ++ [firstSym s1.dec.entry]) s1)
  { s2 with dec := { s2.dec with prev := s2.dec.entry } }

/-- DINIT (R170). PREV, CODE and ENTRY are not written; the first token comes next. -/
def decoderInit (s : State) : State :=
  let s1 := { s with dict := [], out := { s.out with len := 0 }, phase := .firstToken }
  { s1 with unpacker := { uidx := 0, umask := 0, uval := 0 } }

/-- DPRO (R171): the prologue, which takes in the first token. -/
def prologue (s : State) : State :=
  match readField Config.proBits s with
  | .raised t => t
  | .ok code s1 =>
    let s2 := setCode code s1
    if code = Config.codeLit8 then
      match readField Config.lit8Bits s2 with
      | .raised t => t
      | .ok v s3 => firstLiteral (BitVec.ofNat 16 v) s3
    else if code = Config.codeLit16 then
      match readField Config.lit16Bits s2 with
      | .raised t => t
      | .ok v s3 => firstLiteral (BitVec.ofNat 16 v) s3
    else if code = Config.codeEnd then endFirst s2
    else illegalFirst s2

/-- DSTEP (R172): one iteration of the main loop. -/
def decodeStep (s : State) : State :=
  match readField s.width.numBits s with
  | .raised t => t
  | .ok code s1 =>
    let s2 := setCode code s1
    if code = Config.codeLit8 then
      match readField Config.lit8Bits s2 with
      | .raised t => t
      | .ok v s3 => applyEntry (literal (BitVec.ofNat 16 v) s3)
    else if code = Config.codeLit16 then
      match readField Config.lit16Bits s2 with
      | .raised t => t
      | .ok v s3 => applyEntry (literal (BitVec.ofNat 16 v) s3)
    else if code = Config.codeEnd then endStream s2
    else if code < s2.width.nextId then applyEntry (reference code s2)
    else if code = s2.width.nextId then applyEntry (selfReference s2)
    else illegalCode code s2

/-- DECODE (R180): DSTEP until END stops it or a raise ends the command. Each DSTEP reads at least 3
stream bits (R183), so `15 * BUF_LEN` rounds are enough. -/
def decodeStream (s : State) : State :=
  whileUpTo (fun t => decide (t.phase = .laterToken)) decodeStep (15 * s.buf.len)
    (prologue (decoderInit s))

/-- A token that resolves a phrase is followed by DAPPLY (R172, R177); an END or an illegal code is not. -/
def resolvesPhrase : Instr → Bool
  | .lit8 _ | .lit16 _ | .ref _ | .sref _ => true
  | _ => false

/-- What a step adds after a token's own meaning (R172): DAPPLY, where the token resolves a phrase. -/
def retire (i : Instr) (s : State) : State := if resolvesPhrase i then applyEntry s else s

/-- LIT8.P (R171): the symbol field is zero-extended (R105). -/
def execLit8P (sym : BitVec 8) (s : State) : Host.Outcome State Fault Refusal :=
  .next (firstLiteral (sym.setWidth 16) s)

/-- LIT16.P (R171). -/
def execLit16P (sym : BitVec 16) (s : State) : Host.Outcome State Fault Refusal :=
  .next (firstLiteral sym s)

/-- END.P (R171). -/
def execEndP (s : State) : Host.Outcome State Fault Refusal := .next (endFirst s)

/-- ILLEGAL.P (R253). -/
def execIllegalP (s : State) : Host.Outcome State Fault Refusal := .next (illegalFirst s)

/-- LIT8 (R173): the symbol field is zero-extended (R105). -/
def execLit8 (sym : BitVec 8) (s : State) : Host.Outcome State Fault Refusal :=
  .next (literal (sym.setWidth 16) s)

/-- LIT16 (R174). -/
def execLit16 (sym : BitVec 16) (s : State) : Host.Outcome State Fault Refusal :=
  .next (literal sym s)

/-- END (R175). -/
def execEndTok (s : State) : Host.Outcome State Fault Refusal := .next (endStream s)

/-- REF (R176): the id is the value of CODE. -/
def execRef (id : Nat) (s : State) : Host.Outcome State Fault Refusal := .next (reference id s)

/-- SREF (R178): the id is NEXTID, which the rule's effect does not use. -/
def execSref (_id : Nat) (s : State) : Host.Outcome State Fault Refusal := .next (selfReference s)

/-- ILLEGAL (R179): raises UnknownCode(CODE). -/
def execIllegal (code : Nat) (s : State) : Host.Outcome State Fault Refusal :=
  .next (illegalCode code s)

/-- DINIT (R170). -/
def execDinit (s : State) : Host.Outcome State Fault Refusal := .next (decoderInit s)

/-- DPRO (R171). -/
def execDpro (s : State) : Host.Outcome State Fault Refusal := .next (prologue s)

/-- DSTEP (R172). -/
def execDstep (s : State) : Host.Outcome State Fault Refusal := .next (decodeStep s)

/-- DAPPLY (R177). -/
def execDapply (s : State) : Host.Outcome State Fault Refusal := .next (applyEntry s)

/-- DECODE (R180). -/
def execDecode (s : State) : Host.Outcome State Fault Refusal := .next (decodeStream s)

end Sys2Proof.Machine
end

