-- ==== Sys2Proof/Machine/Command.lean ====
section
/-! DEFINITION. The host commands (44_facade.md): CSTART, COMPRESS, DECOMPRESS. -/

namespace Sys2Proof.Machine

/-- CSTART (R230). -/
def commandStart (s : State) : State :=
  { s with
    out := { s.out with null := false, len := 0, dcause := 0, dinfo := 0 }
    buf := { s.buf with len := 0 } }

/-- ENCRYPT where the cipher is engaged (R231, R233, R216). -/
def encryptIfEngaged (s : State) : State := if cipherEngaged s.port then encryptAll s else s

/-- DECRYPT where the cipher is engaged (R232, R233, R216). -/
def decryptIfEngaged (s : State) : State := if cipherEngaged s.port then decryptAll s else s

/-- `for i in 0 .. BUF_LEN-1: OUT[i] <- BUF[i]`, then `OUT_LEN <- BUF_LEN` (R231). -/
def copyOut (s : State) : State :=
  { s with out := { s.out with mem := memCopy s.buf.len s.buf.mem s.out.mem, len := s.buf.len } }

/-- `for i in 0 .. IN_LEN-1: BUF[i] <- IN[i]`, then `BUF_LEN <- IN_LEN` (R232). -/
def copyIn (s : State) : State :=
  { s with buf := { mem := memCopy s.port.inLen s.port.inp s.buf.mem, len := s.port.inLen } }

/-- The absent input: OUT_NULL <- 1, done (R234). -/
def absentResult (s : State) : State := endCommand { s with out := { s.out with null := true } }

/-- COMPRESS (R231; R236 a to d are properties of it). -/
def compressText (s : State) : State :=
  let s0 := commandStart s
  if s0.port.inNull then absentResult s0
  else if s0.port.inLen = 0 then endCommand s0
  else endCommand (copyOut (encryptIfEngaged (encodeText s0)))

/-- DECOMPRESS (R232; R236 a, b, d, e are properties of it). -/
def decompressText (s : State) : State :=
  let s0 := commandStart s
  if s0.port.inNull then absentResult s0
  else if s0.port.inLen = 0 then endCommand s0
  else decodeStream (decryptIfEngaged (copyIn s0))

/-- CSTART (R230). -/
def execCstart (s : State) : Host.Outcome State Fault Refusal := .next (commandStart s)

/-- COMPRESS (R231). -/
def execCompress (s : State) : Host.Outcome State Fault Refusal := .next (compressText s)

/-- DECOMPRESS (R232). -/
def execDecompress (s : State) : Host.Outcome State Fault Refusal := .next (decompressText s)

end Sys2Proof.Machine
end

