-- ==== Sys2Proof/Machine/Dictionary.lean ====
section
/-! DEFINITION. The dictionary primitives as operations (20_memory.md R84), and the trap entry as one
(60_exceptions.md R256). -/

namespace Sys2Proof.Machine

/-- Insert (R84): gives back the id used. -/
def execInsert (p : Phrase) (pending : Bool) (s : State) : Host.Outcome State Fault Refusal :=
  .next { insertPhrase p pending s with ret := .id s.width.nextId }

/-- Find (R84): gives back an id, or none. -/
def execFind (p : Phrase) (s : State) : Host.Outcome State Fault Refusal :=
  .next { s with ret := .found (dictFind s.dict s.width.nextId p) }

/-- IsPending (R84). -/
def execIsPending (id : Nat) (s : State) : Host.Outcome State Fault Refusal :=
  .next { s with ret := .bit (isPending s.dict id) }

/-- ClearPending (R84). -/
def execClearPending (id : Nat) (s : State) : Host.Outcome State Fault Refusal :=
  .next { s with dict := clearPending s.dict id }

/-- raise (R256). -/
def execRaise (cause : Cause) (info : Nat) (s : State) : Host.Outcome State Fault Refusal :=
  .next (enterTrap cause info s)

end Sys2Proof.Machine
end

