-- ==== Sys2Proof/Machine/Unpacker.lean ====
section
/-! DEFINITION. The Bit Unpacker (40_bitpacker.md section 2): UINIT, READBIT, READ. -/

namespace Sys2Proof.Machine

/-- UINIT (R136): nothing is read yet, the mask starts exhausted. -/
def unpackerInit (s : State) : State :=
  { s with unpacker := { uidx := 0, umask := 0, uval := 0 } }

/-- The value a micro-operation gives back is kept in `ret`; a raise gives none back (R15, log 3). -/
def returning {α : Type} (f : α → Returned) : Res α → State
  | .ok a s => { s with ret := f a }
  | .raised s => s

/-- UINIT (R136). -/
def execUinit (s : State) : Host.Outcome State Fault Refusal := .next (unpackerInit s)

/-- READBIT (R137). -/
def execReadBit (s : State) : Host.Outcome State Fault Refusal :=
  .next (returning Returned.bit (readBit s))

/-- READ (R138). -/
def execRead (width : Nat) (s : State) : Host.Outcome State Fault Refusal :=
  .next (returning Returned.value (readField width s))

end Sys2Proof.Machine
end

