-- ==== Sys2Proof/Machine/Dispatch.lean ====
section
/-! DEFINITION. The meaning of every operation: one arm per row of spec/opcode_table.json. -/

namespace Sys2Proof.Machine

def exec (i : Instr) (s : State) : Host.Outcome State Fault Refusal :=
  match i with
  | .lit8P sym => Sys2Proof.Machine.execLit8P sym s
  | .lit16P sym => Sys2Proof.Machine.execLit16P sym s
  | .endP => Sys2Proof.Machine.execEndP s
  | .illegalP => Sys2Proof.Machine.execIllegalP s
  | .lit8 sym => Sys2Proof.Machine.execLit8 sym s
  | .lit16 sym => Sys2Proof.Machine.execLit16 sym s
  | .endTok => Sys2Proof.Machine.execEndTok s
  | .ref id => Sys2Proof.Machine.execRef id s
  | .sref id => Sys2Proof.Machine.execSref id s
  | .illegal code => Sys2Proof.Machine.execIllegal code s
  | .compress => Sys2Proof.Machine.execCompress s
  | .decompress => Sys2Proof.Machine.execDecompress s
  | .pinit => Sys2Proof.Machine.execPinit s
  | .pushBit b => Sys2Proof.Machine.execPushBit b s
  | .push value width => Sys2Proof.Machine.execPush value width s
  | .flush => Sys2Proof.Machine.execFlush s
  | .uinit => Sys2Proof.Machine.execUinit s
  | .readBit => Sys2Proof.Machine.execReadBit s
  | .read width => Sys2Proof.Machine.execRead width s
  | .einit => Sys2Proof.Machine.execEinit s
  | .tick => Sys2Proof.Machine.execTick s
  | .ereg c => Sys2Proof.Machine.execEreg c s
  | .eemit => Sys2Proof.Machine.execEemit s
  | .esym => Sys2Proof.Machine.execEsym s
  | .efin => Sys2Proof.Machine.execEfin s
  | .encode => Sys2Proof.Machine.execEncode s
  | .dinit => Sys2Proof.Machine.execDinit s
  | .dpro => Sys2Proof.Machine.execDpro s
  | .dstep => Sys2Proof.Machine.execDstep s
  | .dapply => Sys2Proof.Machine.execDapply s
  | .decode => Sys2Proof.Machine.execDecode s
  | .kinc key => Sys2Proof.Machine.execKinc key s
  | .kseed key => Sys2Proof.Machine.execKseed key s
  | .mix r => Sys2Proof.Machine.execMix r s
  | .kstep dir => Sys2Proof.Machine.execKstep dir s
  | .lane r j => Sys2Proof.Machine.execLane r j s
  | .xw index l => Sys2Proof.Machine.execXw index l s
  | .epass key => Sys2Proof.Machine.execEpass key s
  | .dpass key => Sys2Proof.Machine.execDpass key s
  | .encrypt => Sys2Proof.Machine.execEncrypt s
  | .decrypt => Sys2Proof.Machine.execDecrypt s
  | .cstart => Sys2Proof.Machine.execCstart s
  | .insert p pending => Sys2Proof.Machine.execInsert p pending s
  | .find p => Sys2Proof.Machine.execFind p s
  | .isPending id => Sys2Proof.Machine.execIsPending id s
  | .clearPending id => Sys2Proof.Machine.execClearPending id s
  | .raise cause info => Sys2Proof.Machine.execRaise cause info s

end Sys2Proof.Machine
end

