-- ==== Sys2Proof/Machine/Step.lean ====
section
/-! DEFINITION. One step of the block. Idle, it waits for CMD and runs a command as one step (R30, R62);
in the decoder's token stream it runs one token as one step (R16, log 1). -/

namespace Sys2Proof.Machine

/-- A token's outcome with what the iteration adds after it (R172). -/
def retireOutcome (i : Instr) :
    Host.Outcome State Fault Refusal → Host.Outcome State Fault Refusal
  | .next s => .next (retire i s)
  | .fault r => .fault r
  | .refused r => .refused r

/-- A step in the token stream: fetch the token at the cursor, run it, then DAPPLY where it resolves a
phrase. A fetch that raises ends the command (R256). -/
def tokenStep (s : State) : Host.Outcome State Fault Refusal :=
  match fetchToken (tokenCtx s) s with
  | .raised t => .next t
  | .ok i t => retireOutcome i (exec i t)

/-- A step of the idle block: with no CMD pending it fetches nothing (R62). -/
def commandStep (s : State) : Host.Outcome State Fault Refusal :=
  match s.port.cmd with
  | none => .next s
  | some op => exec (decodeCmd op) (takeCmd s)

/-- One step. -/
def step (s : State) : Host.Outcome State Fault Refusal :=
  match s.phase with
  | .idle => commandStep s
  | .firstToken | .laterToken => tokenStep s

/-- `s` with the instruction of a word of the opcode table where the next step fetches it: a write of
CMD pending, or the words of a first token as the stream in BUF with the cursor at its start (log 2). -/
def State.withFetchWord (s : State) (nbits w : Nat) : State :=
  if tableWordIsCmd nbits w then placeCmd w s else placeStream (tableWords nbits w) s

end Sys2Proof.Machine
end

