-- ==== Sys2Proof/Safety.lean ====
section
/-! DEFINITION. The terms the statements use: sequences of operations, the contents of the spaces, wire
words, the mask of a cipher pass, and the invariants of the encoder and of the whole block. -/

namespace Sys2Proof.Machine

/-- Performs operations one after another, as a rule's pseudocode does (R16). -/
def runOps : List Instr → State → Host.Outcome State Fault Refusal
  | [], s => .next s
  | i :: is, s =>
    match exec i s with
    | .next t => runOps is t
    | .fault r => .fault r
    | .refused r => .refused r

/-- The values a sequence of READs gives back and the state after it; none if one of them raises
(a raise gives no value back, R256). -/
def readAll : List Nat → State → Option (List Nat × State)
  | [], s => some ([], s)
  | n :: ns, s =>
    match exec (.read n) { s with ret := .nothing } with
    | .next t =>
      match t.ret with
      | .value v => (readAll ns t).map fun r => (v :: r.1, r.2)
      | _ => none
    | _ => none

/-- `IN[0 .. IN_LEN-1]` (R33). -/
def inUnits (s : State) : List (BitVec 16) := memUnits s.port.inp s.port.inLen

/-- `KEYS[0 .. NKEYS-1]` (R35). -/
def keyList (s : State) : List Key := memUnits s.port.keys s.port.nKeys

/-- The keys ENCRYPT and DECRYPT apply: the key list where the cipher is engaged, none where it is bypassed
(R209, R210, R216). -/
def usedKeys (s : State) : List Key :=
  if s.port.keysNull = false ∧ 0 < s.port.nKeys then keyList s else []

/-- `BUF[0 .. BUF_LEN-1]` (R47). -/
def bufWords (s : State) : List Word := memUnits s.buf.mem s.buf.len

/-- `OUT[0 .. OUT_LEN-1]` (R36). -/
def outUnits (s : State) : List (BitVec 16) := memUnits s.out.mem s.out.len

/-- A word the block may produce (R10 `WIRE_LO`, `WIRE_HI`; R100). -/
abbrev WireRange (w : Word) : Prop := 32 ≤ w.toNat ∧ w.toNat < 32800

/-- UMASK is zero or has exactly one bit set (R40). -/
abbrev MaskWf (m : Payload) : Prop := m = 0 ∨ ∃ k : Fin 15, m = BitVec.twoPow 15 k.val

/-- A cursor into the stream (R40): UMASK marks one bit or none, and none before a word is loaded. -/
abbrev CursorWf (u : Unpacker) : Prop := MaskWf u.umask ∧ (u.uidx = 0 → u.umask = 0)

/-- The state after a raise (R256), from the state it is raised in. -/
def trapped (cause : BitVec 2) (info : Nat) (s : State) : State :=
  { s with
    out := { s.out with dcause := cause, dinfo := info, len := 0, null := false }
    phase := .idle }

/-- The code-width registers after one more id is assigned and one TICK (R84, R151), ENLARGEIN being at
least 1. -/
def widthAfterEntry (c : CodeWidth) : CodeWidth :=
  if c.enlargeIn = 1 then
    { numBits := c.numBits + 1, enlargeIn := 2 ^ c.numBits, nextId := c.nextId + 1 }
  else { numBits := c.numBits, enlargeIn := c.enlargeIn - 1, nextId := c.nextId + 1 }

/-- The mask `M(k, L, i)` of R211. -/
def passMask (k : Key) (len i : Nat) : Payload :=
  let inc : Key := 0x632BE5AB + 0x9E3779BA * k
  if i < 4 * (len / 4) then
    laneOf (Config.mix (k + BitVec.ofNat 64 (i / 4 + 1) * inc)) (Fin.ofNat 4 (i % 4))
  else
    laneOf (Config.mix (k + BitVec.ofNat 64 (len / 4 + 1) * inc))
      (Fin.ofNat 4 (3 - (i - 4 * (len / 4))))

/-- A word with a mask XORed into it between taking the offset off and putting it on (R211). -/
def masked (w : Word) (m : Payload) : Word := ((w - 32) ^^^ m.setWidth 16) + 32

/-- The XOR of the masks of a list of keys at one place (R212 b). -/
def listMask (ks : List Key) (len i : Nat) : Payload :=
  ks.foldl (fun m k => m ^^^ passMask k len i) 0

/-- How many entries of DICT are pending (`P` of R157). -/
def pendingCount (d : Dict) : Nat := (d.filter fun e => e.2.pending).length

/-- The invariant of the encoder between ESYM steps: the code space (R157) and the shape of the
dictionary (R158). -/
structure EncInv (s : State) : Prop where
  numBits_ge : 2 ≤ s.width.numBits
  codeSpace : s.width.nextId + s.width.enlargeIn = 2 ^ s.width.numBits + 1 + pendingCount s.dict
  enlargeIn_pos : 1 ≤ s.width.enlargeIn
  enlargeIn_le : s.width.enlargeIn ≤ 2 ^ (s.width.numBits - 1)
  sorted : TableSorted s.dict
  dense : ∀ id, (tableGet s.dict id).isSome ↔ 3 ≤ id ∧ id < s.width.nextId
  nonempty : ∀ id p, dictPhrase? s.dict id = some p → p ≠ []
  once : ∀ id id' p, dictPhrase? s.dict id = some p → dictPhrase? s.dict id' = some p → id = id'
  prefixes : ∀ id p c, dictPhrase? s.dict id = some (p ++ [c]) → p ≠ [] →
    ∃ id', dictPhrase? s.dict id' = some p
  symbols : ∀ id p c, dictPhrase? s.dict id = some p → c ∈ p →
    ∃ id', dictPhrase? s.dict id' = some [c]
  pendingShape : ∀ id e, tableGet s.dict id = some e → e.pending = true →
    ∃ c, e.phrase = [c] ∧ s.enc.w = [c] ∧
      ∀ id' p, dictPhrase? s.dict id' = some (c :: p) → p = []
  matched : (s.enc.w = [] ∧ s.dict = []) ∨ ∃ id, dictPhrase? s.dict id = some s.enc.w

/-- The invariant of the decoder's main loop (R181). -/
structure LoopInv (s : State) : Prop where
  numBits_ge : 3 ≤ s.width.numBits
  codeSpace : s.width.nextId + s.width.enlargeIn = 2 ^ s.width.numBits
  enlargeIn_pos : 1 ≤ s.width.enlargeIn
  enlargeIn_le : s.width.enlargeIn ≤ 2 ^ (s.width.numBits - 1)
  dense : ∀ id, (tableGet s.dict id).isSome ↔ 3 ≤ id ∧ id < s.width.nextId
  nonempty : ∀ id p, dictPhrase? s.dict id = some p → p ≠ []
  prev_ne : s.dec.prev ≠ []
  out_ends : s.dec.prev <:+ outUnits s

/-- The invariant of the whole block: memories in canonical form, the ranges of the registers (R38 to
R40, R43), the reading of the output registers (R36, R37, R256), and, in the token stream, a cursor
inside it (R40), an output that is present, and the decoder's own invariant (R181). -/
structure StateInv (s : State) : Prop where
  inp_wf : MemWf s.port.inp
  keys_wf : MemWf s.port.keys
  out_wf : MemWf s.out.mem
  buf_wf : MemWf s.buf.mem
  dict_sorted : TableSorted s.dict
  numBits_ge : 2 ≤ s.width.numBits
  enlargeIn_pos : 1 ≤ s.width.enlargeIn
  nextId_ge : 3 ≤ s.width.nextId
  acc_lt : s.packer.acc.toNat < 2 ^ s.packer.pos.val
  cursor : CursorWf s.unpacker
  inc_odd : s.cipher.inc.toNat % 2 = 1
  absent : s.out.null = true → s.out.len = 0
  cause : s.out.dcause ≠ 0 → s.out.len = 0 ∧ s.out.null = false
  running : s.phase ≠ .idle →
    s.out.null = false ∧ s.out.dcause = 0 ∧ s.unpacker.uidx ≤ s.buf.len
  starting : s.phase = .firstToken → s.dict = [] ∧ s.out.len = 0
  looping : s.phase = .laterToken → LoopInv s

end Sys2Proof.Machine
end

