-- ==== Sys2Proof/Certificates/Slice0/Obligations.lean ====
section
/-! DEFINITION. The statements for the provers, from the numbered rules of spec/. Each docstring names
the rule it formalises. -/

open Sys2Proof Sys2Proof.Machine

/-! Encodings. -/

/-- R101: stream bit k is payload bit `14 - (k mod 15)` of word `k div 15`, and a field's value is the
sum of its bits, the first bit being bit 0. -/
def Obligations.StreamBitsAndFieldValues : Prop :=
  (∀ ws : List Word, (streamBits ws).length = 15 * ws.length ∧
    ∀ k, k < 15 * ws.length →
      (streamBits ws)[k]? = (ws[k / 15]?).map fun w => (w - 32).getLsbD (14 - k % 15)) ∧
  ∀ bs : List Bool,
    fieldValue bs = ∑ i ∈ Finset.range bs.length, (bs.getD i false).toNat * 2 ^ i

/-- R102, R103, R105, R109, R114: every token, at every place where it can stand and with every operand
its fields admit, is read back from its own bits, and so is a command from its field of CMD. -/
def Obligations.EncodedInstructionsDecode : Prop :=
  (∀ (ctx : TokenCtx) (i : Instr) (rest : List Bool), i.fits ctx = true →
    ∃ bs, encode ctx i = some bs ∧ decodeToken ctx (bs ++ rest) = .ok (i, rest)) ∧
  ∀ (i : Instr) (op : BitVec 1), encodeCmd i = some op → decodeCmd op = i

/-- R110, R112: whatever is decoded is a token that can stand there, and the bits it was read from are
that token's own; a stream is rejected only where it ends inside a field. -/
def Obligations.DecodedTokensHaveTheirBits : Prop :=
  ∀ (ctx : TokenCtx) (bs : List Bool), 2 ≤ codeWidth ctx →
    match decodeToken ctx bs with
    | .ok (i, rest) =>
      i.fits ctx = true ∧ ∃ own, encode ctx i = some own ∧ bs = own ++ rest
    | .error _ => bs.length < codeWidth ctx + symWidth (fieldValue (bs.take (codeWidth ctx)))

/-- R102, R103, R109: token words written out from the spec (V16, V22, V40, V41, V44, P1) are read as the tokens
they stand for. -/
def Obligations.WrittenWordsDecode : Prop :=
  decodeToken .first [false, false, true, false, false, false, false, true, true, false] =
      .ok (.lit8P 0x61, []) ∧
    decodeToken .first (streamBits [0x4030, 0x0420]) =
      .ok (.lit16P 0x100, [false, true, false] ++ List.replicate 9 false) ∧
    decodeToken .first [false, true] = .ok (.endP, []) ∧
    decodeToken .first [true, true] = .ok (.illegalP, []) ∧
    decodeToken (.later 3 4) [false, false, false, false, true, false, false, false, true, true, false] =
      .ok (.lit8 0x62, []) ∧
    decodeToken (.later 4 9)
      [true, false, false, false, false, false, false, false, false, false, false, false, true, false,
        false, false, false, false, false, false] = .ok (.lit16 0x100, []) ∧
    decodeToken (.later 3 4) [false, true, false] = .ok (.endTok, []) ∧
    decodeToken (.later 3 6) [true, false, true] = .ok (.ref 5, []) ∧
    decodeToken (.later 3 4) [false, false, true] = .ok (.sref 4, []) ∧
    decodeToken (.later 3 4) [true, false, true] = .ok (.illegal 5, [])

/-! The step. -/

/-- R16, R172, R184: where the bits at the cursor decode to a token, a step moves the cursor past
exactly that token's bits, puts its code into CODE, runs it, and adds DAPPLY where it resolves a
phrase; where they do not, the step takes InputExhausted. That the working state R256 discards keeps its last
values then is the model's choice (DESIGN CHOICE, log 7); that tokens run one a step is its reading of R16
(DEDUCED, log 1), and that the fetch reads a token's fields its deduction (DEDUCED, log 16). -/
def Obligations.StepRunsTheDecodedToken : Prop :=
  ∀ s : State, s.phase ≠ .idle → CursorWf s.unpacker →
    match decodeToken (tokenCtx s) (unreadBits s) with
    | .ok (i, rest) => ∃ u code, tokenCode i = some code ∧ CursorWf u ∧
        unreadBits { s with unpacker := u } = rest ∧
        step s = retireOutcome i
          (exec i { s with unpacker := u, dec := { s.dec with code := code } })
    | .error _ => ∃ u d, d.prev = s.dec.prev ∧ d.entry = s.dec.entry ∧ s.buf.len ≤ u.uidx ∧
        (s.unpacker.uidx ≤ s.buf.len → u.uidx = s.buf.len) ∧
        step s = .next (trapped 2 u.uidx { s with unpacker := u, dec := d })

/-- R32, R62: an idle block with a CMD pending consumes it and runs the command as one step; with none
pending it fetches nothing and nothing changes. -/
def Obligations.StepRunsThePendingCommand : Prop :=
  ∀ s : State, s.phase = .idle →
    (∀ op, s.port.cmd = some op →
      step s = exec (if op = 0 then .compress else .decompress)
        { s with port := { s.port with cmd := none } }) ∧
    (s.port.cmd = none → step s = .next s)

/-- R16, R171, R172: a step at the first token is DPRO and a step at a later one is DSTEP. -/
def Obligations.TokenStepsAreTheDecodersMicroOperations : Prop :=
  ∀ s : State, (s.phase = .firstToken → step s = exec .dpro s) ∧
    (s.phase = .laterToken → step s = exec .dstep s)

/-- R16, R180, R183: DECODE as one operation gives the state that DINIT and then one token a step
give, and it ends with the block idle, whatever the words of BUF. -/
def Obligations.DecodeIsTokenStepsToTheEnd : Prop :=
  ∀ s : State, ∃ (s0 t : State) (k : Nat), exec .dinit s = .next s0 ∧
    Sys2Proof.core.run k s0 = .next t ∧ t.phase = .idle ∧ exec .decode s = .next t

/-! Initialisation and reset. -/

/-- R135, R136, R150, R170, R230: what the initialising micro-operations write, and that they write
nothing else. -/
def Obligations.InitialisingOperationsWriteTheirRegisters : Prop :=
  ∀ s : State,
    exec .pinit s = .next { s with packer := { acc := 0, pos := 0 } } ∧
    exec .uinit s = .next { s with unpacker := { uidx := 0, umask := 0, uval := 0 } } ∧
    exec .einit s = .next { s with
      dict := []
      width := { numBits := 2, enlargeIn := 2, nextId := 3 }
      enc := { w := [], scan := 0 }
      packer := { acc := 0, pos := 0 } } ∧
    exec .dinit s = .next { s with
      dict := []
      out := { s.out with len := 0 }
      unpacker := { uidx := 0, umask := 0, uval := 0 }
      phase := .firstToken } ∧
    exec .cstart s = .next { s with
      out := { s.out with null := false, len := 0, dcause := 0, dinfo := 0 }
      buf := { s.buf with len := 0 } }

/-- R61, R280: after hardware reset the block is idle and the output registers are 0. -/
def Obligations.ResetLeavesTheBlockIdle : Prop :=
  State.reset.phase = .idle ∧ State.reset.port.cmd = none ∧ State.reset.out.null = false ∧
    State.reset.out.len = 0 ∧ State.reset.out.dcause = 0 ∧ State.reset.out.dinfo = 0 ∧
    step State.reset = .next State.reset

/-! Packer. -/

/-- R130: PUSHBIT shifts the bit in (losing none, where ACC holds only its POS bits), and the fifteenth
bit sends a word. -/
def Obligations.PushbitShiftsAndSendsAtFifteen : Prop :=
  ∀ (b : Bool) (s : State),
    ∃ acc : Payload, acc.toNat = (2 * s.packer.acc.toNat + b.toNat) % 2 ^ 15 ∧
      (s.packer.acc.toNat < 2 ^ s.packer.pos.val → acc.toNat = 2 * s.packer.acc.toNat + b.toNat) ∧
      (s.packer.pos = 14 → ∃ w : Word, w.toNat = acc.toNat + 32 ∧
        exec (.pushBit b) s = .next { s with
          buf := { mem := memWrite s.buf.mem s.buf.len w, len := s.buf.len + 1 }
          packer := { acc := 0, pos := 0 } }) ∧
      (s.packer.pos ≠ 14 → ∃ p : Fin 15, p.val = s.packer.pos.val + 1 ∧
        exec (.pushBit b) s = .next { s with packer := { acc := acc, pos := p } })

/-- R131: PUSH is PUSHBIT of the value's bits, bit 0 first, whatever bits the value has above. -/
def Obligations.PushIsPushbitsLeastSignificantFirst : Prop :=
  ∀ (value width : Nat) (s : State), ∃ t,
    runOps ((List.range width).map fun i => .pushBit (value.testBit i)) s = .next t ∧
    exec (.push value width) s = .next t

/-- R132: after PINIT and pushes of the bits `bs`, the words sent, POS and ACC are these; nothing but
BUF and the packer is written. -/
def Obligations.PackerLaw : Prop :=
  ∀ (fs : List (Nat × Nat)) (s : State), s.buf.len = 0 →
    let bs := fs.flatMap fun f => fieldBits f.1 f.2
    let n := bs.length
    ∃ t, runOps (.pinit :: fs.map fun f => .push f.1 f.2) s = .next t ∧
      t = { s with buf := t.buf, packer := t.packer } ∧
      t.buf.len = n / 15 ∧
      (∀ j, j < n / 15 → (memRead t.buf.mem j).toNat =
        32 + ∑ i ∈ Finset.range 15, (bs.getD (15 * j + i) false).toNat * 2 ^ (14 - i)) ∧
      t.packer.pos.val = n % 15 ∧
      t.packer.acc.toNat = ∑ i ∈ Finset.range t.packer.pos.val,
        (bs.getD (15 * (n / 15) + i) false).toNat * 2 ^ (t.packer.pos.val - 1 - i)

/-- R133: FLUSH always sends exactly one word, the bits held at the top and zeros below. -/
def Obligations.FlushSendsOneZeroPaddedWord : Prop :=
  ∀ s : State, ∃ w : Word,
    w.toNat = s.packer.acc.toNat * 2 ^ (15 - s.packer.pos.val) % 2 ^ 15 + 32 ∧
    exec .flush s = .next { s with
      buf := { mem := memWrite s.buf.mem s.buf.len w, len := s.buf.len + 1 }
      packer := { acc := 0, pos := 0 } }

/-- R134: a packed stream of N bits has `N div 15 + 1` words, all in the wire range, that carry the
bits and then zeros. -/
def Obligations.PackedStreamLaw : Prop :=
  ∀ (fs : List (Nat × Nat)) (s : State), s.buf.len = 0 →
    let bs := fs.flatMap fun f => fieldBits f.1 f.2
    ∃ t, runOps (.pinit :: (fs.map fun f => .push f.1 f.2) ++ [.flush]) s = .next t ∧
      t.buf.len = bs.length / 15 + 1 ∧
      streamBits (bufWords t) = bs ++ List.replicate (15 - bs.length % 15) false ∧
      ∀ w ∈ bufWords t, WireRange w

/-! Unpacker. -/

/-- R137: READBIT loads a word only when a bit is demanded and the mask is exhausted, takes bit 14 of a
fresh word, and raises InputExhausted(UIDX) where no word is left (R252). That the working state R256 discards
keeps its last values after the raise is the model's choice (DESIGN CHOICE, log 7), as is the port that holds
the value returned (DESIGN CHOICE, log 3). -/
def Obligations.ReadbitRefillsLazily : Prop :=
  ∀ s : State,
    (s.unpacker.umask = 0 → s.buf.len ≤ s.unpacker.uidx →
      exec .readBit s = .next (trapped 2 s.unpacker.uidx s)) ∧
    (s.unpacker.umask = 0 → s.unpacker.uidx < s.buf.len →
      exec .readBit s = .next { s with
        unpacker :=
          { uidx := s.unpacker.uidx + 1
            umask := 0x2000
            uval := memRead s.buf.mem s.unpacker.uidx - 32 }
        ret := .bit ((memRead s.buf.mem s.unpacker.uidx - 32).getLsbD 14) }) ∧
    (s.unpacker.umask ≠ 0 →
      exec .readBit s = .next { s with
        unpacker := { s.unpacker with umask := s.unpacker.umask >>> 1 }
        ret := .bit (decide (s.unpacker.uval &&& s.unpacker.umask.setWidth 16 ≠ 0)) })

/-- R138, R40: READ gives the value of the next field, its first bit being bit 0, and moves the cursor
by its width; where the stream ends inside the field it raises InputExhausted. That the working state R256
discards keeps its last values after the raise is the model's choice (DESIGN CHOICE, log 7), as is the port
that holds the value returned (DESIGN CHOICE, log 3). -/
def Obligations.ReadGivesTheNextField : Prop :=
  ∀ (n : Nat) (s : State), CursorWf s.unpacker →
    (n ≤ (unreadBits s).length → ∃ u, CursorWf u ∧
      exec (.read n) s = .next { s with
        unpacker := u
        ret := .value (fieldValue ((unreadBits s).take n)) } ∧
      unreadBits { s with unpacker := u } = (unreadBits s).drop n ∧
      bitPos u = bitPos s.unpacker + n) ∧
    ((unreadBits s).length < n → ∃ u, u.umask = 0 ∧ s.buf.len ≤ u.uidx ∧
      (s.unpacker.uidx ≤ s.buf.len → u.uidx = s.buf.len) ∧
      exec (.read n) s = .next (trapped 2 u.uidx { s with unpacker := u }))

/-- R139: what was pushed and flushed is read back field by field, raising nothing, and the rest of the
stream is `15 - (N mod 15)` zero bits. -/
def Obligations.ReadingUndoesPushing : Prop :=
  ∀ (fs : List (Nat × Nat)) (s : State), (∀ f ∈ fs, f.1 < 2 ^ f.2) → s.buf.len = 0 →
    let n := (fs.map Prod.snd).sum
    ∃ t u r, runOps (.pinit :: (fs.map fun f => .push f.1 f.2) ++ [.flush, .uinit]) s = .next t ∧
      readAll (fs.map Prod.snd) t = some (fs.map Prod.fst, u) ∧
      u = { t with unpacker := u.unpacker, ret := r } ∧
      unreadBits u = List.replicate (15 - n % 15) false

/-! Dictionary primitives and the encoder. -/

/-- R84: Insert writes one entry at NEXTID and gives its id back; Find gives the least id from 3 below
NEXTID that holds the phrase, or none. The port that holds the value returned is the model's own (DESIGN
CHOICE, log 3). -/
def Obligations.InsertAndFind : Prop :=
  ∀ (p : Phrase) (pending : Bool) (s : State),
    (∃ d, exec (.insert p pending) s = .next { s with
        dict := d
        width := { s.width with nextId := s.width.nextId + 1 }
        ret := .id s.width.nextId } ∧
      ∀ id, tableGet d id =
        if id = s.width.nextId then some { phrase := p, pending := pending }
        else tableGet s.dict id) ∧
    ∃ o, exec (.find p) s = .next { s with ret := .found o } ∧
      (∀ id, o = some id ↔
        3 ≤ id ∧ id < s.width.nextId ∧ dictPhrase? s.dict id = some p ∧
          ∀ j, 3 ≤ j → j < id → dictPhrase? s.dict j ≠ some p) ∧
      (o = none ↔ ∀ id, 3 ≤ id → id < s.width.nextId → dictPhrase? s.dict id ≠ some p)

/-- R84: IsPending reads and ClearPending clears the PENDING bit of an entry; its phrase and every other
entry stay. The port that holds the bit returned is the model's own (DESIGN CHOICE, log 3). -/
def Obligations.PendingBitOfAnEntry : Prop :=
  ∀ (id : Nat) (e : Entry) (s : State), tableGet s.dict id = some e →
    exec (.isPending id) s = .next { s with ret := .bit e.pending } ∧
    ∃ d, exec (.clearPending id) s = .next { s with dict := d } ∧
      ∀ j, tableGet d j =
        if j = id then some { phrase := e.phrase, pending := false } else tableGet s.dict j

/-- R151: TICK counts ENLARGEIN down and, at zero, adds a bit to the width and sets ENLARGEIN to 2 to
the width before the growth. -/
def Obligations.TickGrowsTheWidthAtZero : Prop :=
  ∀ s : State, 1 ≤ s.width.enlargeIn →
    exec .tick s = .next { s with width :=
      if s.width.enlargeIn = 1 then
        { s.width with numBits := s.width.numBits + 1, enlargeIn := 2 ^ s.width.numBits }
      else { s.width with enlargeIn := s.width.enlargeIn - 1 } }

/-- R153: EREG gives a symbol not yet in the dictionary the next code, pending, and changes nothing for
a symbol already there. -/
def Obligations.EregRegistersUnseenSymbols : Prop :=
  ∀ (c : Sym) (s : State),
    ((∀ id, 3 ≤ id → id < s.width.nextId → dictPhrase? s.dict id ≠ some [c]) →
      exec (.ereg c) s = .next { s with
        dict := tableSet s.dict s.width.nextId { phrase := [c], pending := true }
        width := { s.width with nextId := s.width.nextId + 1 } }) ∧
    ((∃ id, 3 ≤ id ∧ id < s.width.nextId ∧ dictPhrase? s.dict id = some [c]) →
      exec (.ereg c) s = .next s)

/-- R152: EEMIT sends a pending symbol as a literal of 8 or 16 bits with two ticks and clears its bit,
and any other phrase as its code with one tick. -/
def Obligations.EemitSendsALiteralOrACode : Prop :=
  ∀ (id : Nat) (e : Entry) (s : State),
    dictFind s.dict s.width.nextId s.enc.w = some id → tableGet s.dict id = some e →
    (∀ c p, s.enc.w = c :: p → e.pending = true → ∃ t,
      runOps
        ((if c.toNat < 256 then [.push 0 s.width.numBits, .push c.toNat 8]
          else [.push 1 s.width.numBits, .push c.toNat 16]) ++
          [.tick, .clearPending id, .tick]) s = .next t ∧
      exec .eemit s = .next t) ∧
    (e.pending = false → ∃ t,
      runOps [.push id s.width.numBits, .tick] s = .next t ∧ exec .eemit s = .next t)

/-- R154: ESYM registers the symbol at SCAN, then extends the match, or emits W, inserts W with the
symbol, and starts a new match with it. That the id Insert gives back reaches no return port is the model's
reading (DESIGN CHOICE, log 3). -/
def Obligations.EsymExtendsOrEmits : Prop :=
  ∀ s : State, ∃ s1,
    exec (.ereg (memRead s.port.inp s.enc.scan))
      { s with enc := { s.enc with scan := s.enc.scan + 1 } } = .next s1 ∧
    (∀ id, dictFind s1.dict s1.width.nextId
        (s.enc.w ++ [memRead s.port.inp s.enc.scan]) = some id →
      exec .esym s = .next { s1 with enc :=
        { s1.enc with w := s.enc.w ++ [memRead s.port.inp s.enc.scan] } }) ∧
    (dictFind s1.dict s1.width.nextId (s.enc.w ++ [memRead s.port.inp s.enc.scan]) = none →
      ∃ t, runOps [.eemit, .insert (s.enc.w ++ [memRead s.port.inp s.enc.scan]) false] s1 = .next t ∧
        exec .esym s = .next { t with
          enc := { t.enc with w := [memRead s.port.inp s.enc.scan] }
          ret := s.ret })

/-- R155: EFIN emits W if it is not empty, sends the code 2 at the width that leaves, and flushes. -/
def Obligations.EfinEmitsEndAndFlushes : Prop :=
  ∀ s : State, ∃ s1 t,
    runOps (if s.enc.w = [] then [] else [.eemit]) s = .next s1 ∧
    runOps [.push 2 s1.width.numBits, .flush] s1 = .next t ∧
    exec .efin s = .next t

/-- R156: ENCODE is EINIT, exactly IN_LEN ESYM steps, and EFIN. -/
def Obligations.EncodeIsOneEsymPerSymbol : Prop :=
  ∀ s : State, ∃ t,
    runOps (.einit :: List.replicate s.port.inLen .esym ++ [.efin]) s = .next t ∧
    exec .encode s = .next t

/-- R157, R158: the code-space equality, the bounds and the shape of the dictionary hold after EINIT and
after every ESYM; a phrase already sent has a code that fits its field, in the EEMIT of an ESYM (after its
EREG) and in that of EFIN; at most two entries are pending inside an ESYM, and after one W is not empty
and is in the dictionary. -/
def Obligations.EncoderInvariantKept : Prop :=
  (∀ s t : State, exec .einit s = .next t → EncInv t) ∧
  ∀ s : State, EncInv s →
    (∀ id e, dictFind s.dict s.width.nextId s.enc.w = some id → tableGet s.dict id = some e →
      e.pending = false → id + s.width.enlargeIn ≤ 2 ^ s.width.numBits) ∧
    (∃ s1, exec (.ereg (memRead s.port.inp s.enc.scan)) s = .next s1 ∧ pendingCount s1.dict ≤ 2 ∧
      ∀ id e, dictFind s1.dict s1.width.nextId s1.enc.w = some id → tableGet s1.dict id = some e →
        e.pending = false → id + s1.width.enlargeIn ≤ 2 ^ s1.width.numBits) ∧
    ∃ t, exec .esym s = .next t ∧ EncInv t ∧ t.enc.w ≠ [] ∧
      dictFind t.dict t.width.nextId t.enc.w ≠ none

/-! Tokens and the decoder. -/

/-- R171, R105: what the tokens of the first place do: a literal (an 8-bit one zero-extended) becomes
entry 3, PREV and the output, and the loop starts at (3, 4, 4); END.P ends the command with the empty
text; a first code of 3 raises BadFirstCode (R253). That entry 3 carries PENDING = 0 is the model's deduction
from R44 (DEDUCED, log 15, unsafe); that the working state R256 discards keeps its last values after the
raise is its choice (DESIGN CHOICE, log 7); the phase is its own field (log 1). -/
def Obligations.FirstTokensStartOrEndTheText : Prop :=
  ∀ s : State,
    (∀ (i : Instr) (c : Sym), i = .lit16P c ∨ (∃ sym : BitVec 8, i = .lit8P sym ∧ c = sym.setWidth 16) →
      exec i s = .next { s with
        dict := tableSet s.dict 3 { phrase := [c], pending := false }
        dec := { s.dec with prev := [c] }
        out := { s.out with mem := memWrite s.out.mem s.out.len c, len := s.out.len + 1 }
        width := { numBits := 3, enlargeIn := 4, nextId := 4 }
        phase := .laterToken }) ∧
    exec .endP s = .next { s with out := { s.out with len := 0 }, phase := .idle } ∧
    exec .illegalP s = .next (trapped 3 3 s)

/-- R171: DPRO reads the first token of the stream and runs it, or raises InputExhausted. That the working
state R256 discards keeps its last values after the raise is the model's choice (DESIGN CHOICE, log 7). -/
def Obligations.DproRunsTheFirstToken : Prop :=
  ∀ s : State, CursorWf s.unpacker →
    match decodeToken .first (unreadBits s) with
    | .ok (i, rest) => ∃ u code t, tokenCode i = some code ∧ CursorWf u ∧
        unreadBits { s with unpacker := u } = rest ∧
        exec i { s with unpacker := u, dec := { s.dec with code := code } } = .next t ∧
        exec .dpro s = .next t
    | .error _ => ∃ u d, d.prev = s.dec.prev ∧ d.entry = s.dec.entry ∧ s.buf.len ≤ u.uidx ∧
        exec .dpro s = .next (trapped 2 u.uidx { s with unpacker := u, dec := d })

/-- R172: DSTEP reads a later token under NUMBITS and NEXTID, runs it, and then DAPPLY where it resolves
a phrase, or raises InputExhausted. That the working state R256 discards keeps its last values after the raise
is the model's choice (DESIGN CHOICE, log 7). -/
def Obligations.DstepRunsALaterToken : Prop :=
  ∀ s : State, CursorWf s.unpacker →
    match decodeToken (.later s.width.numBits s.width.nextId) (unreadBits s) with
    | .ok (i, rest) => ∃ u code t, tokenCode i = some code ∧ CursorWf u ∧
        unreadBits { s with unpacker := u } = rest ∧
        runOps (i :: if resolvesPhrase i then [.dapply] else [])
          { s with unpacker := u, dec := { s.dec with code := code } } = .next t ∧
        exec .dstep s = .next t
    | .error _ => ∃ u d, d.prev = s.dec.prev ∧ d.entry = s.dec.entry ∧ s.buf.len ≤ u.uidx ∧
        exec .dstep s = .next (trapped 2 u.uidx { s with unpacker := u, dec := d })

/-- R173, R174: a later literal installs its symbol under NEXTID, which becomes CODE, ticks once, and
resolves to the symbol; an 8-bit symbol is zero-extended (R105). That the entry carries PENDING = 0 is the
model's deduction from R44 (DEDUCED, log 15, unsafe). -/
def Obligations.LiteralsInstallAnEntry : Prop :=
  ∀ s : State, 1 ≤ s.width.enlargeIn →
    (∀ sym : BitVec 8, exec (.lit8 sym) s = .next { s with
      dict := tableSet s.dict s.width.nextId { phrase := [sym.setWidth 16], pending := false }
      width := widthAfterEntry s.width
      dec := { s.dec with code := s.width.nextId, entry := [sym.setWidth 16] } }) ∧
    (∀ sym : BitVec 16, exec (.lit16 sym) s = .next { s with
      dict := tableSet s.dict s.width.nextId { phrase := [sym], pending := false }
      width := widthAfterEntry s.width
      dec := { s.dec with code := s.width.nextId, entry := [sym] } })

/-- R176, R178: REF resolves to the phrase DICT holds, SREF to the previous phrase and its own first
symbol; neither writes anything but ENTRY. -/
def Obligations.ReferencesResolveAPhrase : Prop :=
  ∀ (s : State) (id : Nat),
    (∀ p, dictPhrase? s.dict id = some p →
      exec (.ref id) s = .next { s with dec := { s.dec with entry := p } }) ∧
    (∀ c p, s.dec.prev = c :: p →
      exec (.sref id) s = .next { s with dec := { s.dec with entry := (c :: p) ++ [c] } })

/-- R177: DAPPLY appends ENTRY to the text, registers PREV with ENTRY's first symbol under NEXTID, ticks
once, and makes ENTRY the previous phrase. That the entry carries PENDING = 0 is the model's deduction from
R44 (DEDUCED, log 15, unsafe). -/
def Obligations.DapplyAppendsAndRegisters : Prop :=
  ∀ (s : State) (c : Sym) (p : Phrase), s.dec.entry = c :: p → 1 ≤ s.width.enlargeIn →
    ∃ m : Mem 16,
      exec .dapply s = .next { s with
        out := { s.out with mem := m, len := s.out.len + (c :: p).length }
        dict := tableSet s.dict s.width.nextId { phrase := s.dec.prev ++ [c], pending := false }
        width := widthAfterEntry s.width
        dec := { s.dec with prev := c :: p } } ∧
      memUnits m (s.out.len + (c :: p).length) = outUnits s ++ (c :: p) ∧
      ∀ i, s.out.len + (c :: p).length ≤ i → memRead m i = memRead s.out.mem i

/-- R175, R179, R251, R256: END ends the command and keeps the text; an unknown code and any raise record
their cause and discard the text. That DICT, PREV, the unpacker and the cipher registers keep their last
values, where R256 says that they are discarded, is the model's choice (DESIGN CHOICE, log 7). -/
def Obligations.EndsAndRaisesEndTheCommand : Prop :=
  ∀ s : State,
    exec .endTok s = .next { s with phase := .idle } ∧
    (∀ code, exec (.illegal code) s = .next (trapped 1 code s)) ∧
    (∀ info, exec (.raise .unknownCode info) s = .next (trapped 1 info s)) ∧
    (∀ info, exec (.raise .inputExhausted info) s = .next (trapped 2 info s)) ∧
    (∀ info, exec (.raise .badFirstCode info) s = .next (trapped 3 info s))

/-- R183, R256: DECODE is total on arbitrary words: it stops at an END with the diagnosis as it was, or
raises one of the three causes and leaves the empty text. -/
def Obligations.DecodeStopsOrRaises : Prop :=
  ∀ s : State, ∃ t, exec .decode s = .next t ∧ t.phase = .idle ∧
    ((t.out.null = s.out.null ∧ t.out.dcause = s.out.dcause ∧ t.out.dinfo = s.out.dinfo) ∨
      (t.out.null = false ∧ t.out.len = 0 ∧
        (t.out.dcause = 1 ∨ t.out.dcause = 2 ∧ t.out.dinfo = s.buf.len ∨
          t.out.dcause = 3 ∧ t.out.dinfo = 3)))

/-- R160, R182: DECODE of the bitstream ENCODE makes of a text that is not empty gives the text back
and raises nothing. -/
def Obligations.DecodeUndoesEncode : Prop :=
  ∀ s : State, 1 ≤ s.port.inLen → s.buf.len = 0 →
    ∃ t u, exec .encode s = .next t ∧ (∀ w ∈ bufWords t, WireRange w) ∧
      exec .decode t = .next u ∧ outUnits u = inUnits s ∧ u.phase = .idle ∧
      u.out.dcause = s.out.dcause ∧ u.out.dinfo = s.out.dinfo

/-- R44 b, R48: no operation but EREG, ESYM and what is made of them sets a PENDING bit: an entry that is
pending after a token or a micro-operation of the decoder was pending before it. -/
def Obligations.DecoderSetsNoPendingBit : Prop :=
  ∀ (i : Instr) (s t : State),
    i ∈ [.endP, .illegalP, .endTok, .dinit, .dpro, .dstep, .dapply, .decode] ∨
      (∃ sym, i = .lit8P sym ∨ i = .lit8 sym) ∨ (∃ sym, i = .lit16P sym ∨ i = .lit16 sym) ∨
      (∃ n, i = .ref n ∨ i = .sref n ∨ i = .illegal n ∨ i = .read n) →
    exec i s = .next t →
    ∀ id e, tableGet t.dict id = some e → e.pending = true → tableGet s.dict id = some e

/-! Cipher. -/

/-- R201, R202, R206: KINC, KSEED and KSTEP, modulo 2^64; the increment is odd for every key. -/
def Obligations.KeystreamRegisters : Prop :=
  ∀ (key : Key) (s : State),
    (∃ inc : Key, inc.toNat = (0x9E3779BA * key.toNat + 0x632BE5AB) % 2 ^ 64 ∧ inc.toNat % 2 = 1 ∧
      exec (.kinc key) s = .next { s with cipher := { s.cipher with inc := inc } }) ∧
    exec (.kseed key) s = .next { s with cipher := { s.cipher with z := key } } ∧
    exec (.kstep .forward) s = .next { s with cipher := { s.cipher with
      z := s.cipher.z + s.cipher.inc, rmix := Config.mix (s.cipher.z + s.cipher.inc) } } ∧
    exec (.kstep .backward) s = .next { s with cipher := { s.cipher with
      z := s.cipher.z - s.cipher.inc, rmix := Config.mix (s.cipher.z - s.cipher.inc) } }

/-- R203, R204: MIX gives the mixed value, by a constant of the model that has no body (DESIGN CHOICE, log 8);
the four lanes are bits 14:0, 29:15, 44:30 and 63:49. The port that holds the value is the model's own (DESIGN
CHOICE, log 3). -/
def Obligations.MixAndLanes : Prop :=
  ∀ (r : Key) (s : State),
    exec (.mix r) s = .next { s with ret := .mixed (Config.mix r) } ∧
    ∀ j : Fin 4, ∃ l : Payload,
      l.toNat = r.toNat / 2 ^ (if j = 3 then 49 else 15 * j.val) % 2 ^ 15 ∧
      exec (.lane r j) s = .next { s with ret := .lane l }

/-- R205: XW changes one word, keeps the wire range and bit 15 under the offset, and undoes itself. -/
def Obligations.XwXorsOneWord : Prop :=
  ∀ (i : Nat) (l : Payload) (s : State), ∃ t u,
    exec (.xw i l) s = .next t ∧ t = { s with buf := { s.buf with mem := t.buf.mem } } ∧
    memRead t.buf.mem i = masked (memRead s.buf.mem i) l ∧
    (∀ j, j ≠ i → memRead t.buf.mem j = memRead s.buf.mem j) ∧
    (WireRange (memRead s.buf.mem i) → WireRange (memRead t.buf.mem i)) ∧
    (memRead t.buf.mem i - 32).getLsbD 15 = (memRead s.buf.mem i - 32).getLsbD 15 ∧
    exec (.xw i l) t = .next u ∧ ∀ j, memRead u.buf.mem j = memRead s.buf.mem j

/-- R211, R207, R208: EPASS and DPASS both XOR the same mask, which depends on key, length and index
alone, into every word; only BUF and the cipher registers are written. -/
def Obligations.PassesXorTheirMask : Prop :=
  ∀ (k : Key) (s : State) (i : Instr), i = .epass k ∨ i = .dpass k →
    ∃ t, exec i s = .next t ∧ t = { s with buf := t.buf, cipher := t.cipher } ∧
      t.buf.len = s.buf.len ∧
      (∀ j, j < s.buf.len →
        memRead t.buf.mem j = masked (memRead s.buf.mem j) (passMask k s.buf.len j)) ∧
      ∀ j, s.buf.len ≤ j → memRead t.buf.mem j = memRead s.buf.mem j

/-- R207, R208, R201: where a pass leaves Z, INC and CI: EPASS ends at `key + S*INC` and CI = L, DPASS at
`key + INC` and CI = 0, with S = ceil(L/4). -/
def Obligations.PassesLeaveTheirAccumulator : Prop :=
  ∀ (k : Key) (s : State), ∃ t u,
    exec (.epass k) s = .next t ∧ exec (.dpass k) s = .next u ∧
    t.cipher.inc = 0x632BE5AB + 0x9E3779BA * k ∧ u.cipher.inc = 0x632BE5AB + 0x9E3779BA * k ∧
    t.cipher.z = k + BitVec.ofNat 64 ((s.buf.len + 3) / 4) * t.cipher.inc ∧
    u.cipher.z = k + u.cipher.inc ∧ t.cipher.ci = s.buf.len ∧ u.cipher.ci = 0 ∧
    t.cipher.ki = s.cipher.ki ∧ u.cipher.ki = s.cipher.ki

/-- R212 b, R209, R210, R216: ENCRYPT and DECRYPT are the same function of BUF: every word takes the XOR of
the masks of all keys, which are none where the cipher is bypassed. -/
def Obligations.EncryptAndDecryptXorAllMasks : Prop :=
  ∀ (s : State) (i : Instr), i = .encrypt ∨ i = .decrypt →
    ∃ t, exec i s = .next t ∧ t = { s with buf := t.buf, cipher := t.cipher } ∧
      t.buf.len = s.buf.len ∧
      (∀ j, j < s.buf.len →
        memRead t.buf.mem j = masked (memRead s.buf.mem j) (listMask (usedKeys s) s.buf.len j)) ∧
      ∀ j, s.buf.len ≤ j → memRead t.buf.mem j = memRead s.buf.mem j

/-- R85, R209, R210, R216: KI moves up by one after each key, so ENCRYPT leaves KI = NKEYS where the cipher is
engaged; where it is bypassed neither ENCRYPT nor DECRYPT writes anything. That KI moves when a key's pass has
ended is the model's choice (DESIGN CHOICE, log 14). -/
def Obligations.EncryptMovesTheKeyIndex : Prop :=
  ∀ s : State, ∃ t u, exec .encrypt s = .next t ∧ exec .decrypt s = .next u ∧
    (s.port.keysNull = true ∨ s.port.nKeys = 0 → t = s ∧ u = s) ∧
    (s.port.keysNull = false → 1 ≤ s.port.nKeys → t.cipher.ki = s.port.nKeys)

/-- R200: DECRYPT after ENCRYPT restores every word, for any words and any key list, and neither changes
the length. -/
def Obligations.DecryptUndoesEncrypt : Prop :=
  ∀ s : State, ∃ t u, exec .encrypt s = .next t ∧ exec .decrypt t = .next u ∧
    t.buf.len = s.buf.len ∧ u.buf.len = s.buf.len ∧
    ∀ j, memRead u.buf.mem j = memRead s.buf.mem j

/-- R212 b: the order of the keys applied does not change the result. -/
def Obligations.KeyOrderDoesNotMatter : Prop :=
  ∀ (s s' : State), s'.buf = s.buf → (usedKeys s').Perm (usedKeys s) →
    ∃ t t', exec .encrypt s = .next t ∧ exec .encrypt s' = .next t' ∧
      ∀ j, memRead t'.buf.mem j = memRead t.buf.mem j

/-! Host commands. -/

/-- R234: with IN_NULL = 1 both commands set OUT_NULL = 1 and OUT_LEN = 0 and touch nothing beyond what
CSTART clears. -/
def Obligations.AbsentInputGivesAbsentOutput : Prop :=
  ∀ (s : State) (i : Instr), i = .compress ∨ i = .decompress → s.port.inNull = true →
    exec i s = .next { s with
      out := { s.out with null := true, len := 0, dcause := 0, dinfo := 0 }
      buf := { s.buf with len := 0 }
      phase := .idle }

/-- R235: with IN_NULL = 0 and IN_LEN = 0 both commands leave OUT_NULL = 0 and OUT_LEN = 0 and touch
nothing beyond what CSTART clears. -/
def Obligations.EmptyInputGivesEmptyOutput : Prop :=
  ∀ (s : State) (i : Instr), i = .compress ∨ i = .decompress → s.port.inNull = false →
    s.port.inLen = 0 →
    exec i s = .next { s with
      out := { s.out with null := false, len := 0, dcause := 0, dinfo := 0 }
      buf := { s.buf with len := 0 }
      phase := .idle }

/-- R231, R233: COMPRESS of a text is CSTART, ENCODE, and ENCRYPT iff `KEYS_NULL = 0 and NKEYS > 0`; then
OUT is BUF. It raises nothing, and every word is in the wire range. -/
def Obligations.CompressEncodesAndEncrypts : Prop :=
  ∀ s : State, s.port.inNull = false → 1 ≤ s.port.inLen →
    ∃ t u, runOps ([.cstart, .encode] ++
        if s.port.keysNull = false ∧ 0 < s.port.nKeys then [.encrypt] else []) s = .next t ∧
      exec .compress s = .next u ∧ output u = some (bufWords t) ∧ 1 ≤ u.out.len ∧
      (∀ w ∈ outUnits u, WireRange w) ∧ u.out.dcause = 0 ∧ u.out.dinfo = 0 ∧
      u = { t with out := u.out, phase := .idle }

/-- R232, R233: DECOMPRESS is CSTART, a copy of IN to BUF, DECRYPT iff `KEYS_NULL = 0 and NKEYS > 0`, and
DECODE. -/
def Obligations.DecompressDecryptsAndDecodes : Prop :=
  ∀ s : State, s.port.inNull = false → 1 ≤ s.port.inLen →
    ∃ s0 m t, exec .cstart s = .next s0 ∧ memUnits m s.port.inLen = inUnits s ∧
      runOps ((if s.port.keysNull = false ∧ 0 < s.port.nKeys then [.decrypt] else []) ++ [.decode])
        { s0 with buf := { mem := m, len := s.port.inLen } } = .next t ∧
      exec .decompress s = .next t ∧ t.phase = .idle

/-- R216: with KEYS_NULL = 1 or NKEYS = 0 no command writes a cipher register, and ENCRYPT and DECRYPT, not
performed there, write nothing at all. -/
def Obligations.BypassWritesNoCipherRegister : Prop :=
  ∀ s : State, s.port.keysNull = true ∨ s.port.nKeys = 0 →
    (∀ (i : Instr) (t : State), i = .compress ∨ i = .decompress → exec i s = .next t →
      t.cipher = s.cipher) ∧
    ∀ i : Instr, i = .encrypt ∨ i = .decrypt → exec i s = .next s

/-- R236 a, b, e: the host compresses any text under any key list, decompresses the result under the
same list, and reads the text back with no corruption detected, whatever MIX is. -/
def Obligations.DecompressUndoesCompress : Prop :=
  ∀ (text : List Sym) (keys : Option (List Key)) (s : State),
    s.phase = .idle → s.port.cmd = none →
    ∃ a b c d, hostStart (some text) keys 0 s = some a ∧ step a = .next b ∧
      hostStart (output b) keys 1 b = some c ∧ step c = .next d ∧
      output d = some text ∧ d.out.dcause = 0

/-- R236 c: the length of a compressed text does not depend on the keys. -/
def Obligations.KeysDoNotChangeTheLength : Prop :=
  ∀ s s' : State, s'.port.inNull = s.port.inNull → inUnits s' = inUnits s →
    ∃ t t', exec .compress s = .next t ∧ exec .compress s' = .next t' ∧ t'.out.len = t.out.len

/-- R50: what a command gives the host depends on its inputs alone (CMD.OP, IN_NULL, IN, KEYS_NULL, KEYS
and MIX), never on an earlier command. -/
def Obligations.ResultDependsOnInputsAlone : Prop :=
  ∀ (s s' : State) (i : Instr), i = .compress ∨ i = .decompress →
    s'.port.inNull = s.port.inNull → s'.port.keysNull = s.port.keysNull →
    (s.port.inNull = false → inUnits s' = inUnits s) →
    (s.port.keysNull = false → keyList s' = keyList s) →
    ∃ t t', exec i s = .next t ∧ exec i s' = .next t' ∧ output t' = output t ∧
      t'.out.dcause = t.out.dcause ∧ t'.out.dinfo = t.out.dinfo

/-! Rules about the whole machine. -/

/-- R34, R35, R45: no operation writes what the host writes. -/
def Obligations.InputsAreNeverWritten : Prop :=
  ∀ (i : Instr) (s t : State), exec i s = .next t → t.port = s.port

/-- R37, R256: DCAUSE and DINFO change only where a command starts, which clears them, or where a raise
sets them, which leaves the empty text and an idle block. -/
def Obligations.OnlyRaisesAndStartsWriteTheCause : Prop :=
  ∀ (i : Instr) (s t : State), exec i s = .next t →
    (t.out.dcause = s.out.dcause ∧ t.out.dinfo = s.out.dinfo) ∨
      (t.out.dcause = 0 ∧ t.out.dinfo = 0 ∧ i ∈ [.compress, .decompress, .cstart]) ∨
      (t.out.dcause ≠ 0 ∧ t.out.len = 0 ∧ t.out.null = false ∧ t.phase = .idle)

/-- The invariant holds after reset (its values for the working state are the model's, log 5). -/
def Obligations.ResetMeetsTheInvariant : Prop := StateInv State.reset

/-- R36 to R40, R43, R181: every step keeps the invariant, from every state that meets it. -/
def Obligations.StepsKeepTheInvariant : Prop :=
  ∀ s t : State, StateInv s → step s = .next t → StateInv t
end

