-- ==== Sys2Proof/Laws/Bits.lean ====
section
/-! SUPPORT. The laws of fields, wire words and stream bits, and of decoding one field. -/

namespace Sys2Proof

/-! Fields (R72). -/

@[simp] theorem fieldBits_length (v n : Nat) : (fieldBits v n).length = n := by simp [fieldBits]

theorem fieldBits_succ (v n : Nat) :
    fieldBits v (n + 1) = v.testBit 0 :: fieldBits (v / 2) n := by
  unfold fieldBits
  rw [List.range_succ_eq_map]
  simp [Nat.testBit_succ]

theorem fieldValue_append (a b : List Bool) :
    fieldValue (a ++ b) = fieldValue a + 2 ^ a.length * fieldValue b := by
  induction a with
  | nil => simp [fieldValue]
  | cons x a ih => simp only [List.cons_append, fieldValue, ih, List.length_cons, pow_succ]; ring

theorem fieldValue_lt (bs : List Bool) : fieldValue bs < 2 ^ bs.length := by
  induction bs with
  | nil => simp [fieldValue]
  | cons b bs ih =>
    simp only [fieldValue, List.length_cons, pow_succ]
    have := b.toNat_le
    omega

/-- A field holds the value pushed into it, less the bits above its width. -/
theorem fieldValue_fieldBits (v n : Nat) : fieldValue (fieldBits v n) = v % 2 ^ n := by
  induction n generalizing v with
  | zero => simp [fieldBits, fieldValue, Nat.mod_one]
  | succ n ih =>
    rw [fieldBits_succ, fieldValue, ih, Nat.pow_succ, Nat.mul_comm, Nat.mul_comm (2 ^ n),
      Nat.mod_mul, Nat.testBit_zero]
    rcases Nat.mod_two_eq_zero_or_one v with h | h <;> simp [h] <;> omega

theorem fieldBits_fieldValue (bs : List Bool) : fieldBits (fieldValue bs) bs.length = bs := by
  induction bs with
  | nil => rfl
  | cons b bs ih =>
    rw [List.length_cons, fieldBits_succ, fieldValue]
    have h1 : (b.toNat + 2 * fieldValue bs) / 2 = fieldValue bs := by
      have := b.toNat_le
      omega
    have h2 : (b.toNat + 2 * fieldValue bs).testBit 0 = b := by
      rw [Nat.testBit_zero]
      cases b <;> simp
    rw [h1, h2, ih]

theorem fieldValue_replicate_false (n : Nat) : fieldValue (List.replicate n false) = 0 := by
  induction n with
  | zero => rfl
  | succ n ih => simp [List.replicate_succ, fieldValue, ih]

theorem fieldValue_testBit (bs : List Bool) (i : Nat) :
    (fieldValue bs).testBit i = bs.getD i false := by
  induction bs generalizing i with
  | nil => simp [fieldValue]
  | cons b bs ih =>
    have hb := b.toNat_le
    cases i with
    | zero => rw [fieldValue, Nat.testBit_zero]; cases b <;> simp
    | succ i =>
      rw [fieldValue, Nat.testBit_succ, show (b.toNat + 2 * fieldValue bs) / 2 = fieldValue bs by omega, ih]
      simp

/-- Reading a field of a stream: its value, and the stream after it. -/
theorem takeField_append (v n : Nat) (rest : List Bool) (h : v < 2 ^ n) :
    takeField n (fieldBits v n ++ rest) = .ok (v, rest) := by
  unfold takeField
  rw [if_pos (by simp), List.take_left' (by simp), List.drop_left' (by simp), fieldValue_fieldBits,
    Nat.mod_eq_of_lt h]

@[simp] theorem takeField_zero (bs : List Bool) : takeField 0 bs = .ok (0, bs) := by
  simp [takeField, fieldValue]

/-! Wire words (R71, R73, R100). -/

theorem stored_toNat (p : Payload) : (stored p).toNat = p.toNat + 32 := by
  unfold stored Config.offset
  have := p.isLt
  rw [BitVec.toNat_add, BitVec.toNat_setWidth, show (32 : BitVec 16).toNat = 32 from rfl]
  omega

/-- Every word the packer stores is in the wire range. -/
theorem stored_range (p : Payload) : 32 ≤ (stored p).toNat ∧ (stored p).toNat < 32800 := by
  rw [stored_toNat]
  have := p.isLt
  omega

@[simp] theorem unstored_stored (p : Payload) : unstored (stored p) = p.setWidth 16 := by
  simp [unstored, stored]

@[simp] theorem wordBits_length (w : Word) : (wordBits w).length = 15 := by
  simp [wordBits, Config.payloadBits]

/-- The stream bits of a stored payload are its bits, the most significant first. -/
theorem wordBits_stored (p : Payload) :
    wordBits (stored p) = (fieldBits p.toNat 15).reverse := by
  apply List.ext_getElem
  · simp
  · intro i h1 h2
    have hi : i < 15 := by simpa using h1
    simp [wordBits, fieldBits, Config.payloadBits, BitVec.getLsbD_setWidth, BitVec.testBit_toNat]
    omega

/-- A stored word of at most 15 bits carries the bits and then zeros (R133). -/
theorem wordBits_stored_fieldValue (bs : List Bool) (h : bs.length = 15) :
    wordBits (stored (BitVec.ofNat 15 (fieldValue bs.reverse))) = bs := by
  have hl : bs.reverse.length = 15 := by simpa using h
  have hv := fieldValue_lt bs.reverse
  rw [hl] at hv
  rw [wordBits_stored, BitVec.toNat_ofNat, Nat.mod_eq_of_lt hv]
  have := fieldBits_fieldValue bs.reverse
  rw [hl] at this
  rw [this, List.reverse_reverse]

theorem wordBits_packWord (bs : List Bool) :
    wordBits (packWord bs) = bs.take 15 ++ List.replicate (15 - bs.length) false := by
  unfold packWord
  apply wordBits_stored_fieldValue
  simp
  omega

@[simp] theorem streamBits_nil : streamBits [] = [] := rfl

@[simp] theorem streamBits_cons (w : Word) (ws : List Word) :
    streamBits (w :: ws) = wordBits w ++ streamBits ws := rfl

@[simp] theorem streamBits_append (a b : List Word) :
    streamBits (a ++ b) = streamBits a ++ streamBits b := by simp [streamBits]

theorem streamBits_length (ws : List Word) : (streamBits ws).length = 15 * ws.length := by
  induction ws with
  | nil => rfl
  | cons w ws ih => simp [ih]; omega

/-! Decoding. -/

theorem symWidth_lit8 : symWidth 0 = 8 := rfl
theorem symWidth_lit16 : symWidth 1 = 16 := rfl

theorem symWidth_of_ge_two {c : Nat} (h : 2 ≤ c) : symWidth c = 0 := by
  unfold symWidth Config.codeLit8 Config.codeLit16
  rw [if_neg (by omega), if_neg (by omega)]

end Sys2Proof
end

