-- ==== Sys2Proof/Laws/Loop.lean ====
section
/-! SUPPORT. Loops and sequences of operations: what a `whileUpTo` keeps, when it has run long enough,
and how `runOps` splits. -/

namespace Sys2Proof.Machine

theorem whileUpTo_of_not {cond : State → Bool} {body : State → State} {s : State}
    (h : cond s = false) (n : Nat) : whileUpTo cond body n s = s := by
  cases n with
  | zero => rfl
  | succ n => simp [whileUpTo, h]

/-- What the body keeps, the loop keeps. -/
theorem whileUpTo_inv {cond : State → Bool} {body : State → State} {P : State → Prop}
    (hb : ∀ s, cond s = true → P s → P (body s)) (n : Nat) (s : State) (h : P s) :
    P (whileUpTo cond body n s) := by
  induction n generalizing s with
  | zero => exact h
  | succ n ih =>
    unfold whileUpTo
    split
    · exact ih _ (hb s ‹_› h)
    · exact h

/-- A loop whose measure falls in every round has ended when the rounds allowed reach the measure. -/
theorem whileUpTo_ends {cond : State → Bool} {body : State → State} {P : State → Prop}
    (μ : State → Nat) (hp : ∀ s, cond s = true → P s → P (body s))
    (hμ : ∀ s, cond s = true → P s → μ (body s) < μ s)
    (n : Nat) (s : State) (h : P s) (hn : μ s ≤ n) :
    cond (whileUpTo cond body n s) = false := by
  induction n generalizing s with
  | zero =>
    unfold whileUpTo
    cases hc : cond s with
    | false => rfl
    | true => have := hμ s hc h; omega
  | succ n ih =>
    unfold whileUpTo
    cases hc : cond s with
    | false => simp [hc]
    | true =>
      have := hμ s hc h
      simpa [hc] using ih _ (hp s hc h) (by omega)

/-- More rounds than a loop needs do not change where it ends. -/
theorem whileUpTo_add {cond : State → Bool} {body : State → State} (m n : Nat) (s : State) :
    whileUpTo cond body (m + n) s = whileUpTo cond body n (whileUpTo cond body m s) := by
  induction m generalizing s with
  | zero => simp [whileUpTo]
  | succ m ih =>
    rw [Nat.add_right_comm]
    cases hc : cond s with
    | false => simp [whileUpTo, hc, whileUpTo_of_not hc]
    | true => simp [whileUpTo, hc, ih]

theorem whileUpTo_eq_iterate {cond : State → Bool} {body : State → State} (n : Nat) (s : State)
    (h : ∀ k, k < n → cond (body^[k] s) = true) : whileUpTo cond body n s = body^[n] s := by
  induction n generalizing s with
  | zero => rfl
  | succ n ih =>
    have h0 : cond s = true := h 0 (by omega)
    rw [whileUpTo, if_pos h0, ih _ fun k hk => h (k + 1) (by omega)]
    rfl

/-! Sequences of operations. -/

@[simp] theorem runOps_nil (s : State) : runOps [] s = .next s := rfl

theorem runOps_cons {i : Instr} {s t : State} (h : exec i s = .next t) (is : List Instr) :
    runOps (i :: is) s = runOps is t := by
  simp [runOps, h]

theorem runOps_append {is : List Instr} {s t : State} (h : runOps is s = .next t) (js : List Instr) :
    runOps (is ++ js) s = runOps js t := by
  induction is generalizing s with
  | nil => cases h; rfl
  | cons i is ih =>
    simp only [runOps, List.cons_append] at h ⊢
    split at h <;> simp_all

/-- Every operation answers a next state. -/
theorem exec_next (i : Instr) (s : State) : ∃ t, exec i s = .next t := by
  cases i <;> exact ⟨_, rfl⟩

theorem runOps_next (is : List Instr) (s : State) : ∃ t, runOps is s = .next t := by
  induction is generalizing s with
  | nil => exact ⟨s, rfl⟩
  | cons i is ih =>
    obtain ⟨t, ht⟩ := exec_next i s
    simpa [runOps, ht] using ih t

end Sys2Proof.Machine
end

