-- ==== Sys2Proof/Laws/Memory.lean ====
section
/-! SUPPORT. The laws of tables, memories and the dictionary: what a read gives after a write, that
every operation keeps the canonical form, and the contents after the copying loops. -/

namespace Sys2Proof.Machine

variable {α : Type} {w : Nat}

/-! Tables. -/

theorem tableGet_tableSet (t : List (Nat × α)) (i j : Nat) (x : α) :
    tableGet (tableSet t i x) j = if j = i then some x else tableGet t j := by
  induction t with
  | nil => simp [tableSet, tableGet, eq_comm]
  | cons e t ih =>
    obtain ⟨k, y⟩ := e
    unfold tableSet
    by_cases h1 : i < k
    · simp [h1, tableGet, eq_comm]
    · by_cases h2 : i = k
      · subst h2
        by_cases h : i = j
        · simp [tableGet, h]
        · simp [tableGet, h, Ne.symm h]
      · simp only [h1, h2, if_false, tableGet, ih]
        by_cases h : k = j
        · subst h; simp [Ne.symm h2]
        · simp [h]

theorem tableGet_tableErase (t : List (Nat × α)) (i j : Nat) :
    tableGet (tableErase t i) j = if j = i then none else tableGet t j := by
  induction t with
  | nil => simp [tableErase, tableGet]
  | cons e t ih =>
    obtain ⟨k, y⟩ := e
    simp only [tableErase] at ih ⊢
    by_cases hk : k = i
    · subst hk
      rw [List.filter_cons_of_neg (by simp), ih]
      by_cases h : j = k
      · simp [h]
      · simp [tableGet, h, Ne.symm h]
    · rw [List.filter_cons_of_pos (by simpa using hk)]
      simp only [tableGet, ih]
      by_cases h : k = j
      · subst h; simp [hk]
      · simp [h]

theorem mem_tableSet {t : List (Nat × α)} {i : Nat} {x : α} {e : Nat × α}
    (h : e ∈ tableSet t i x) : e = (i, x) ∨ e ∈ t := by
  induction t with
  | nil => simpa [tableSet] using h
  | cons f t ih =>
    obtain ⟨k, y⟩ := f
    simp only [tableSet] at h
    split_ifs at h with h1 h2
    · simpa using h
    · simp only [List.mem_cons] at h ⊢
      tauto
    · simp only [List.mem_cons] at h ⊢
      rcases h with h | h
      · exact .inr (.inl h)
      · rcases ih h with h | h
        · exact .inl h
        · exact .inr (.inr h)

theorem tableSet_sorted {t : List (Nat × α)} (i : Nat) (x : α) (h : TableSorted t) :
    TableSorted (tableSet t i x) := by
  induction t with
  | nil => simp [tableSet, TableSorted]
  | cons e t ih =>
    obtain ⟨k, y⟩ := e
    have hc := List.pairwise_cons.mp h
    simp only [tableSet]
    split_ifs with h1 h2
    · refine List.pairwise_cons.mpr ⟨fun e he => ?_, h⟩
      rcases List.mem_cons.mp he with rfl | he
      · exact h1
      · exact Nat.lt_trans h1 (hc.1 e he)
    · subst h2
      exact List.pairwise_cons.mpr ⟨hc.1, hc.2⟩
    · refine List.pairwise_cons.mpr ⟨fun e he => ?_, ih hc.2⟩
      rcases mem_tableSet he with rfl | he
      · change k < i; omega
      · exact hc.1 e he

theorem tableErase_sorted {t : List (Nat × α)} (i : Nat) (h : TableSorted t) :
    TableSorted (tableErase t i) := List.Pairwise.filter _ h

theorem tableGet_eq_some_of_mem {t : List (Nat × α)} (h : TableSorted t) {i : Nat} {x : α}
    (hm : (i, x) ∈ t) : tableGet t i = some x := by
  induction t with
  | nil => cases hm
  | cons e t ih =>
    obtain ⟨k, y⟩ := e
    have hc := List.pairwise_cons.mp h
    rcases List.mem_cons.mp hm with he | hm
    · cases he; simp [tableGet]
    · have : k < i := hc.1 _ hm
      simp only [tableGet]
      rw [if_neg (by omega)]
      exact ih hc.2 hm

theorem mem_of_tableGet_eq_some {t : List (Nat × α)} {i : Nat} {x : α}
    (h : tableGet t i = some x) : (i, x) ∈ t := by
  induction t with
  | nil => simp [tableGet] at h
  | cons e t ih =>
    obtain ⟨k, y⟩ := e
    simp only [tableGet] at h
    split_ifs at h with hk
    · cases h; subst hk; exact List.mem_cons_self
    · exact List.mem_cons_of_mem _ (ih h)

/-! Memories. -/

theorem memRead_memWrite (m : Mem w) (i j : Nat) (v : BitVec w) :
    memRead (memWrite m i v) j = if j = i then v else memRead m j := by
  unfold memRead memWrite
  split_ifs with hv h h
  · simp [tableGet_tableErase, h, hv]
  · simp [tableGet_tableErase, h]
  · simp [tableGet_tableSet, h]
  · simp [tableGet_tableSet, h]

@[simp] theorem memRead_memWrite_same (m : Mem w) (i : Nat) (v : BitVec w) :
    memRead (memWrite m i v) i = v := by simp [memRead_memWrite]

theorem memRead_memWrite_ne (m : Mem w) {i j : Nat} (v : BitVec w) (h : j ≠ i) :
    memRead (memWrite m i v) j = memRead m j := by simp [memRead_memWrite, h]

/-- Every write keeps the canonical form of a memory. -/
theorem memWrite_wf {m : Mem w} (i : Nat) (v : BitVec w) (h : MemWf m) : MemWf (memWrite m i v) := by
  unfold memWrite
  split_ifs with hv
  · exact ⟨tableErase_sorted i h.1, fun e he => h.2 e (List.mem_filter.mp he).1⟩
  · refine ⟨tableSet_sorted i v h.1, fun e he => ?_⟩
    rcases mem_tableSet he with rfl | he
    · exact hv
    · exact h.2 e he

theorem memRead_memWriteFrom (m : Mem w) (i : Nat) (vs : List (BitVec w)) (j : Nat) :
    memRead (memWriteFrom m i vs) j =
      if i ≤ j ∧ j < i + vs.length then vs.getD (j - i) 0 else memRead m j := by
  induction vs generalizing m i with
  | nil => simp only [memWriteFrom, List.length_nil]; rw [if_neg (by omega)]
  | cons v vs ih =>
    simp only [memWriteFrom, ih, memRead_memWrite, List.length_cons]
    by_cases h : j = i
    · subst h
      rw [if_neg (by omega), if_pos rfl, if_pos (by omega)]
      simp
    · by_cases h2 : i + 1 ≤ j ∧ j < i + 1 + vs.length
      · rw [if_pos h2, if_pos (by omega)]
        obtain ⟨d, rfl⟩ : ∃ d, j = i + 1 + d := ⟨j - (i + 1), by omega⟩
        rw [show i + 1 + d - (i + 1) = d by omega, show i + 1 + d - i = d + 1 by omega]
        simp
      · rw [if_neg h2, if_neg h, if_neg (by omega)]

theorem memWriteFrom_wf {m : Mem w} (i : Nat) (vs : List (BitVec w)) (h : MemWf m) :
    MemWf (memWriteFrom m i vs) := by
  induction vs generalizing m i with
  | nil => exact h
  | cons v vs ih => exact ih (i + 1) (memWrite_wf i v h)

@[simp] theorem memUnits_length (m : Mem w) (n : Nat) : (memUnits m n).length = n := by
  simp [memUnits]

theorem memUnits_getElem? (m : Mem w) (n i : Nat) :
    (memUnits m n)[i]? = if i < n then some (memRead m i) else none := by
  unfold memUnits
  split_ifs with h
  · simp [List.getElem?_range h]
  · simp only [List.getElem?_map, Option.map_eq_none_iff]
    exact List.getElem?_eq_none (by simpa using h)

theorem memUnits_succ (m : Mem w) (n : Nat) :
    memUnits m (n + 1) = memUnits m n ++ [memRead m n] := by
  simp [memUnits, List.range_succ]

theorem memUnits_congr {m m' : Mem w} {n : Nat} (h : ∀ i, i < n → memRead m i = memRead m' i) :
    memUnits m n = memUnits m' n :=
  List.map_congr_left fun i hi => h i (List.mem_range.mp hi)

theorem memUnits_eq_iff {m m' : Mem w} {n n' : Nat} :
    memUnits m n = memUnits m' n' ↔ n = n' ∧ ∀ i, i < n → memRead m i = memRead m' i := by
  constructor
  · intro h
    have hn : n = n' := by simpa using congrArg List.length h
    subst hn
    refine ⟨rfl, fun i hi => ?_⟩
    have := congrArg (fun l => l[i]?) h
    simp only [memUnits_getElem?, if_pos hi] at this
    exact Option.some.inj this
  · rintro ⟨rfl, h⟩
    exact memUnits_congr h

/-- Appending a unit at the length extends the contents by it. -/
theorem memUnits_memWrite_succ (m : Mem w) (n : Nat) (v : BitVec w) :
    memUnits (memWrite m n v) (n + 1) = memUnits m n ++ [v] := by
  rw [memUnits_succ, memRead_memWrite_same,
    memUnits_congr fun i hi => memRead_memWrite_ne m v (Nat.ne_of_lt hi)]

theorem memUnits_memWriteFrom (m : Mem w) (vs : List (BitVec w)) :
    memUnits (memWriteFrom m 0 vs) vs.length = vs := by
  apply List.ext_getElem?
  intro i
  rw [memUnits_getElem?]
  split_ifs with h
  · rw [memRead_memWriteFrom, if_pos (by omega)]
    simp [List.getD, h]
  · exact (List.getElem?_eq_none (by omega)).symm

theorem memRead_memCopy (n : Nat) (src dst : Mem w) (j : Nat) :
    memRead (memCopy n src dst) j = if j < n then memRead src j else memRead dst j := by
  unfold memCopy
  induction n with
  | zero => simp
  | succ n ih =>
    rw [List.range_succ, List.foldl_append]
    simp only [List.foldl_cons, List.foldl_nil, memRead_memWrite, ih]
    by_cases h : j = n
    · subst h; simp
    · by_cases h2 : j < n
      · rw [if_neg h, if_pos h2, if_pos (by omega)]
      · rw [if_neg h, if_neg h2, if_neg (by omega)]

theorem memUnits_memCopy (n : Nat) (src dst : Mem w) :
    memUnits (memCopy n src dst) n = memUnits src n :=
  memUnits_congr fun i hi => by rw [memRead_memCopy, if_pos hi]

theorem memCopy_wf (n : Nat) (src : Mem w) {dst : Mem w} (h : MemWf dst) :
    MemWf (memCopy n src dst) := by
  unfold memCopy
  induction n with
  | zero => exact h
  | succ n ih =>
    rw [List.range_succ, List.foldl_append]
    exact memWrite_wf _ _ ih

/-! The output and the buffer. -/

@[simp] theorem appendBuf_len (b : Buffer) (v : Word) : (appendBuf b v).len = b.len + 1 := rfl

theorem appendBuf_units (b : Buffer) (v : Word) :
    memUnits (appendBuf b v).mem (appendBuf b v).len = memUnits b.mem b.len ++ [v] :=
  memUnits_memWrite_succ b.mem b.len v

/-- Everything appending a phrase to OUT does: the length, the contents, and what stays. -/
theorem appendOutAll_spec (o : OutPort) (p : Phrase) :
    ∃ m, appendOutAll o p = { o with mem := m, len := o.len + p.length } ∧
      memUnits m (o.len + p.length) = memUnits o.mem o.len ++ p ∧
      (∀ i, o.len + p.length ≤ i → memRead m i = memRead o.mem i) ∧
      (MemWf o.mem → MemWf m) := by
  induction p generalizing o with
  | nil => exact ⟨o.mem, rfl, by simp, fun _ _ => rfl, id⟩
  | cons c p ih =>
    obtain ⟨m, h1, h2, h3, h4⟩ := ih (appendOut o c)
    refine ⟨m, ?_, ?_, ?_, ?_⟩
    · change appendOutAll (appendOut o c) p = _
      rw [h1]
      simp [appendOut, Nat.add_assoc, Nat.add_comm 1]
    · have : (appendOut o c).len = o.len + 1 := rfl
      rw [this] at h2
      rw [List.length_cons, show o.len + (p.length + 1) = o.len + 1 + p.length by omega, h2]
      change memUnits (memWrite o.mem o.len c) (o.len + 1) ++ p = _
      rw [memUnits_memWrite_succ]
      simp
    · intro i hi
      simp only [List.length_cons] at hi
      rw [h3 i (by change o.len + 1 + p.length ≤ i; omega)]
      exact memRead_memWrite_ne _ _ (by omega)
    · intro h
      exact h4 (memWrite_wf _ _ h)

/-! The dictionary. -/

theorem dictPhrase?_dictWrite (d : Dict) (i : Nat) (p : Phrase) (b : Bool) (j : Nat) :
    dictPhrase? (dictWrite d i p b) j = if j = i then some p else dictPhrase? d j := by
  unfold dictPhrase? dictWrite
  rw [tableGet_tableSet]
  split_ifs <;> rfl

theorem dictPhrase?_nil (j : Nat) : dictPhrase? [] j = none := rfl

theorem dictRead_of_phrase {d : Dict} {i : Nat} {p : Phrase} (h : dictPhrase? d i = some p) :
    dictRead d i = p := by simp [dictRead, h]

/-- Find (R84): the least id from 3 below NEXTID that holds the phrase. -/
theorem dictFind_eq_some_iff (d : Dict) (n : Nat) (p : Phrase) (id : Nat) :
    dictFind d n p = some id ↔
      3 ≤ id ∧ id < n ∧ dictPhrase? d id = some p ∧
        ∀ j, 3 ≤ j → j < id → dictPhrase? d j ≠ some p := by
  unfold dictFind Config.firstId
  rw [List.find?_range'_eq_some]
  simp only [decide_eq_true_eq, List.mem_range'_1, Bool.not_eq_true', decide_eq_false_iff_not]
  constructor
  · rintro ⟨h1, ⟨h2, h3⟩, h4⟩
    exact ⟨h2, by omega, h1, h4⟩
  · rintro ⟨h1, h2, h3, h4⟩
    exact ⟨h3, ⟨h1, by omega⟩, h4⟩

theorem dictFind_eq_none_iff (d : Dict) (n : Nat) (p : Phrase) :
    dictFind d n p = none ↔ ∀ id, 3 ≤ id → id < n → dictPhrase? d id ≠ some p := by
  unfold dictFind Config.firstId
  rw [List.find?_eq_none]
  simp only [decide_eq_true_eq, List.mem_range'_1]
  constructor
  · intro h id h1 h2
    exact h id ⟨h1, by omega⟩
  · intro h id hid
    exact h id hid.1 (by omega)

end Sys2Proof.Machine
end

