-- ==== Sys2Proof/Laws/State.lean ====
section
/-! SUPPORT. What each update of the state leaves in each field: one lemma per field per update, so that
no proof unfolds a record update. -/

namespace Sys2Proof.Machine

/-! `packerInit` -/

@[simp] theorem packerInit_port (s : State) : (packerInit s).port = s.port := rfl
@[simp] theorem packerInit_out (s : State) : (packerInit s).out = s.out := rfl
@[simp] theorem packerInit_buf (s : State) : (packerInit s).buf = s.buf := rfl
@[simp] theorem packerInit_dict (s : State) : (packerInit s).dict = s.dict := rfl
@[simp] theorem packerInit_width (s : State) : (packerInit s).width = s.width := rfl
@[simp] theorem packerInit_packer (s : State) : (packerInit s).packer = { acc := 0, pos := 0 } := rfl
@[simp] theorem packerInit_unpacker (s : State) : (packerInit s).unpacker = s.unpacker := rfl
@[simp] theorem packerInit_enc (s : State) : (packerInit s).enc = s.enc := rfl
@[simp] theorem packerInit_dec (s : State) : (packerInit s).dec = s.dec := rfl
@[simp] theorem packerInit_cipher (s : State) : (packerInit s).cipher = s.cipher := rfl
@[simp] theorem packerInit_phase (s : State) : (packerInit s).phase = s.phase := rfl
@[simp] theorem packerInit_ret (s : State) : (packerInit s).ret = s.ret := rfl

/-! `flushWord` -/

@[simp] theorem flushWord_port (s : State) : (flushWord s).port = s.port := rfl
@[simp] theorem flushWord_out (s : State) : (flushWord s).out = s.out := rfl
@[simp] theorem flushWord_buf (s : State) :
    (flushWord s).buf =
      appendBuf s.buf (stored (s.packer.acc <<< (15 - s.packer.pos.val))) := rfl
@[simp] theorem flushWord_dict (s : State) : (flushWord s).dict = s.dict := rfl
@[simp] theorem flushWord_width (s : State) : (flushWord s).width = s.width := rfl
@[simp] theorem flushWord_packer (s : State) : (flushWord s).packer = { acc := 0, pos := 0 } := rfl
@[simp] theorem flushWord_unpacker (s : State) : (flushWord s).unpacker = s.unpacker := rfl
@[simp] theorem flushWord_enc (s : State) : (flushWord s).enc = s.enc := rfl
@[simp] theorem flushWord_dec (s : State) : (flushWord s).dec = s.dec := rfl
@[simp] theorem flushWord_cipher (s : State) : (flushWord s).cipher = s.cipher := rfl
@[simp] theorem flushWord_phase (s : State) : (flushWord s).phase = s.phase := rfl
@[simp] theorem flushWord_ret (s : State) : (flushWord s).ret = s.ret := rfl

/-! `unpackerInit` -/

@[simp] theorem unpackerInit_port (s : State) : (unpackerInit s).port = s.port := rfl
@[simp] theorem unpackerInit_out (s : State) : (unpackerInit s).out = s.out := rfl
@[simp] theorem unpackerInit_buf (s : State) : (unpackerInit s).buf = s.buf := rfl
@[simp] theorem unpackerInit_dict (s : State) : (unpackerInit s).dict = s.dict := rfl
@[simp] theorem unpackerInit_width (s : State) : (unpackerInit s).width = s.width := rfl
@[simp] theorem unpackerInit_packer (s : State) : (unpackerInit s).packer = s.packer := rfl
@[simp] theorem unpackerInit_unpacker (s : State) :
    (unpackerInit s).unpacker =
      { uidx := 0, umask := 0, uval := 0 } := rfl
@[simp] theorem unpackerInit_enc (s : State) : (unpackerInit s).enc = s.enc := rfl
@[simp] theorem unpackerInit_dec (s : State) : (unpackerInit s).dec = s.dec := rfl
@[simp] theorem unpackerInit_cipher (s : State) : (unpackerInit s).cipher = s.cipher := rfl
@[simp] theorem unpackerInit_phase (s : State) : (unpackerInit s).phase = s.phase := rfl
@[simp] theorem unpackerInit_ret (s : State) : (unpackerInit s).ret = s.ret := rfl

/-! `refill` -/

@[simp] theorem refill_port (s : State) : (refill s).port = s.port := rfl
@[simp] theorem refill_out (s : State) : (refill s).out = s.out := rfl
@[simp] theorem refill_buf (s : State) : (refill s).buf = s.buf := rfl
@[simp] theorem refill_dict (s : State) : (refill s).dict = s.dict := rfl
@[simp] theorem refill_width (s : State) : (refill s).width = s.width := rfl
@[simp] theorem refill_packer (s : State) : (refill s).packer = s.packer := rfl
@[simp] theorem refill_unpacker (s : State) :
    (refill s).unpacker =
      { uval := unstored (memRead s.buf.mem s.unpacker.uidx), uidx := s.unpacker.uidx + 1, umask := 0x4000 } := rfl
@[simp] theorem refill_enc (s : State) : (refill s).enc = s.enc := rfl
@[simp] theorem refill_dec (s : State) : (refill s).dec = s.dec := rfl
@[simp] theorem refill_cipher (s : State) : (refill s).cipher = s.cipher := rfl
@[simp] theorem refill_phase (s : State) : (refill s).phase = s.phase := rfl
@[simp] theorem refill_ret (s : State) : (refill s).ret = s.ret := rfl

/-! `setCode` -/

@[simp] theorem setCode_port (c : Nat) (s : State) : (setCode c s).port = s.port := rfl
@[simp] theorem setCode_out (c : Nat) (s : State) : (setCode c s).out = s.out := rfl
@[simp] theorem setCode_buf (c : Nat) (s : State) : (setCode c s).buf = s.buf := rfl
@[simp] theorem setCode_dict (c : Nat) (s : State) : (setCode c s).dict = s.dict := rfl
@[simp] theorem setCode_width (c : Nat) (s : State) : (setCode c s).width = s.width := rfl
@[simp] theorem setCode_packer (c : Nat) (s : State) : (setCode c s).packer = s.packer := rfl
@[simp] theorem setCode_unpacker (c : Nat) (s : State) : (setCode c s).unpacker = s.unpacker := rfl
@[simp] theorem setCode_enc (c : Nat) (s : State) : (setCode c s).enc = s.enc := rfl
@[simp] theorem setCode_dec (c : Nat) (s : State) : (setCode c s).dec = { s.dec with code := c } := rfl
@[simp] theorem setCode_cipher (c : Nat) (s : State) : (setCode c s).cipher = s.cipher := rfl
@[simp] theorem setCode_phase (c : Nat) (s : State) : (setCode c s).phase = s.phase := rfl
@[simp] theorem setCode_ret (c : Nat) (s : State) : (setCode c s).ret = s.ret := rfl

/-! `insertPhrase` -/

@[simp] theorem insertPhrase_port (p : Phrase) (b : Bool) (s : State) :
    (insertPhrase p b s).port =
      s.port := rfl
@[simp] theorem insertPhrase_out (p : Phrase) (b : Bool) (s : State) :
    (insertPhrase p b s).out =
      s.out := rfl
@[simp] theorem insertPhrase_buf (p : Phrase) (b : Bool) (s : State) :
    (insertPhrase p b s).buf =
      s.buf := rfl
@[simp] theorem insertPhrase_dict (p : Phrase) (b : Bool) (s : State) :
    (insertPhrase p b s).dict =
      dictWrite s.dict s.width.nextId p b := rfl
@[simp] theorem insertPhrase_width (p : Phrase) (b : Bool) (s : State) :
    (insertPhrase p b s).width =
      { s.width with nextId := s.width.nextId + 1 } := rfl
@[simp] theorem insertPhrase_packer (p : Phrase) (b : Bool) (s : State) :
    (insertPhrase p b s).packer =
      s.packer := rfl
@[simp] theorem insertPhrase_unpacker (p : Phrase) (b : Bool) (s : State) :
    (insertPhrase p b s).unpacker =
      s.unpacker := rfl
@[simp] theorem insertPhrase_enc (p : Phrase) (b : Bool) (s : State) :
    (insertPhrase p b s).enc =
      s.enc := rfl
@[simp] theorem insertPhrase_dec (p : Phrase) (b : Bool) (s : State) :
    (insertPhrase p b s).dec =
      s.dec := rfl
@[simp] theorem insertPhrase_cipher (p : Phrase) (b : Bool) (s : State) :
    (insertPhrase p b s).cipher =
      s.cipher := rfl
@[simp] theorem insertPhrase_phase (p : Phrase) (b : Bool) (s : State) :
    (insertPhrase p b s).phase =
      s.phase := rfl
@[simp] theorem insertPhrase_ret (p : Phrase) (b : Bool) (s : State) :
    (insertPhrase p b s).ret =
      s.ret := rfl

/-! `installPhrase` -/

@[simp] theorem installPhrase_port (p : Phrase) (s : State) : (installPhrase p s).port = s.port := rfl
@[simp] theorem installPhrase_out (p : Phrase) (s : State) : (installPhrase p s).out = s.out := rfl
@[simp] theorem installPhrase_buf (p : Phrase) (s : State) : (installPhrase p s).buf = s.buf := rfl
@[simp] theorem installPhrase_dict (p : Phrase) (s : State) :
    (installPhrase p s).dict =
      dictWrite s.dict s.width.nextId p false := rfl
@[simp] theorem installPhrase_width (p : Phrase) (s : State) :
    (installPhrase p s).width =
      { s.width with nextId := s.width.nextId + 1 } := rfl
@[simp] theorem installPhrase_packer (p : Phrase) (s : State) : (installPhrase p s).packer = s.packer := rfl
@[simp] theorem installPhrase_unpacker (p : Phrase) (s : State) :
    (installPhrase p s).unpacker =
      s.unpacker := rfl
@[simp] theorem installPhrase_enc (p : Phrase) (s : State) : (installPhrase p s).enc = s.enc := rfl
@[simp] theorem installPhrase_dec (p : Phrase) (s : State) : (installPhrase p s).dec = s.dec := rfl
@[simp] theorem installPhrase_cipher (p : Phrase) (s : State) : (installPhrase p s).cipher = s.cipher := rfl
@[simp] theorem installPhrase_phase (p : Phrase) (s : State) : (installPhrase p s).phase = s.phase := rfl
@[simp] theorem installPhrase_ret (p : Phrase) (s : State) : (installPhrase p s).ret = s.ret := rfl

/-! `tick` -/

@[simp] theorem tick_port (s : State) : (tick s).port = s.port := rfl
@[simp] theorem tick_out (s : State) : (tick s).out = s.out := rfl
@[simp] theorem tick_buf (s : State) : (tick s).buf = s.buf := rfl
@[simp] theorem tick_dict (s : State) : (tick s).dict = s.dict := rfl
@[simp] theorem tick_width (s : State) : (tick s).width = growth s.width := rfl
@[simp] theorem tick_packer (s : State) : (tick s).packer = s.packer := rfl
@[simp] theorem tick_unpacker (s : State) : (tick s).unpacker = s.unpacker := rfl
@[simp] theorem tick_enc (s : State) : (tick s).enc = s.enc := rfl
@[simp] theorem tick_dec (s : State) : (tick s).dec = s.dec := rfl
@[simp] theorem tick_cipher (s : State) : (tick s).cipher = s.cipher := rfl
@[simp] theorem tick_phase (s : State) : (tick s).phase = s.phase := rfl
@[simp] theorem tick_ret (s : State) : (tick s).ret = s.ret := rfl

/-! `encoderInit` -/

@[simp] theorem encoderInit_port (s : State) : (encoderInit s).port = s.port := rfl
@[simp] theorem encoderInit_out (s : State) : (encoderInit s).out = s.out := rfl
@[simp] theorem encoderInit_buf (s : State) : (encoderInit s).buf = s.buf := rfl
@[simp] theorem encoderInit_dict (s : State) : (encoderInit s).dict = [] := rfl
@[simp] theorem encoderInit_width (s : State) :
    (encoderInit s).width =
      { numBits := 2, enlargeIn := 2, nextId := 3 } := rfl
@[simp] theorem encoderInit_packer (s : State) : (encoderInit s).packer = { acc := 0, pos := 0 } := rfl
@[simp] theorem encoderInit_unpacker (s : State) : (encoderInit s).unpacker = s.unpacker := rfl
@[simp] theorem encoderInit_enc (s : State) : (encoderInit s).enc = { w := [], scan := 0 } := rfl
@[simp] theorem encoderInit_dec (s : State) : (encoderInit s).dec = s.dec := rfl
@[simp] theorem encoderInit_cipher (s : State) : (encoderInit s).cipher = s.cipher := rfl
@[simp] theorem encoderInit_phase (s : State) : (encoderInit s).phase = s.phase := rfl
@[simp] theorem encoderInit_ret (s : State) : (encoderInit s).ret = s.ret := rfl

/-! `decoderInit` -/

@[simp] theorem decoderInit_port (s : State) : (decoderInit s).port = s.port := rfl
@[simp] theorem decoderInit_out (s : State) : (decoderInit s).out = { s.out with len := 0 } := rfl
@[simp] theorem decoderInit_buf (s : State) : (decoderInit s).buf = s.buf := rfl
@[simp] theorem decoderInit_dict (s : State) : (decoderInit s).dict = [] := rfl
@[simp] theorem decoderInit_width (s : State) : (decoderInit s).width = s.width := rfl
@[simp] theorem decoderInit_packer (s : State) : (decoderInit s).packer = s.packer := rfl
@[simp] theorem decoderInit_unpacker (s : State) :
    (decoderInit s).unpacker =
      { uidx := 0, umask := 0, uval := 0 } := rfl
@[simp] theorem decoderInit_enc (s : State) : (decoderInit s).enc = s.enc := rfl
@[simp] theorem decoderInit_dec (s : State) : (decoderInit s).dec = s.dec := rfl
@[simp] theorem decoderInit_cipher (s : State) : (decoderInit s).cipher = s.cipher := rfl
@[simp] theorem decoderInit_phase (s : State) : (decoderInit s).phase = .firstToken := rfl
@[simp] theorem decoderInit_ret (s : State) : (decoderInit s).ret = s.ret := rfl

/-! `firstLiteral` -/

@[simp] theorem firstLiteral_port (c : Sym) (s : State) : (firstLiteral c s).port = s.port := rfl
@[simp] theorem firstLiteral_out (c : Sym) (s : State) : (firstLiteral c s).out = appendOut s.out c := rfl
@[simp] theorem firstLiteral_buf (c : Sym) (s : State) : (firstLiteral c s).buf = s.buf := rfl
@[simp] theorem firstLiteral_dict (c : Sym) (s : State) :
    (firstLiteral c s).dict =
      dictWrite s.dict 3 [c] false := rfl
@[simp] theorem firstLiteral_width (c : Sym) (s : State) :
    (firstLiteral c s).width =
      { numBits := 3, enlargeIn := 4, nextId := 4 } := rfl
@[simp] theorem firstLiteral_packer (c : Sym) (s : State) : (firstLiteral c s).packer = s.packer := rfl
@[simp] theorem firstLiteral_unpacker (c : Sym) (s : State) :
    (firstLiteral c s).unpacker =
      s.unpacker := rfl
@[simp] theorem firstLiteral_enc (c : Sym) (s : State) : (firstLiteral c s).enc = s.enc := rfl
@[simp] theorem firstLiteral_dec (c : Sym) (s : State) :
    (firstLiteral c s).dec =
      { s.dec with prev := [c] } := rfl
@[simp] theorem firstLiteral_cipher (c : Sym) (s : State) : (firstLiteral c s).cipher = s.cipher := rfl
@[simp] theorem firstLiteral_phase (c : Sym) (s : State) : (firstLiteral c s).phase = .laterToken := rfl
@[simp] theorem firstLiteral_ret (c : Sym) (s : State) : (firstLiteral c s).ret = s.ret := rfl

/-! `literal` -/

@[simp] theorem literal_port (c : Sym) (s : State) : (literal c s).port = s.port := rfl
@[simp] theorem literal_out (c : Sym) (s : State) : (literal c s).out = s.out := rfl
@[simp] theorem literal_buf (c : Sym) (s : State) : (literal c s).buf = s.buf := rfl
@[simp] theorem literal_dict (c : Sym) (s : State) :
    (literal c s).dict =
      dictWrite s.dict s.width.nextId [c] false := rfl
@[simp] theorem literal_width (c : Sym) (s : State) :
    (literal c s).width =
      growth { s.width with nextId := s.width.nextId + 1 } := rfl
@[simp] theorem literal_packer (c : Sym) (s : State) : (literal c s).packer = s.packer := rfl
@[simp] theorem literal_unpacker (c : Sym) (s : State) : (literal c s).unpacker = s.unpacker := rfl
@[simp] theorem literal_enc (c : Sym) (s : State) : (literal c s).enc = s.enc := rfl
@[simp] theorem literal_dec (c : Sym) (s : State) :
    (literal c s).dec =
      { s.dec with code := s.width.nextId, entry := [c] } := rfl
@[simp] theorem literal_cipher (c : Sym) (s : State) : (literal c s).cipher = s.cipher := rfl
@[simp] theorem literal_phase (c : Sym) (s : State) : (literal c s).phase = s.phase := rfl
@[simp] theorem literal_ret (c : Sym) (s : State) : (literal c s).ret = s.ret := rfl

/-! `reference` -/

@[simp] theorem reference_port (id : Nat) (s : State) : (reference id s).port = s.port := rfl
@[simp] theorem reference_out (id : Nat) (s : State) : (reference id s).out = s.out := rfl
@[simp] theorem reference_buf (id : Nat) (s : State) : (reference id s).buf = s.buf := rfl
@[simp] theorem reference_dict (id : Nat) (s : State) : (reference id s).dict = s.dict := rfl
@[simp] theorem reference_width (id : Nat) (s : State) : (reference id s).width = s.width := rfl
@[simp] theorem reference_packer (id : Nat) (s : State) : (reference id s).packer = s.packer := rfl
@[simp] theorem reference_unpacker (id : Nat) (s : State) : (reference id s).unpacker = s.unpacker := rfl
@[simp] theorem reference_enc (id : Nat) (s : State) : (reference id s).enc = s.enc := rfl
@[simp] theorem reference_dec (id : Nat) (s : State) :
    (reference id s).dec =
      { s.dec with entry := dictRead s.dict id } := rfl
@[simp] theorem reference_cipher (id : Nat) (s : State) : (reference id s).cipher = s.cipher := rfl
@[simp] theorem reference_phase (id : Nat) (s : State) : (reference id s).phase = s.phase := rfl
@[simp] theorem reference_ret (id : Nat) (s : State) : (reference id s).ret = s.ret := rfl

/-! `selfReference` -/

@[simp] theorem selfReference_port (s : State) : (selfReference s).port = s.port := rfl
@[simp] theorem selfReference_out (s : State) : (selfReference s).out = s.out := rfl
@[simp] theorem selfReference_buf (s : State) : (selfReference s).buf = s.buf := rfl
@[simp] theorem selfReference_dict (s : State) : (selfReference s).dict = s.dict := rfl
@[simp] theorem selfReference_width (s : State) : (selfReference s).width = s.width := rfl
@[simp] theorem selfReference_packer (s : State) : (selfReference s).packer = s.packer := rfl
@[simp] theorem selfReference_unpacker (s : State) : (selfReference s).unpacker = s.unpacker := rfl
@[simp] theorem selfReference_enc (s : State) : (selfReference s).enc = s.enc := rfl
@[simp] theorem selfReference_dec (s : State) :
    (selfReference s).dec =
      { s.dec with entry := s.dec.prev ++ [firstSym s.dec.prev] } := rfl
@[simp] theorem selfReference_cipher (s : State) : (selfReference s).cipher = s.cipher := rfl
@[simp] theorem selfReference_phase (s : State) : (selfReference s).phase = s.phase := rfl
@[simp] theorem selfReference_ret (s : State) : (selfReference s).ret = s.ret := rfl

/-! `applyEntry` -/

@[simp] theorem applyEntry_port (s : State) : (applyEntry s).port = s.port := rfl
@[simp] theorem applyEntry_out (s : State) : (applyEntry s).out = appendOutAll s.out s.dec.entry := rfl
@[simp] theorem applyEntry_buf (s : State) : (applyEntry s).buf = s.buf := rfl
@[simp] theorem applyEntry_dict (s : State) :
    (applyEntry s).dict =
      dictWrite s.dict s.width.nextId (s.dec.prev ++ [firstSym s.dec.entry]) false := rfl
@[simp] theorem applyEntry_width (s : State) :
    (applyEntry s).width =
      growth { s.width with nextId := s.width.nextId + 1 } := rfl
@[simp] theorem applyEntry_packer (s : State) : (applyEntry s).packer = s.packer := rfl
@[simp] theorem applyEntry_unpacker (s : State) : (applyEntry s).unpacker = s.unpacker := rfl
@[simp] theorem applyEntry_enc (s : State) : (applyEntry s).enc = s.enc := rfl
@[simp] theorem applyEntry_dec (s : State) : (applyEntry s).dec = { s.dec with prev := s.dec.entry } := rfl
@[simp] theorem applyEntry_cipher (s : State) : (applyEntry s).cipher = s.cipher := rfl
@[simp] theorem applyEntry_phase (s : State) : (applyEntry s).phase = s.phase := rfl
@[simp] theorem applyEntry_ret (s : State) : (applyEntry s).ret = s.ret := rfl

/-! `endCommand` -/

@[simp] theorem endCommand_port (s : State) : (endCommand s).port = s.port := rfl
@[simp] theorem endCommand_out (s : State) : (endCommand s).out = s.out := rfl
@[simp] theorem endCommand_buf (s : State) : (endCommand s).buf = s.buf := rfl
@[simp] theorem endCommand_dict (s : State) : (endCommand s).dict = s.dict := rfl
@[simp] theorem endCommand_width (s : State) : (endCommand s).width = s.width := rfl
@[simp] theorem endCommand_packer (s : State) : (endCommand s).packer = s.packer := rfl
@[simp] theorem endCommand_unpacker (s : State) : (endCommand s).unpacker = s.unpacker := rfl
@[simp] theorem endCommand_enc (s : State) : (endCommand s).enc = s.enc := rfl
@[simp] theorem endCommand_dec (s : State) : (endCommand s).dec = s.dec := rfl
@[simp] theorem endCommand_cipher (s : State) : (endCommand s).cipher = s.cipher := rfl
@[simp] theorem endCommand_phase (s : State) : (endCommand s).phase = .idle := rfl
@[simp] theorem endCommand_ret (s : State) : (endCommand s).ret = s.ret := rfl

/-! `enterTrap` -/

@[simp] theorem enterTrap_port (c : Cause) (n : Nat) (s : State) : (enterTrap c n s).port = s.port := rfl
@[simp] theorem enterTrap_out (c : Cause) (n : Nat) (s : State) :
    (enterTrap c n s).out =
      { s.out with dcause := Cause.number c, dinfo := n, len := 0, null := false } := rfl
@[simp] theorem enterTrap_buf (c : Cause) (n : Nat) (s : State) : (enterTrap c n s).buf = s.buf := rfl
@[simp] theorem enterTrap_dict (c : Cause) (n : Nat) (s : State) : (enterTrap c n s).dict = s.dict := rfl
@[simp] theorem enterTrap_width (c : Cause) (n : Nat) (s : State) : (enterTrap c n s).width = s.width := rfl
@[simp] theorem enterTrap_packer (c : Cause) (n : Nat) (s : State) :
    (enterTrap c n s).packer =
      s.packer := rfl
@[simp] theorem enterTrap_unpacker (c : Cause) (n : Nat) (s : State) :
    (enterTrap c n s).unpacker =
      s.unpacker := rfl
@[simp] theorem enterTrap_enc (c : Cause) (n : Nat) (s : State) : (enterTrap c n s).enc = s.enc := rfl
@[simp] theorem enterTrap_dec (c : Cause) (n : Nat) (s : State) : (enterTrap c n s).dec = s.dec := rfl
@[simp] theorem enterTrap_cipher (c : Cause) (n : Nat) (s : State) :
    (enterTrap c n s).cipher =
      s.cipher := rfl
@[simp] theorem enterTrap_phase (c : Cause) (n : Nat) (s : State) : (enterTrap c n s).phase = .idle := rfl
@[simp] theorem enterTrap_ret (c : Cause) (n : Nat) (s : State) : (enterTrap c n s).ret = s.ret := rfl

/-! `selectKey` -/

@[simp] theorem selectKey_port (k : Nat) (s : State) : (selectKey k s).port = s.port := rfl
@[simp] theorem selectKey_out (k : Nat) (s : State) : (selectKey k s).out = s.out := rfl
@[simp] theorem selectKey_buf (k : Nat) (s : State) : (selectKey k s).buf = s.buf := rfl
@[simp] theorem selectKey_dict (k : Nat) (s : State) : (selectKey k s).dict = s.dict := rfl
@[simp] theorem selectKey_width (k : Nat) (s : State) : (selectKey k s).width = s.width := rfl
@[simp] theorem selectKey_packer (k : Nat) (s : State) : (selectKey k s).packer = s.packer := rfl
@[simp] theorem selectKey_unpacker (k : Nat) (s : State) : (selectKey k s).unpacker = s.unpacker := rfl
@[simp] theorem selectKey_enc (k : Nat) (s : State) : (selectKey k s).enc = s.enc := rfl
@[simp] theorem selectKey_dec (k : Nat) (s : State) : (selectKey k s).dec = s.dec := rfl
@[simp] theorem selectKey_cipher (k : Nat) (s : State) :
    (selectKey k s).cipher =
      { s.cipher with ki := k } := rfl
@[simp] theorem selectKey_phase (k : Nat) (s : State) : (selectKey k s).phase = s.phase := rfl
@[simp] theorem selectKey_ret (k : Nat) (s : State) : (selectKey k s).ret = s.ret := rfl

/-! `advanceKey` -/

@[simp] theorem advanceKey_port (s : State) : (advanceKey s).port = s.port := rfl
@[simp] theorem advanceKey_out (s : State) : (advanceKey s).out = s.out := rfl
@[simp] theorem advanceKey_buf (s : State) : (advanceKey s).buf = s.buf := rfl
@[simp] theorem advanceKey_dict (s : State) : (advanceKey s).dict = s.dict := rfl
@[simp] theorem advanceKey_width (s : State) : (advanceKey s).width = s.width := rfl
@[simp] theorem advanceKey_packer (s : State) : (advanceKey s).packer = s.packer := rfl
@[simp] theorem advanceKey_unpacker (s : State) : (advanceKey s).unpacker = s.unpacker := rfl
@[simp] theorem advanceKey_enc (s : State) : (advanceKey s).enc = s.enc := rfl
@[simp] theorem advanceKey_dec (s : State) : (advanceKey s).dec = s.dec := rfl
@[simp] theorem advanceKey_cipher (s : State) :
    (advanceKey s).cipher =
      { s.cipher with ki := s.cipher.ki + 1 } := rfl
@[simp] theorem advanceKey_phase (s : State) : (advanceKey s).phase = s.phase := rfl
@[simp] theorem advanceKey_ret (s : State) : (advanceKey s).ret = s.ret := rfl

/-! `retreatKey` -/

@[simp] theorem retreatKey_port (s : State) : (retreatKey s).port = s.port := rfl
@[simp] theorem retreatKey_out (s : State) : (retreatKey s).out = s.out := rfl
@[simp] theorem retreatKey_buf (s : State) : (retreatKey s).buf = s.buf := rfl
@[simp] theorem retreatKey_dict (s : State) : (retreatKey s).dict = s.dict := rfl
@[simp] theorem retreatKey_width (s : State) : (retreatKey s).width = s.width := rfl
@[simp] theorem retreatKey_packer (s : State) : (retreatKey s).packer = s.packer := rfl
@[simp] theorem retreatKey_unpacker (s : State) : (retreatKey s).unpacker = s.unpacker := rfl
@[simp] theorem retreatKey_enc (s : State) : (retreatKey s).enc = s.enc := rfl
@[simp] theorem retreatKey_dec (s : State) : (retreatKey s).dec = s.dec := rfl
@[simp] theorem retreatKey_cipher (s : State) :
    (retreatKey s).cipher =
      { s.cipher with ki := keyBelow s.cipher.ki } := rfl
@[simp] theorem retreatKey_phase (s : State) : (retreatKey s).phase = s.phase := rfl
@[simp] theorem retreatKey_ret (s : State) : (retreatKey s).ret = s.ret := rfl

/-! `encryptGroup` -/

@[simp] theorem encryptGroup_port (s : State) : (encryptGroup s).port = s.port := rfl
@[simp] theorem encryptGroup_out (s : State) : (encryptGroup s).out = s.out := rfl
@[simp] theorem encryptGroup_buf (s : State) :
    (encryptGroup s).buf =
      xorWords s.cipher.ci (keyStep .forward s.cipher).rmix groupLane [0, 1, 2, 3] s.buf := rfl
@[simp] theorem encryptGroup_dict (s : State) : (encryptGroup s).dict = s.dict := rfl
@[simp] theorem encryptGroup_width (s : State) : (encryptGroup s).width = s.width := rfl
@[simp] theorem encryptGroup_packer (s : State) : (encryptGroup s).packer = s.packer := rfl
@[simp] theorem encryptGroup_unpacker (s : State) : (encryptGroup s).unpacker = s.unpacker := rfl
@[simp] theorem encryptGroup_enc (s : State) : (encryptGroup s).enc = s.enc := rfl
@[simp] theorem encryptGroup_dec (s : State) : (encryptGroup s).dec = s.dec := rfl
@[simp] theorem encryptGroup_cipher (s : State) :
    (encryptGroup s).cipher =
      { keyStep .forward s.cipher with ci := s.cipher.ci + 4 } := rfl
@[simp] theorem encryptGroup_phase (s : State) : (encryptGroup s).phase = s.phase := rfl
@[simp] theorem encryptGroup_ret (s : State) : (encryptGroup s).ret = s.ret := rfl

/-! `decryptGroup` -/

@[simp] theorem decryptGroup_port (s : State) : (decryptGroup s).port = s.port := rfl
@[simp] theorem decryptGroup_out (s : State) : (decryptGroup s).out = s.out := rfl
@[simp] theorem decryptGroup_buf (s : State) :
    (decryptGroup s).buf =
      xorWords (s.cipher.ci - 4) (keyStep .backward s.cipher).rmix groupLane [3, 2, 1, 0] s.buf := rfl
@[simp] theorem decryptGroup_dict (s : State) : (decryptGroup s).dict = s.dict := rfl
@[simp] theorem decryptGroup_width (s : State) : (decryptGroup s).width = s.width := rfl
@[simp] theorem decryptGroup_packer (s : State) : (decryptGroup s).packer = s.packer := rfl
@[simp] theorem decryptGroup_unpacker (s : State) : (decryptGroup s).unpacker = s.unpacker := rfl
@[simp] theorem decryptGroup_enc (s : State) : (decryptGroup s).enc = s.enc := rfl
@[simp] theorem decryptGroup_dec (s : State) : (decryptGroup s).dec = s.dec := rfl
@[simp] theorem decryptGroup_cipher (s : State) :
    (decryptGroup s).cipher =
      { keyStep .backward s.cipher with ci := s.cipher.ci - 4 } := rfl
@[simp] theorem decryptGroup_phase (s : State) : (decryptGroup s).phase = s.phase := rfl
@[simp] theorem decryptGroup_ret (s : State) : (decryptGroup s).ret = s.ret := rfl

/-! `takeCmd` -/

@[simp] theorem takeCmd_port (s : State) : (takeCmd s).port = { s.port with cmd := none } := rfl
@[simp] theorem takeCmd_out (s : State) : (takeCmd s).out = s.out := rfl
@[simp] theorem takeCmd_buf (s : State) : (takeCmd s).buf = s.buf := rfl
@[simp] theorem takeCmd_dict (s : State) : (takeCmd s).dict = s.dict := rfl
@[simp] theorem takeCmd_width (s : State) : (takeCmd s).width = s.width := rfl
@[simp] theorem takeCmd_packer (s : State) : (takeCmd s).packer = s.packer := rfl
@[simp] theorem takeCmd_unpacker (s : State) : (takeCmd s).unpacker = s.unpacker := rfl
@[simp] theorem takeCmd_enc (s : State) : (takeCmd s).enc = s.enc := rfl
@[simp] theorem takeCmd_dec (s : State) : (takeCmd s).dec = s.dec := rfl
@[simp] theorem takeCmd_cipher (s : State) : (takeCmd s).cipher = s.cipher := rfl
@[simp] theorem takeCmd_phase (s : State) : (takeCmd s).phase = s.phase := rfl
@[simp] theorem takeCmd_ret (s : State) : (takeCmd s).ret = s.ret := rfl

/-! `commandStart` -/

@[simp] theorem commandStart_port (s : State) : (commandStart s).port = s.port := rfl
@[simp] theorem commandStart_out (s : State) :
    (commandStart s).out =
      { s.out with null := false, len := 0, dcause := 0, dinfo := 0 } := rfl
@[simp] theorem commandStart_buf (s : State) : (commandStart s).buf = { s.buf with len := 0 } := rfl
@[simp] theorem commandStart_dict (s : State) : (commandStart s).dict = s.dict := rfl
@[simp] theorem commandStart_width (s : State) : (commandStart s).width = s.width := rfl
@[simp] theorem commandStart_packer (s : State) : (commandStart s).packer = s.packer := rfl
@[simp] theorem commandStart_unpacker (s : State) : (commandStart s).unpacker = s.unpacker := rfl
@[simp] theorem commandStart_enc (s : State) : (commandStart s).enc = s.enc := rfl
@[simp] theorem commandStart_dec (s : State) : (commandStart s).dec = s.dec := rfl
@[simp] theorem commandStart_cipher (s : State) : (commandStart s).cipher = s.cipher := rfl
@[simp] theorem commandStart_phase (s : State) : (commandStart s).phase = s.phase := rfl
@[simp] theorem commandStart_ret (s : State) : (commandStart s).ret = s.ret := rfl

/-! `copyOut` -/

@[simp] theorem copyOut_port (s : State) : (copyOut s).port = s.port := rfl
@[simp] theorem copyOut_out (s : State) :
    (copyOut s).out =
      { s.out with mem := memCopy s.buf.len s.buf.mem s.out.mem, len := s.buf.len } := rfl
@[simp] theorem copyOut_buf (s : State) : (copyOut s).buf = s.buf := rfl
@[simp] theorem copyOut_dict (s : State) : (copyOut s).dict = s.dict := rfl
@[simp] theorem copyOut_width (s : State) : (copyOut s).width = s.width := rfl
@[simp] theorem copyOut_packer (s : State) : (copyOut s).packer = s.packer := rfl
@[simp] theorem copyOut_unpacker (s : State) : (copyOut s).unpacker = s.unpacker := rfl
@[simp] theorem copyOut_enc (s : State) : (copyOut s).enc = s.enc := rfl
@[simp] theorem copyOut_dec (s : State) : (copyOut s).dec = s.dec := rfl
@[simp] theorem copyOut_cipher (s : State) : (copyOut s).cipher = s.cipher := rfl
@[simp] theorem copyOut_phase (s : State) : (copyOut s).phase = s.phase := rfl
@[simp] theorem copyOut_ret (s : State) : (copyOut s).ret = s.ret := rfl

/-! `copyIn` -/

@[simp] theorem copyIn_port (s : State) : (copyIn s).port = s.port := rfl
@[simp] theorem copyIn_out (s : State) : (copyIn s).out = s.out := rfl
@[simp] theorem copyIn_buf (s : State) :
    (copyIn s).buf =
      { mem := memCopy s.port.inLen s.port.inp s.buf.mem, len := s.port.inLen } := rfl
@[simp] theorem copyIn_dict (s : State) : (copyIn s).dict = s.dict := rfl
@[simp] theorem copyIn_width (s : State) : (copyIn s).width = s.width := rfl
@[simp] theorem copyIn_packer (s : State) : (copyIn s).packer = s.packer := rfl
@[simp] theorem copyIn_unpacker (s : State) : (copyIn s).unpacker = s.unpacker := rfl
@[simp] theorem copyIn_enc (s : State) : (copyIn s).enc = s.enc := rfl
@[simp] theorem copyIn_dec (s : State) : (copyIn s).dec = s.dec := rfl
@[simp] theorem copyIn_cipher (s : State) : (copyIn s).cipher = s.cipher := rfl
@[simp] theorem copyIn_phase (s : State) : (copyIn s).phase = s.phase := rfl
@[simp] theorem copyIn_ret (s : State) : (copyIn s).ret = s.ret := rfl

/-! `absentResult` -/

@[simp] theorem absentResult_port (s : State) : (absentResult s).port = s.port := rfl
@[simp] theorem absentResult_out (s : State) : (absentResult s).out = { s.out with null := true } := rfl
@[simp] theorem absentResult_buf (s : State) : (absentResult s).buf = s.buf := rfl
@[simp] theorem absentResult_dict (s : State) : (absentResult s).dict = s.dict := rfl
@[simp] theorem absentResult_width (s : State) : (absentResult s).width = s.width := rfl
@[simp] theorem absentResult_packer (s : State) : (absentResult s).packer = s.packer := rfl
@[simp] theorem absentResult_unpacker (s : State) : (absentResult s).unpacker = s.unpacker := rfl
@[simp] theorem absentResult_enc (s : State) : (absentResult s).enc = s.enc := rfl
@[simp] theorem absentResult_dec (s : State) : (absentResult s).dec = s.dec := rfl
@[simp] theorem absentResult_cipher (s : State) : (absentResult s).cipher = s.cipher := rfl
@[simp] theorem absentResult_phase (s : State) : (absentResult s).phase = .idle := rfl
@[simp] theorem absentResult_ret (s : State) : (absentResult s).ret = s.ret := rfl

/-! Pushes write BUF and the packer alone. -/

@[simp] theorem pushBit_port (b : Bool) (s : State) : (pushBit s b).port = s.port := by
  unfold pushBit; split <;> rfl
@[simp] theorem pushBit_out (b : Bool) (s : State) : (pushBit s b).out = s.out := by
  unfold pushBit; split <;> rfl
@[simp] theorem pushBit_dict (b : Bool) (s : State) : (pushBit s b).dict = s.dict := by
  unfold pushBit; split <;> rfl
@[simp] theorem pushBit_width (b : Bool) (s : State) : (pushBit s b).width = s.width := by
  unfold pushBit; split <;> rfl
@[simp] theorem pushBit_unpacker (b : Bool) (s : State) : (pushBit s b).unpacker = s.unpacker := by
  unfold pushBit; split <;> rfl
@[simp] theorem pushBit_enc (b : Bool) (s : State) : (pushBit s b).enc = s.enc := by
  unfold pushBit; split <;> rfl
@[simp] theorem pushBit_dec (b : Bool) (s : State) : (pushBit s b).dec = s.dec := by
  unfold pushBit; split <;> rfl
@[simp] theorem pushBit_cipher (b : Bool) (s : State) : (pushBit s b).cipher = s.cipher := by
  unfold pushBit; split <;> rfl
@[simp] theorem pushBit_phase (b : Bool) (s : State) : (pushBit s b).phase = s.phase := by
  unfold pushBit; split <;> rfl
@[simp] theorem pushBit_ret (b : Bool) (s : State) : (pushBit s b).ret = s.ret := by
  unfold pushBit; split <;> rfl

@[simp] theorem pushBits_port (bs : List Bool) (s : State) : (pushBits bs s).port = s.port := by
  induction bs generalizing s with
  | nil => rfl
  | cons b bs ih => exact (ih _).trans (pushBit_port b s)
@[simp] theorem pushBits_out (bs : List Bool) (s : State) : (pushBits bs s).out = s.out := by
  induction bs generalizing s with
  | nil => rfl
  | cons b bs ih => exact (ih _).trans (pushBit_out b s)
@[simp] theorem pushBits_dict (bs : List Bool) (s : State) : (pushBits bs s).dict = s.dict := by
  induction bs generalizing s with
  | nil => rfl
  | cons b bs ih => exact (ih _).trans (pushBit_dict b s)
@[simp] theorem pushBits_width (bs : List Bool) (s : State) : (pushBits bs s).width = s.width := by
  induction bs generalizing s with
  | nil => rfl
  | cons b bs ih => exact (ih _).trans (pushBit_width b s)
@[simp] theorem pushBits_unpacker (bs : List Bool) (s : State) : (pushBits bs s).unpacker = s.unpacker := by
  induction bs generalizing s with
  | nil => rfl
  | cons b bs ih => exact (ih _).trans (pushBit_unpacker b s)
@[simp] theorem pushBits_enc (bs : List Bool) (s : State) : (pushBits bs s).enc = s.enc := by
  induction bs generalizing s with
  | nil => rfl
  | cons b bs ih => exact (ih _).trans (pushBit_enc b s)
@[simp] theorem pushBits_dec (bs : List Bool) (s : State) : (pushBits bs s).dec = s.dec := by
  induction bs generalizing s with
  | nil => rfl
  | cons b bs ih => exact (ih _).trans (pushBit_dec b s)
@[simp] theorem pushBits_cipher (bs : List Bool) (s : State) : (pushBits bs s).cipher = s.cipher := by
  induction bs generalizing s with
  | nil => rfl
  | cons b bs ih => exact (ih _).trans (pushBit_cipher b s)
@[simp] theorem pushBits_phase (bs : List Bool) (s : State) : (pushBits bs s).phase = s.phase := by
  induction bs generalizing s with
  | nil => rfl
  | cons b bs ih => exact (ih _).trans (pushBit_phase b s)
@[simp] theorem pushBits_ret (bs : List Bool) (s : State) : (pushBits bs s).ret = s.ret := by
  induction bs generalizing s with
  | nil => rfl
  | cons b bs ih => exact (ih _).trans (pushBit_ret b s)

@[simp] theorem pushField_port (v n : Nat) (s : State) : (pushField v n s).port = s.port :=
  pushBits_port _ s
@[simp] theorem pushField_out (v n : Nat) (s : State) : (pushField v n s).out = s.out :=
  pushBits_out _ s
@[simp] theorem pushField_dict (v n : Nat) (s : State) : (pushField v n s).dict = s.dict :=
  pushBits_dict _ s
@[simp] theorem pushField_width (v n : Nat) (s : State) : (pushField v n s).width = s.width :=
  pushBits_width _ s
@[simp] theorem pushField_unpacker (v n : Nat) (s : State) : (pushField v n s).unpacker = s.unpacker :=
  pushBits_unpacker _ s
@[simp] theorem pushField_enc (v n : Nat) (s : State) : (pushField v n s).enc = s.enc :=
  pushBits_enc _ s
@[simp] theorem pushField_dec (v n : Nat) (s : State) : (pushField v n s).dec = s.dec :=
  pushBits_dec _ s
@[simp] theorem pushField_cipher (v n : Nat) (s : State) : (pushField v n s).cipher = s.cipher :=
  pushBits_cipher _ s
@[simp] theorem pushField_phase (v n : Nat) (s : State) : (pushField v n s).phase = s.phase :=
  pushBits_phase _ s
@[simp] theorem pushField_ret (v n : Nat) (s : State) : (pushField v n s).ret = s.ret :=
  pushBits_ret _ s

/-! Parts of the state. -/

@[simp] theorem appendOut_len (o : OutPort) (c : Sym) : (appendOut o c).len = o.len + 1 := rfl
@[simp] theorem appendOut_null (o : OutPort) (c : Sym) : (appendOut o c).null = o.null := rfl
@[simp] theorem appendOut_dcause (o : OutPort) (c : Sym) : (appendOut o c).dcause = o.dcause := rfl
@[simp] theorem appendOut_dinfo (o : OutPort) (c : Sym) : (appendOut o c).dinfo = o.dinfo := rfl

@[simp] theorem growth_nextId (c : CodeWidth) : (growth c).nextId = c.nextId := by
  unfold growth; split <;> rfl

@[simp] theorem keyStep_inc (d : Dir) (c : Cipher) : (keyStep d c).inc = c.inc := rfl
@[simp] theorem keyStep_ki (d : Dir) (c : Cipher) : (keyStep d c).ki = c.ki := rfl
@[simp] theorem keyStep_ci (d : Dir) (c : Cipher) : (keyStep d c).ci = c.ci := rfl
@[simp] theorem keyStep_forward_z (c : Cipher) : (keyStep .forward c).z = c.z + c.inc := rfl
@[simp] theorem keyStep_backward_z (c : Cipher) : (keyStep .backward c).z = c.z - c.inc := rfl
@[simp] theorem keyStep_rmix (d : Dir) (c : Cipher) :
    (keyStep d c).rmix = Config.mix (keyStep d c).z := rfl

@[simp] theorem deriveInc_z (k : Key) (c : Cipher) : (deriveInc k c).z = c.z := rfl
@[simp] theorem deriveInc_inc (k : Key) (c : Cipher) : (deriveInc k c).inc = increment k := rfl
@[simp] theorem deriveInc_rmix (k : Key) (c : Cipher) : (deriveInc k c).rmix = c.rmix := rfl
@[simp] theorem deriveInc_ki (k : Key) (c : Cipher) : (deriveInc k c).ki = c.ki := rfl
@[simp] theorem deriveInc_ci (k : Key) (c : Cipher) : (deriveInc k c).ci = c.ci := rfl
@[simp] theorem seed_z (k : Key) (c : Cipher) : (seed k c).z = k := rfl
@[simp] theorem seed_inc (k : Key) (c : Cipher) : (seed k c).inc = c.inc := rfl
@[simp] theorem seed_rmix (k : Key) (c : Cipher) : (seed k c).rmix = c.rmix := rfl
@[simp] theorem seed_ki (k : Key) (c : Cipher) : (seed k c).ki = c.ki := rfl
@[simp] theorem seed_ci (k : Key) (c : Cipher) : (seed k c).ci = c.ci := rfl

@[simp] theorem xorWord_len (i : Nat) (l : Payload) (b : Buffer) : (xorWord i l b).len = b.len := rfl
@[simp] theorem xorWords_len (base : Nat) (r : Key) (f : Nat → Fin 4) (ts : List Nat) (b : Buffer) :
    (xorWords base r f ts b).len = b.len := by
  unfold xorWords
  induction ts generalizing b with
  | nil => rfl
  | cons t ts ih => exact ih _

end Sys2Proof.Machine
end

