-- ==== Sys2Proof/Laws/Cipher.lean ====
section
/-! SUPPORT. The laws of the cipher: the XOR of a lane into a word, runs of XW, the full groups, and what
a pass and ENCRYPT or DECRYPT leave alone. -/

namespace Sys2Proof.Machine

/-! One word (R205). -/

theorem masked_eq_xorLane (w : Word) (l : Payload) : masked w l = xorLane w l := rfl

/-- What XW puts on and what it takes off are the same: `+ 32` and `- 32` cancel. -/
@[simp] theorem unstored_add_offset (v : BitVec 16) : unstored (v + Config.offset) = v := by
  unfold unstored
  exact BitVec.add_sub_cancel v _

@[simp] theorem unstored_xorLane (w : Word) (l : Payload) :
    unstored (xorLane w l) = unstored w ^^^ l.setWidth 16 := unstored_add_offset _

/-- Two lanes XORed in one after the other are their XOR. -/
theorem xorLane_xorLane (w : Word) (l l' : Payload) :
    xorLane (xorLane w l) l' = xorLane w (l ^^^ l') := by
  unfold xorLane
  rw [unstored_add_offset, BitVec.xor_assoc, BitVec.setWidth_xor]

@[simp] theorem xorLane_zero (w : Word) : xorLane w 0 = w := by
  unfold xorLane unstored
  rw [show (0 : Payload).setWidth 16 = 0#16 from rfl, BitVec.xor_zero]
  exact BitVec.sub_add_cancel w _

/-- The same lane twice gives the word back. -/
theorem xorLane_twice (w : Word) (l : Payload) : xorLane (xorLane w l) l = w := by
  rw [xorLane_xorLane, BitVec.xor_self]
  exact xorLane_zero w

/-- A word is in the wire range iff it is a stored payload. -/
theorem wireRange_iff (w : Word) : WireRange w ↔ (unstored w).toNat < 32768 := by
  unfold WireRange unstored
  rw [BitVec.toNat_sub]
  have := w.isLt
  rw [show Config.offset.toNat = 32 from rfl]
  omega

/-- A lane keeps a word in the wire range (R205). -/
theorem xorLane_wireRange {w : Word} (l : Payload) (h : WireRange w) : WireRange (xorLane w l) := by
  rw [wireRange_iff] at h ⊢
  rw [unstored_xorLane, BitVec.toNat_xor, BitVec.toNat_setWidth]
  have hl := l.isLt
  rw [Nat.mod_eq_of_lt (by omega)]
  exact Nat.xor_lt_two_pow (n := 15) h hl

/-! Runs of XW. -/

theorem memRead_xorWord (i : Nat) (l : Payload) (b : Buffer) (j : Nat) :
    memRead (xorWord i l b).mem j = if j = i then xorLane (memRead b.mem i) l else memRead b.mem j :=
  memRead_memWrite ..

/-- Everything a run of XW over distinct words does. -/
theorem memRead_xorWords (base : Nat) (r : Key) (f : Nat → Fin 4) (ts : List Nat) (b : Buffer)
    (h : ts.Nodup) (j : Nat) :
    memRead (xorWords base r f ts b).mem j =
      if base ≤ j ∧ j - base ∈ ts then xorLane (memRead b.mem j) (laneOf r (f (j - base)))
      else memRead b.mem j := by
  induction ts generalizing b with
  | nil => simp [xorWords]
  | cons t ts ih =>
    have hn := List.nodup_cons.1 h
    have e : xorWords base r f (t :: ts) b =
        xorWords base r f ts (xorWord (base + t) (laneOf r (f t)) b) := rfl
    rw [e, ih _ hn.2]
    by_cases hj : j = base + t
    · have ht : j - base = t := by omega
      rw [if_neg (fun hc => hn.1 (ht ▸ hc.2)),
        if_pos ⟨by omega, by rw [ht]; exact List.mem_cons_self⟩, memRead_xorWord, if_pos hj, ht, hj]
    · have hm : (base ≤ j ∧ j - base ∈ t :: ts) ↔ (base ≤ j ∧ j - base ∈ ts) := by
        constructor
        · rintro ⟨h1, h2⟩
          exact ⟨h1, (List.mem_cons.1 h2).resolve_left (by omega)⟩
        · exact fun ⟨h1, h2⟩ => ⟨h1, List.mem_cons_of_mem _ h2⟩
      simp only [hm, memRead_xorWord, if_neg hj]

theorem xorWords_wf (base : Nat) (r : Key) (f : Nat → Fin 4) (ts : List Nat) {b : Buffer}
    (h : MemWf b.mem) : MemWf (xorWords base r f ts b).mem := by
  unfold xorWords
  induction ts generalizing b with
  | nil => exact h
  | cons t ts ih => exact ih (memWrite_wf _ _ h)

/-! What a pass leaves alone. -/

/-- States that differ in BUF's words and the cipher alone. -/
abbrev CipherOnly (s t : State) : Prop :=
  t = { s with buf := t.buf, cipher := t.cipher } ∧ t.buf.len = s.buf.len ∧
    (MemWf s.buf.mem → MemWf t.buf.mem)

theorem CipherOnly.refl (s : State) : CipherOnly s s := ⟨rfl, rfl, id⟩

theorem CipherOnly.trans {s t u : State} (h : CipherOnly s t) (h' : CipherOnly t u) :
    CipherOnly s u := by
  refine ⟨?_, h'.2.1.trans h.2.1, fun w => h'.2.2 (h.2.2 w)⟩
  rw [h'.1, h.1]

/-- A write of the cipher and a run of XW. -/
theorem cipherOnly_xorWords (s : State) (c : Cipher) (base : Nat) (r : Key) (f : Nat → Fin 4)
    (ts : List Nat) :
    CipherOnly s { s with cipher := c, buf := xorWords base r f ts s.buf } :=
  ⟨rfl, xorWords_len .., fun h => xorWords_wf base r f ts h⟩

theorem cipherOnly_cipher (s : State) (c : Cipher) : CipherOnly s { s with cipher := c } :=
  ⟨rfl, rfl, id⟩

theorem encryptGroup_only (s : State) : CipherOnly s (encryptGroup s) := cipherOnly_xorWords ..

theorem decryptGroup_only (s : State) : CipherOnly s (decryptGroup s) := cipherOnly_xorWords ..

/-- EPASS writes BUF's words and the cipher alone, and leaves INC at the key's increment and KI. -/
theorem encryptPass_only (key : Key) (s : State) :
    CipherOnly s (encryptPass key s) ∧ (encryptPass key s).cipher.inc = increment key ∧
      (encryptPass key s).cipher.ki = s.cipher.ki := by
  have loop := whileUpTo_inv
    (cond := fun t => decide (t.cipher.ci + Config.group ≤ t.buf.len)) (body := encryptGroup)
    (P := fun t => CipherOnly s t ∧ t.cipher.inc = increment key ∧ t.cipher.ki = s.cipher.ki)
    (fun t _ h => ⟨h.1.trans (encryptGroup_only t), by simpa using h.2⟩) s.buf.len
    { s with cipher := { seed key (deriveInc key s.cipher) with ci := 0 } }
    ⟨cipherOnly_cipher .., by simp⟩
  unfold encryptPass
  dsimp only
  split
  · exact ⟨loop.1.trans (cipherOnly_xorWords ..), by simpa using loop.2⟩
  · exact loop

/-- DPASS writes BUF's words and the cipher alone, and leaves INC at the key's increment and KI. -/
theorem decryptPass_only (key : Key) (s : State) :
    CipherOnly s (decryptPass key s) ∧ (decryptPass key s).cipher.inc = increment key ∧
      (decryptPass key s).cipher.ki = s.cipher.ki := by
  unfold decryptPass
  dsimp only
  refine whileUpTo_inv
    (P := fun t => CipherOnly s t ∧ t.cipher.inc = increment key ∧ t.cipher.ki = s.cipher.ki)
    (fun t _ h => ⟨h.1.trans (decryptGroup_only t), by simpa using h.2⟩) _ _ ?_
  split
  · exact ⟨cipherOnly_xorWords .., by simp⟩
  · exact ⟨cipherOnly_cipher .., by simp⟩

/-- The increment of a key is odd (R201). -/
theorem increment_odd (key : Key) : (increment key).toNat % 2 = 1 := by
  unfold increment
  rw [BitVec.toNat_add, BitVec.toNat_mul]
  rw [show Config.incMul.toNat = 2654435770 from rfl, show Config.incAdd.toNat = 1663821227 from rfl]
  omega

@[simp] theorem keyBelow_succ (k : Nat) : keyBelow (k + 1) = k := rfl

/-- A round of ENCRYPT writes BUF's words and the cipher alone; KI is one above its key (R85). -/
theorem encryptKey_only (s : State) (k : Nat) :
    CipherOnly s (encryptKey s k) ∧
      (encryptKey s k).cipher.inc = increment (memRead s.port.keys k) ∧
      (encryptKey s k).cipher.ki = k + 1 := by
  have hp := encryptPass_only (memRead s.port.keys k) (selectKey k s)
  refine ⟨((cipherOnly_cipher s _).trans hp.1).trans (cipherOnly_cipher _ _), hp.2.1, ?_⟩
  change (encryptPass _ (selectKey k s)).cipher.ki + 1 = k + 1
  rw [hp.2.2]
  rfl

/-- A round of DECRYPT writes BUF's words and the cipher alone; KI is one below its key (R85). -/
theorem decryptKey_only (s : State) (k : Nat) :
    CipherOnly s (decryptKey s k) ∧
      (decryptKey s k).cipher.inc = increment (memRead s.port.keys k) ∧
      (decryptKey s k).cipher.ki = keyBelow k := by
  have hp := decryptPass_only (memRead s.port.keys k) (selectKey k s)
  refine ⟨((cipherOnly_cipher s _).trans hp.1).trans (cipherOnly_cipher _ _), hp.2.1, ?_⟩
  change keyBelow (decryptPass _ (selectKey k s)).cipher.ki = keyBelow k
  rw [hp.2.2]
  rfl

/-- What every round over a list of keys keeps: BUF's words and the cipher alone are written, and INC
stays odd. -/
theorem foldl_only {round : State → Nat → State}
    (hr : ∀ s k, CipherOnly s (round s k) ∧
      (round s k).cipher.inc = increment (memRead s.port.keys k)) (ks : List Nat) (s : State) :
    CipherOnly s (ks.foldl round s) ∧
      (s.cipher.inc.toNat % 2 = 1 → (ks.foldl round s).cipher.inc.toNat % 2 = 1) := by
  induction ks generalizing s with
  | nil => exact ⟨.refl s, id⟩
  | cons k ks ih =>
    obtain ⟨h, hi⟩ := hr s k
    exact ⟨h.trans (ih _).1, fun _ => (ih _).2 (by rw [hi]; exact increment_odd _)⟩

/-! ENCRYPT and DECRYPT where the cipher is engaged and where it is bypassed (R209, R210, R216). -/

theorem cipherEngaged_iff (p : HostPort) :
    cipherEngaged p = true ↔ p.keysNull = false ∧ 0 < p.nKeys := by
  simp [cipherEngaged]

theorem cipherEngaged_of_bypass {p : HostPort} (h : p.keysNull = true ∨ p.nKeys = 0) :
    ¬cipherEngaged p = true := by
  rw [cipherEngaged_iff]
  rintro ⟨h1, h2⟩
  rcases h with h | h
  · rw [h1] at h; cases h
  · omega

theorem encryptAll_of_engaged {s : State} (h : s.port.keysNull = false ∧ 0 < s.port.nKeys) :
    encryptAll s = (List.range s.port.nKeys).foldl encryptKey s :=
  if_pos ((cipherEngaged_iff _).2 h)

theorem decryptAll_of_engaged {s : State} (h : s.port.keysNull = false ∧ 0 < s.port.nKeys) :
    decryptAll s = (List.range s.port.nKeys).reverse.foldl decryptKey s :=
  if_pos ((cipherEngaged_iff _).2 h)

theorem encryptAll_of_bypass {s : State} (h : s.port.keysNull = true ∨ s.port.nKeys = 0) :
    encryptAll s = s := if_neg (cipherEngaged_of_bypass h)

theorem decryptAll_of_bypass {s : State} (h : s.port.keysNull = true ∨ s.port.nKeys = 0) :
    decryptAll s = s := if_neg (cipherEngaged_of_bypass h)

theorem usedKeys_of_engaged {s : State} (h : s.port.keysNull = false ∧ 0 < s.port.nKeys) :
    usedKeys s = keyList s := if_pos h

theorem usedKeys_of_bypass {s : State} (h : s.port.keysNull = true ∨ s.port.nKeys = 0) :
    usedKeys s = [] :=
  if_neg fun hc => cipherEngaged_of_bypass h ((cipherEngaged_iff _).2 hc)

theorem encryptAll_only (s : State) :
    CipherOnly s (encryptAll s) ∧
      (s.cipher.inc.toNat % 2 = 1 → (encryptAll s).cipher.inc.toNat % 2 = 1) := by
  unfold encryptAll
  split
  · exact foldl_only (fun s k => ⟨(encryptKey_only s k).1, (encryptKey_only s k).2.1⟩) _ s
  · exact ⟨.refl s, id⟩

theorem decryptAll_only (s : State) :
    CipherOnly s (decryptAll s) ∧
      (s.cipher.inc.toNat % 2 = 1 → (decryptAll s).cipher.inc.toNat % 2 = 1) := by
  unfold decryptAll
  split
  · exact foldl_only (fun s k => ⟨(decryptKey_only s k).1, (decryptKey_only s k).2.1⟩) _ s
  · exact ⟨.refl s, id⟩

end Sys2Proof.Machine
end

