-- ==== Sys2Proof/Laws/Codec.lean ====
section
/-! SUPPORT. The laws of the token codec: which tokens can stand at a place, and that the token a code
field selects is one of them and has those fields. -/

namespace Sys2Proof

/-- The tokens that can stand first in a stream (R102, R110). -/
theorem fits_first {i : Instr} (h : i.fits .first = true) :
    (∃ s, i = .lit8P s) ∨ (∃ s, i = .lit16P s) ∨ i = .endP ∨ i = .illegalP := by
  cases i
  all_goals first
    | exact absurd h Bool.false_ne_true
    | simp

/-- The tokens that can stand at a later place, and what the place asks of their code (R102, R110). -/
theorem fits_later {n m : Nat} {i : Instr} (h : i.fits (.later n m) = true) :
    (2 ≤ n ∧ ((∃ s, i = .lit8 s) ∨ (∃ s, i = .lit16 s) ∨ i = .endTok)) ∨
    (∃ c, 3 ≤ c ∧ c < 2 ^ n ∧
      (i = .ref c ∧ c < m ∨ i = .sref c ∧ c = m ∨ i = .illegal c ∧ m < c)) := by
  cases i
  case lit8 s => exact .inl ⟨of_decide_eq_true h, .inl ⟨s, rfl⟩⟩
  case lit16 s => exact .inl ⟨of_decide_eq_true h, .inr (.inl ⟨s, rfl⟩)⟩
  case endTok => exact .inl ⟨of_decide_eq_true h, .inr (.inr rfl)⟩
  case ref c =>
    have h : (decide (3 ≤ c) && decide (c < m) && decide (c < 2 ^ n)) = true := h
    simp only [Bool.and_eq_true, decide_eq_true_eq] at h
    exact .inr ⟨c, h.1.1, h.2, .inl ⟨rfl, h.1.2⟩⟩
  case sref c =>
    have h : (decide (3 ≤ c) && decide (c = m) && decide (c < 2 ^ n)) = true := h
    simp only [Bool.and_eq_true, decide_eq_true_eq] at h
    exact .inr ⟨c, h.1.1, h.2, .inr (.inl ⟨rfl, h.1.2⟩)⟩
  case illegal c =>
    have h : (decide (3 ≤ c) && decide (m < c) && decide (c < 2 ^ n)) = true := h
    simp only [Bool.and_eq_true, decide_eq_true_eq] at h
    exact .inr ⟨c, h.1.1, h.2, .inr (.inr ⟨rfl, h.1.2⟩)⟩
  all_goals exact absurd h Bool.false_ne_true

theorem fits_ref {n m c : Nat} :
    (Instr.ref c).fits (.later n m) = true ↔ 3 ≤ c ∧ c < m ∧ c < 2 ^ n := by
  change (decide (3 ≤ c) && decide (c < m) && decide (c < 2 ^ n)) = true ↔ _
  simp [and_assoc]

theorem fits_sref {n m c : Nat} :
    (Instr.sref c).fits (.later n m) = true ↔ 3 ≤ c ∧ c = m ∧ c < 2 ^ n := by
  change (decide (3 ≤ c) && decide (c = m) && decide (c < 2 ^ n)) = true ↔ _
  simp [and_assoc]

theorem fits_illegal {n m c : Nat} :
    (Instr.illegal c).fits (.later n m) = true ↔ 3 ≤ c ∧ m < c ∧ c < 2 ^ n := by
  change (decide (3 ≤ c) && decide (m < c) && decide (c < 2 ^ n)) = true ↔ _
  simp [and_assoc]

/-! The token selected by each code. -/

theorem assemble_first_lit8 (s : Nat) : assemble .first 0 s = .lit8P (BitVec.ofNat 8 s) := rfl
theorem assemble_first_lit16 (s : Nat) : assemble .first 1 s = .lit16P (BitVec.ofNat 16 s) := rfl
theorem assemble_first_end (s : Nat) : assemble .first 2 s = .endP := rfl
theorem assemble_first_illegal {c : Nat} (s : Nat) (h : 3 ≤ c) : assemble .first c s = .illegalP := by
  simp only [assemble, Config.codeLit8, Config.codeLit16, Config.codeEnd]
  rw [if_neg (by omega), if_neg (by omega), if_neg (by omega)]

theorem assemble_later_lit8 (n m s : Nat) : assemble (.later n m) 0 s = .lit8 (BitVec.ofNat 8 s) := rfl
theorem assemble_later_lit16 (n m s : Nat) :
    assemble (.later n m) 1 s = .lit16 (BitVec.ofNat 16 s) := rfl
theorem assemble_later_end (n m s : Nat) : assemble (.later n m) 2 s = .endTok := rfl

theorem assemble_later_ref {c : Nat} (n m s : Nat) (h : 3 ≤ c) (hm : c < m) :
    assemble (.later n m) c s = .ref c := by
  simp only [assemble, Config.codeLit8, Config.codeLit16, Config.codeEnd]
  rw [if_neg (by omega), if_neg (by omega), if_neg (by omega), if_pos hm]

theorem assemble_later_sref {c : Nat} (n s : Nat) (h : 3 ≤ c) :
    assemble (.later n c) c s = .sref c := by
  simp only [assemble, Config.codeLit8, Config.codeLit16, Config.codeEnd]
  rw [if_neg (by omega), if_neg (by omega), if_neg (by omega), if_neg (by omega), if_pos trivial]

theorem assemble_later_illegal {c : Nat} (n m s : Nat) (h : 3 ≤ c) (hm : m < c) :
    assemble (.later n m) c s = .illegal c := by
  simp only [assemble, Config.codeLit8, Config.codeLit16, Config.codeEnd]
  rw [if_neg (by omega), if_neg (by omega), if_neg (by omega), if_neg (by omega), if_neg (by omega)]

/-- The code of the token a code field selects is the value of the field. -/
theorem tokenCode_assemble (ctx : TokenCtx) (c s : Nat) (hc : c < 2 ^ codeWidth ctx) :
    tokenCode (assemble ctx c s) = some c := by
  have case4 : c = 0 ∨ c = 1 ∨ c = 2 ∨ 3 ≤ c := by omega
  rcases case4 with rfl | rfl | rfl | h3
  · cases ctx <;> rfl
  · cases ctx <;> rfl
  · cases ctx <;> rfl
  · cases ctx with
    | first =>
      have : c < 2 ^ 2 := hc
      have : c = 3 := by omega
      subst this
      rfl
    | later n m =>
      rcases Nat.lt_trichotomy c m with h | rfl | h
      · rw [assemble_later_ref n m s h3 h]; rfl
      · rw [assemble_later_sref n s h3]; rfl
      · rw [assemble_later_illegal n m s h3 h]; rfl

/-- The token a code field selects can stand at its place, and its fields are the ones it was made of. -/
theorem assemble_spec (ctx : TokenCtx) (c s : Nat) (hw : 2 ≤ codeWidth ctx)
    (hc : c < 2 ^ codeWidth ctx) (hs : s < 2 ^ symWidth c) :
    (assemble ctx c s).fits ctx = true ∧ tokenCode (assemble ctx c s) = some c ∧
      tokenSymBits (assemble ctx c s) = fieldBits s (symWidth c) := by
  have lit (n : Nat) (h : s < 2 ^ n) : (BitVec.ofNat n s).toNat = s := by
    rw [BitVec.toNat_ofNat, Nat.mod_eq_of_lt h]
  have case4 : c = 0 ∨ c = 1 ∨ c = 2 ∨ 3 ≤ c := by omega
  rcases case4 with rfl | rfl | rfl | h3
  · have h8 := lit 8 hs
    cases ctx with
    | first => exact ⟨rfl, rfl, congrArg (fieldBits · 8) h8⟩
    | later n m => exact ⟨decide_eq_true hw, rfl, congrArg (fieldBits · 8) h8⟩
  · have h16 := lit 16 hs
    cases ctx with
    | first => exact ⟨rfl, rfl, congrArg (fieldBits · 16) h16⟩
    | later n m => exact ⟨decide_eq_true hw, rfl, congrArg (fieldBits · 16) h16⟩
  · cases ctx with
    | first => exact ⟨rfl, rfl, rfl⟩
    | later n m => exact ⟨decide_eq_true hw, rfl, rfl⟩
  · have hz : fieldBits s (symWidth c) = [] := by rw [symWidth_of_ge_two (by omega)]; rfl
    rw [hz]
    cases ctx with
    | first =>
      have : c < 2 ^ 2 := hc
      have : c = 3 := by omega
      subst this
      exact ⟨rfl, rfl, rfl⟩
    | later n m =>
      rcases Nat.lt_trichotomy c m with h | rfl | h
      · rw [assemble_later_ref n m s h3 h]
        exact ⟨fits_ref.mpr ⟨h3, h, hc⟩, rfl, rfl⟩
      · rw [assemble_later_sref n s h3]
        exact ⟨fits_sref.mpr ⟨h3, rfl, hc⟩, rfl, rfl⟩
      · rw [assemble_later_illegal n m s h3 h]
        exact ⟨fits_illegal.mpr ⟨h3, h, hc⟩, rfl, rfl⟩

end Sys2Proof
end

