-- ==== Sys2Proof/Laws/Encoder.lean ====
section
/-! SUPPORT. The laws of the code width and of the encoder: TICK where ENLARGEIN is at least 1, what
EREG, EEMIT and ESYM leave alone, ENCODE as a number of ESYM steps, and the count of pending entries. -/

namespace Sys2Proof.Machine

/-! The code width (R151). -/

theorem decrement_of_pos {n : Nat} (h : 1 ≤ n) : decrement n = n - 1 := by
  cases n with
  | zero => omega
  | succ n => rfl

theorem growth_of_one {c : CodeWidth} (h : c.enlargeIn = 1) :
    growth c = { c with numBits := c.numBits + 1, enlargeIn := 2 ^ c.numBits } := by
  unfold growth
  rw [h, if_pos (show decrement 1 = 0 from rfl)]

theorem growth_of_gt {c : CodeWidth} (h : 1 < c.enlargeIn) :
    growth c = { c with enlargeIn := c.enlargeIn - 1 } := by
  unfold growth
  rw [decrement_of_pos (by omega), if_neg (by omega)]

/-- Everything a tick does to the code-width registers, ENLARGEIN being at least 1. -/
theorem growth_cases (c : CodeWidth) (h : 1 ≤ c.enlargeIn) :
    (c.enlargeIn = 1 ∧
      growth c = { c with numBits := c.numBits + 1, enlargeIn := 2 ^ c.numBits }) ∨
    (1 < c.enlargeIn ∧ growth c = { c with enlargeIn := c.enlargeIn - 1 }) := by
  rcases Nat.lt_or_eq_of_le h with h1 | h1
  · exact .inr ⟨h1, growth_of_gt h1⟩
  · exact .inl ⟨h1.symm, growth_of_one h1.symm⟩

theorem growth_enlargeIn_pos (c : CodeWidth) (h : 1 ≤ c.enlargeIn) : 1 ≤ (growth c).enlargeIn := by
  rcases growth_cases c h with ⟨_, e⟩ | ⟨h1, e⟩ <;> rw [e]
  · exact Nat.one_le_two_pow
  · change 1 ≤ c.enlargeIn - 1; omega

theorem growth_numBits_le (c : CodeWidth) : c.numBits ≤ (growth c).numBits := by
  unfold growth
  split
  · exact Nat.le_succ _
  · exact Nat.le_refl _

/-- A tick keeps `2^NUMBITS - ENLARGEIN` one lower (R157). -/
theorem growth_codeSpace (c : CodeWidth) (h : 1 ≤ c.enlargeIn) :
    (growth c).enlargeIn + 2 ^ c.numBits + 1 = c.enlargeIn + 2 ^ (growth c).numBits := by
  rcases growth_cases c h with ⟨h1, e⟩ | ⟨h1, e⟩ <;> rw [e]
  · simp only [h1, pow_succ]; omega
  · simp only; omega

theorem growth_enlargeIn_le (c : CodeWidth) (h : 1 ≤ c.enlargeIn)
    (hl : c.enlargeIn ≤ 2 ^ (c.numBits - 1)) :
    (growth c).enlargeIn ≤ 2 ^ ((growth c).numBits - 1) := by
  rcases growth_cases c h with ⟨_, e⟩ | ⟨_, e⟩ <;> rw [e]
  · simp
  · exact Nat.le_trans (Nat.sub_le _ _) hl

/-- Assigning an id and then ticking is `widthAfterEntry` (R84, R151). -/
theorem growth_nextEntry (c : CodeWidth) (h : 1 ≤ c.enlargeIn) :
    growth { c with nextId := c.nextId + 1 } = widthAfterEntry c := by
  unfold widthAfterEntry
  rcases growth_cases { c with nextId := c.nextId + 1 } h with ⟨h1, e⟩ | ⟨h1, e⟩
  · rw [e, if_pos h1]
  · rw [e, if_neg (Nat.ne_of_gt h1)]

/-! EREG, EEMIT and ESYM leave the input and, but for what their rules name, the registers. -/

/-- Everything EREG can do (R153). -/
theorem registerSym_cases (c : Sym) (s : State) :
    ((dictFind s.dict s.width.nextId [c]).isSome ∧ registerSym c s = s) ∨
    (dictFind s.dict s.width.nextId [c] = none ∧ registerSym c s = insertPhrase [c] true s) := by
  unfold registerSym
  cases h : dictFind s.dict s.width.nextId [c] with
  | none => exact .inr ⟨rfl, rfl⟩
  | some j => exact .inl ⟨rfl, rfl⟩

/-- EREG writes DICT and NEXTID alone. -/
theorem registerSym_frame (c : Sym) (s : State) :
    registerSym c s = { s with dict := (registerSym c s).dict, width := (registerSym c s).width } := by
  rcases registerSym_cases c s with ⟨_, h⟩ | ⟨_, h⟩
  · rw [h]
  · rw [h]; rfl

/-- Everything EEMIT can do for an entry that is found (R152). -/
theorem emitPhrase_cases {s : State} {id : Nat} {e : Entry}
    (hf : dictFind s.dict s.width.nextId s.enc.w = some id) (he : tableGet s.dict id = some e) :
    (e.pending = true ∧ emitPhrase s =
      tick { tick (pushLiteral (firstSym s.enc.w) s) with dict := clearPending s.dict id }) ∨
    (e.pending = false ∧ emitPhrase s = tick (pushField id s.width.numBits s)) := by
  have hid : emitId s = id := by simp [emitId, hf]
  have hd : (pushLiteral (firstSym s.enc.w) s).dict = s.dict := by
    unfold pushLiteral; split <;> simp
  unfold emitPhrase
  cases hp : e.pending with
  | true =>
    left
    simp only [hid, isPending, he, hp, if_true, true_and, tick_dict, hd]
  | false =>
    right
    simp [hid, isPending, he, hp]

/-- EEMIT writes the packer, BUF, the code width and DICT alone. -/
theorem emitPhrase_frame (s : State) :
    emitPhrase s = { s with
      buf := (emitPhrase s).buf
      dict := (emitPhrase s).dict
      width := (emitPhrase s).width
      packer := (emitPhrase s).packer } := by
  have push (v n : Nat) (s : State) :
      pushField v n s = { s with buf := (pushField v n s).buf, packer := (pushField v n s).packer } := by
    rw [State.mk.injEq]; simp
  unfold emitPhrase pushLiteral
  dsimp only
  split
  · split <;> (rw [State.mk.injEq]; simp)
  · rw [State.mk.injEq]; simp

@[simp] theorem emitPhrase_nextId (s : State) :
    (emitPhrase s).width.nextId = s.width.nextId := by
  unfold emitPhrase pushLiteral
  dsimp only
  split
  · split <;> simp
  · simp

/-- ESYM leaves every field but the encoder's own, DICT, the code width, the packer and BUF. -/
theorem scanSym_frame (s : State) :
    scanSym s = { s with
      buf := (scanSym s).buf
      dict := (scanSym s).dict
      width := (scanSym s).width
      packer := (scanSym s).packer
      enc := { w := (scanSym s).enc.w, scan := s.enc.scan + 1 } } := by
  unfold scanSym
  dsimp only
  split
  · rw [registerSym_frame]
  · rw [emitPhrase_frame, registerSym_frame]; rfl

/-- `n` ESYM steps move SCAN by `n` and leave the inputs. -/
theorem iterate_scanSym (n : Nat) (s : State) :
    (scanSym^[n] s).port = s.port ∧ (scanSym^[n] s).enc.scan = s.enc.scan + n := by
  induction n generalizing s with
  | zero => exact ⟨rfl, rfl⟩
  | succ n ih =>
    rw [Function.iterate_succ_apply]
    have hf := scanSym_frame s
    obtain ⟨h1, h2⟩ := ih (scanSym s)
    refine ⟨h1.trans (by rw [hf]), h2.trans ?_⟩
    rw [hf]
    exact Nat.add_right_comm _ _ _

/-- ENCODE runs ESYM exactly IN_LEN times (R156). -/
theorem encodeText_eq (s : State) :
    encodeText s = encoderFinish (scanSym^[s.port.inLen] (encoderInit s)) := by
  unfold encodeText
  rw [whileUpTo_eq_iterate]
  intro k hk
  simp [iterate_scanSym, hk]

/-- What an operation of the encoder leaves alone: everything but BUF, DICT, the code width, the packer
and the encoder's own registers. -/
structure SameButEncoder (s t : State) : Prop where
  port : t.port = s.port
  out : t.out = s.out
  unpacker : t.unpacker = s.unpacker
  dec : t.dec = s.dec
  cipher : t.cipher = s.cipher
  phase : t.phase = s.phase
  ret : t.ret = s.ret

theorem SameButEncoder.refl (s : State) : SameButEncoder s s := ⟨rfl, rfl, rfl, rfl, rfl, rfl, rfl⟩

theorem SameButEncoder.trans {s t u : State} (h : SameButEncoder s t) (h' : SameButEncoder t u) :
    SameButEncoder s u :=
  ⟨h'.1.trans h.1, h'.2.trans h.2, h'.3.trans h.3, h'.4.trans h.4, h'.5.trans h.5, h'.6.trans h.6,
    h'.7.trans h.7⟩

theorem emitPhrase_same (s : State) : SameButEncoder s (emitPhrase s) := by
  rw [emitPhrase_frame]
  exact ⟨rfl, rfl, rfl, rfl, rfl, rfl, rfl⟩

theorem scanSym_same (s : State) : SameButEncoder s (scanSym s) := by
  rw [scanSym_frame]
  exact ⟨rfl, rfl, rfl, rfl, rfl, rfl, rfl⟩

theorem encoderFinish_same (s : State) : SameButEncoder s (encoderFinish s) := by
  have tail (t : State) : SameButEncoder t (flushWord (pushField Config.codeEnd t.width.numBits t)) := by
    constructor <;> simp
  unfold encoderFinish
  dsimp only
  split
  · exact tail s
  · exact (emitPhrase_same s).trans (tail _)

theorem encodeText_same (s : State) : SameButEncoder s (encodeText s) := by
  unfold encodeText
  refine SameButEncoder.trans ?_ (encoderFinish_same _)
  exact whileUpTo_inv (P := SameButEncoder s) (fun t _ h => h.trans (scanSym_same t)) _ _
    ⟨rfl, rfl, rfl, rfl, rfl, rfl, rfl⟩

/-! The count of pending entries (`P` of R157). -/

theorem dictPhrase?_eq_some_iff {d : Dict} {id : Nat} {p : Phrase} :
    dictPhrase? d id = some p ↔ ∃ e, tableGet d id = some e ∧ e.phrase = p := by
  simp [dictPhrase?]

/-- No entry is pending iff the count is 0. -/
theorem pendingCount_eq_zero {d : Dict} (hs : TableSorted d)
    (h : ∀ id e, tableGet d id = some e → e.pending = false) : pendingCount d = 0 := by
  unfold pendingCount
  rw [List.length_eq_zero_iff, List.filter_eq_nil_iff]
  intro x hx
  simp [h x.1 x.2 (tableGet_eq_some_of_mem hs hx)]

/-- At most one id is pending, so the count is at most 1. -/
theorem pendingCount_le_one {d : Dict} (hs : TableSorted d) {n : Nat}
    (h : ∀ id e, tableGet d id = some e → e.pending = true → id = n) : pendingCount d ≤ 1 := by
  unfold pendingCount
  have hp : (d.filter fun e => e.2.pending).Pairwise fun a b => a.1 < b.1 := hs.filter _
  have key (x : Nat × Entry) (hx : x ∈ d.filter fun e => e.2.pending) : x.1 = n := by
    rw [List.mem_filter] at hx
    exact h x.1 x.2 (tableGet_eq_some_of_mem hs hx.1) hx.2
  match hl : d.filter (fun e => e.2.pending) with
  | [] => rw [hl]; simp
  | [_] => rw [hl]; simp
  | x :: y :: l =>
    rw [hl] at hp key
    have := (List.pairwise_cons.1 hp).1 y (by simp)
    have := key x (by simp)
    have := key y (by simp)
    omega

@[simp] theorem pendingCount_nil : pendingCount [] = 0 := rfl

/-- The count of pending entries after one entry is written. -/
theorem pendingCount_tableSet {d : Dict} (h : TableSorted d) (id : Nat) (e : Entry) :
    pendingCount (tableSet d id e) + (((tableGet d id).map Entry.pending).getD false).toNat =
      pendingCount d + e.pending.toNat := by
  induction d with
  | nil => cases hp : e.pending <;> simp [tableSet, pendingCount, tableGet, hp]
  | cons x d ih =>
    obtain ⟨k, y⟩ := x
    have hs := List.pairwise_cons.1 h
    have count (z : Nat × Entry) (l : Dict) :
        pendingCount (z :: l) = z.2.pending.toNat + pendingCount l := by
      unfold pendingCount
      rw [List.filter_cons]
      cases z.2.pending <;> simp [Nat.add_comm]
    unfold tableSet tableGet
    rcases Nat.lt_trichotomy id k with hlt | heq | hgt
    · rw [if_pos hlt, if_neg (by omega), count]
      have hn : tableGet d id = none := by
        cases hg : tableGet d id with
        | none => rfl
        | some z =>
          have := hs.1 _ (mem_of_tableGet_eq_some hg)
          simp only at this
          omega
      rw [hn]
      simp [Nat.add_comm]
    · subst heq
      rw [if_neg (Nat.lt_irrefl _), if_pos rfl, if_pos rfl, count, count]
      simp only [Option.map_some, Option.getD_some]
      omega
    · rw [if_neg (by omega), if_neg (by omega), if_neg (by omega), count, count]
      have := ih hs.2
      omega

end Sys2Proof.Machine
end

