-- ==== Sys2Proof/Laws/Unpack.lean ====
section
/-! SUPPORT. The laws of the unpacker: everything READBIT, READ and the fetch of a token can do, in terms
of the stream bits not yet read. -/

namespace Sys2Proof.Machine

/-! The cursor. -/

theorem twoPow15_toNat (k : Fin 15) : (BitVec.twoPow 15 k.val).toNat = 2 ^ k.val := by
  rw [BitVec.toNat_twoPow, Nat.mod_eq_of_lt (Nat.pow_lt_pow_right (by omega) k.isLt)]

theorem twoPow15_ne_zero (k : Fin 15) : BitVec.twoPow 15 k.val ≠ 0 := by
  intro heq
  have := congrArg BitVec.toNat heq
  rw [twoPow15_toNat] at this
  exact absurd this (Nat.pos_iff_ne_zero.mp (Nat.two_pow_pos k.val))

theorem maskBits_zero : maskBits 0 = 0 := rfl

theorem maskBits_twoPow (k : Fin 15) : maskBits (BitVec.twoPow 15 k.val) = k.val + 1 := by
  unfold maskBits
  rw [if_neg (twoPow15_ne_zero k), twoPow15_toNat, Nat.log2_two_pow]

/-- Moving the mask one place down: from bit `k + 1` to bit `k`, and from bit 0 to none. -/
theorem mask_shift (k : Fin 15) :
    (BitVec.twoPow 15 k.val) >>> 1 =
      if k.val = 0 then 0 else BitVec.twoPow 15 (k.val - 1) := by
  revert k; decide

/-- The bit the mask marks. -/
theorem mask_and (v : BitVec 16) (k : Fin 15) :
    decide (v &&& (BitVec.twoPow 15 k.val).setWidth 16 ≠ 0) = v.getLsbD k.val := by
  have hs : (BitVec.twoPow 15 k.val).setWidth 16 = BitVec.twoPow 16 k.val := by revert k; decide
  rw [hs, BitVec.and_twoPow]
  have hk := k.isLt
  by_cases hb : v.getLsbD k.val
  · rw [if_pos hb, hb]
    have : BitVec.twoPow 16 k.val ≠ 0 := by
      intro h
      have := congrArg BitVec.toNat h
      rw [BitVec.toNat_twoPow, Nat.mod_eq_of_lt (Nat.pow_lt_pow_right (by omega) (by omega))] at this
      exact absurd this (Nat.pos_iff_ne_zero.mp (Nat.two_pow_pos k.val))
    simpa using this
  · rw [if_neg hb]
    simpa using hb

theorem topMask : (0x4000 : Payload) = BitVec.twoPow 15 (14 : Fin 15).val := by decide

/-- The bits of the current word from the mask down. -/
theorem maskList_succ (v : BitVec 16) (k : Nat) :
    (List.range (k + 1)).reverse.map v.getLsbD =
      v.getLsbD k :: (List.range k).reverse.map v.getLsbD := by
  simp [List.range_succ]

theorem wordBits_eq_reverse (w : Word) :
    wordBits w = (List.range 15).reverse.map (unstored w).getLsbD := by
  simp [wordBits, Config.payloadBits, List.range_succ]

/-- The stream bits from a word on, where a word is left. -/
theorem streamBits_drop_units (b : Buffer) {i : Nat} (h : i < b.len) :
    streamBits ((memUnits b.mem b.len).drop i) =
      wordBits (memRead b.mem i) ++ streamBits ((memUnits b.mem b.len).drop (i + 1)) := by
  have hl : i < (memUnits b.mem b.len).length := by simpa using h
  rw [List.drop_eq_getElem_cons hl, streamBits_cons]
  congr 2
  have := memUnits_getElem? b.mem b.len i
  rw [if_pos h, List.getElem?_eq_getElem hl] at this
  exact Option.some.inj this

/-! READBIT. -/

/-- What is left of the stream after the marked bit is taken. -/
theorem yieldBit_spec (s : State) (k : Fin 15) (hk : s.unpacker.umask = BitVec.twoPow 15 k.val)
    (hu : s.unpacker.uidx ≠ 0) :
    ∃ u, yieldBit s = .ok (s.unpacker.uval.getLsbD k.val) { s with unpacker := u } ∧
      CursorWf u ∧ u.uidx = s.unpacker.uidx ∧ bitPos u = bitPos s.unpacker + 1 ∧
      unreadBits s = s.unpacker.uval.getLsbD k.val :: unreadBits { s with unpacker := u } := by
  refine ⟨{ s.unpacker with umask := s.unpacker.umask >>> 1 }, ?_, ?_, rfl, ?_, ?_⟩
  · unfold yieldBit
    rw [hk, mask_and]
  · refine ⟨?_, fun h => absurd h hu⟩
    change MaskWf (s.unpacker.umask >>> 1)
    rw [hk, mask_shift]
    split_ifs with h
    · exact .inl rfl
    · exact .inr ⟨⟨k.val - 1, by omega⟩, rfl⟩
  · unfold bitPos
    change 15 * s.unpacker.uidx - maskBits (s.unpacker.umask >>> 1) = _
    rw [hk, mask_shift, maskBits_twoPow]
    have := k.isLt
    split_ifs with h
    · rw [maskBits_zero]; omega
    · rw [maskBits_twoPow ⟨k.val - 1, by omega⟩]; simp only; omega
  · unfold unreadBits
    simp only [hk, mask_shift, maskBits_twoPow, maskList_succ, List.cons_append]
    congr 2
    split_ifs with h
    · rw [h]; rfl
    · rw [maskBits_twoPow ⟨k.val - 1, by omega⟩]
      simp only
      rw [show k.val - 1 + 1 = k.val by omega]

/-- Everything READBIT can do, by the stream bits not yet read (R137). -/
theorem readBit_spec (s : State) (h : CursorWf s.unpacker) :
    (unreadBits s = [] ∧ s.unpacker.umask = 0 ∧ s.buf.len ≤ s.unpacker.uidx ∧
      readBit s = .raised (enterTrap .inputExhausted s.unpacker.uidx s)) ∨
    ∃ b u, readBit s = .ok b { s with unpacker := u } ∧ CursorWf u ∧
      unreadBits s = b :: unreadBits { s with unpacker := u } ∧
      bitPos u = bitPos s.unpacker + 1 ∧ s.unpacker.uidx ≤ u.uidx ∧
      (s.unpacker.uidx ≤ s.buf.len → u.uidx ≤ s.buf.len) := by
  unfold readBit
  by_cases hm : s.unpacker.umask = 0
  · rw [if_pos hm]
    by_cases hl : s.buf.len ≤ s.unpacker.uidx
    · rw [if_pos hl]
      refine .inl ⟨?_, hm, hl, rfl⟩
      unfold unreadBits
      rw [hm, maskBits_zero, List.drop_eq_nil_of_le (by simpa using hl)]
      rfl
    · rw [if_neg hl]
      obtain ⟨u, h1, h2, h3, h4, h5⟩ := yieldBit_spec (refill s) 14 topMask (Nat.succ_ne_zero _)
      refine .inr ⟨_, u, h1, h2, ?_, ?_, ?_, ?_⟩
      · rw [show unreadBits s = unreadBits (refill s) from ?_, h5]
        · rfl
        · unfold unreadBits refill
          simp only
          rw [hm, maskBits_zero, topMask, maskBits_twoPow,
            streamBits_drop_units s.buf (by omega), wordBits_eq_reverse]
          rfl
      · rw [h4]
        unfold bitPos refill
        simp only
        rw [hm, maskBits_zero, topMask, maskBits_twoPow]
        change 15 * (s.unpacker.uidx + 1) - (14 + 1) + 1 = 15 * s.unpacker.uidx - 0 + 1
        omega
      · rw [h3]; exact Nat.le_succ _
      · intro _; rw [h3]; change s.unpacker.uidx + 1 ≤ _; omega
  · rw [if_neg hm]
    rcases h.1 with h0 | ⟨k, hk⟩
    · exact absurd h0 hm
    · obtain ⟨u, h1, h2, h3, h4, h5⟩ := yieldBit_spec s k hk (fun h0 => hm (h.2 h0))
      exact .inr ⟨_, u, h1, h2, h5, h4, by rw [h3], fun hu => by rw [h3]; exact hu⟩

/-! READ. -/

/-- Everything READ can do, by the stream bits not yet read (R138). -/
theorem readField_spec (n : Nat) (s : State) (h : CursorWf s.unpacker) :
    (n ≤ (unreadBits s).length ∧ ∃ u,
      readField n s = .ok (fieldValue ((unreadBits s).take n)) { s with unpacker := u } ∧
      CursorWf u ∧ unreadBits { s with unpacker := u } = (unreadBits s).drop n ∧
      bitPos u = bitPos s.unpacker + n ∧
      (s.unpacker.uidx ≤ s.buf.len → u.uidx ≤ s.buf.len)) ∨
    ((unreadBits s).length < n ∧ ∃ u, CursorWf u ∧ u.umask = 0 ∧ s.buf.len ≤ u.uidx ∧
      (s.unpacker.uidx ≤ s.buf.len → u.uidx = s.buf.len) ∧
      readField n s = .raised (enterTrap .inputExhausted u.uidx { s with unpacker := u })) := by
  induction n generalizing s with
  | zero => exact .inl ⟨Nat.zero_le _, s.unpacker, rfl, h, rfl, rfl, id⟩
  | succ n ih =>
    rcases readBit_spec s h with ⟨h1, h2, h3, h4⟩ | ⟨b, u, h1, h2, h3, h4, h5, h6⟩
    · right
      refine ⟨by rw [h1]; exact Nat.succ_pos n, s.unpacker, h, h2, h3, fun hu => by omega, ?_⟩
      simp only [readField, h4]
    · rcases ih { s with unpacker := u } h2 with ⟨g1, u', g2, g3, g4, g5, g6⟩ | ⟨g1, u', g2, g3, g4, g5, g6⟩
      · left
        refine ⟨by rw [h3]; exact Nat.succ_le_succ g1, u', ?_, g3, ?_, ?_, fun hu => g6 (h6 hu)⟩
        · simp only [readField, h1, g2, h3, List.take_succ_cons, fieldValue]
        · rw [h3, List.drop_succ_cons, ← g4]
        · rw [g5, h4]; omega
      · right
        refine ⟨by rw [h3]; exact Nat.succ_lt_succ g1, u', g2, g3, g4, fun hu => g5 (h6 hu), ?_⟩
        simp only [readField, h1, g6]

/-- A value READ gives back is below 2 to the width (R138). -/
theorem readField_lt (n : Nat) (s : State) {v : Nat} {t : State} (h : readField n s = .ok v t) :
    v < 2 ^ n := by
  induction n generalizing s v t with
  | zero => cases h; exact Nat.one_pos
  | succ n ih =>
    unfold readField at h
    cases hb : readBit s with
    | raised t1 => rw [hb] at h; cases h
    | ok b s1 =>
      rw [hb] at h
      cases hr : readField n s1 with
      | raised t1 => simp only [hr] at h; cases h
      | ok w s2 =>
        simp only [hr] at h
        cases h
        have := ih s1 hr
        have := b.toNat_le
        rw [pow_succ]
        omega

/-- READBIT writes the unpacker alone, or raises. -/
theorem readBit_frame (s : State) :
    (∃ b u, readBit s = .ok b { s with unpacker := u }) ∨
      readBit s = .raised (enterTrap .inputExhausted s.unpacker.uidx s) := by
  unfold readBit
  split_ifs
  · exact .inr rfl
  · exact .inl ⟨_, _, rfl⟩
  · exact .inl ⟨_, _, rfl⟩

/-- READ writes the unpacker alone, or raises from a state that differs in the unpacker alone. -/
theorem readField_frame (n : Nat) (s : State) :
    (∃ v u, readField n s = .ok v { s with unpacker := u }) ∨
    ∃ u, readField n s = .raised (enterTrap .inputExhausted u.uidx { s with unpacker := u }) := by
  induction n generalizing s with
  | zero => exact .inl ⟨0, s.unpacker, rfl⟩
  | succ n ih =>
    rcases readBit_frame s with ⟨b, u, h⟩ | h
    · rcases ih { s with unpacker := u } with ⟨v, u', g⟩ | ⟨u', g⟩
      · exact .inl ⟨b.toNat + 2 * v, u', by simp only [readField, h, g]⟩
      · exact .inr ⟨u', by simp only [readField, h, g]⟩
    · exact .inr ⟨s.unpacker, by simp only [readField, h]⟩

/-! The token at the cursor. -/

/-- The fetch of a token agrees with the decoder on the stream bits not yet read (R102, R138, R184). -/
theorem fetchToken_spec (ctx : TokenCtx) (s : State) (h : CursorWf s.unpacker) :
    (∃ i rest u code, decodeToken ctx (unreadBits s) = .ok (i, rest) ∧ tokenCode i = some code ∧
      fetchToken ctx s = .ok i { s with unpacker := u, dec := { s.dec with code := code } } ∧
      CursorWf u ∧ unreadBits { s with unpacker := u } = rest ∧
      bitPos u = bitPos s.unpacker + codeWidth ctx + symWidth code ∧
      (s.unpacker.uidx ≤ s.buf.len → u.uidx ≤ s.buf.len)) ∨
    (∃ e u d, decodeToken ctx (unreadBits s) = .error e ∧ CursorWf u ∧ u.umask = 0 ∧
      s.buf.len ≤ u.uidx ∧ (s.unpacker.uidx ≤ s.buf.len → u.uidx = s.buf.len) ∧
      d.prev = s.dec.prev ∧ d.entry = s.dec.entry ∧
      fetchToken ctx s =
        .raised (enterTrap .inputExhausted u.uidx { s with unpacker := u, dec := d })) := by
  unfold decodeToken fetchToken takeField
  rcases readField_spec (codeWidth ctx) s h with ⟨h1, u, h2, h3, h4, h5, h6⟩ | ⟨h1, u, h2, h3, h4, h5, h6⟩
  · simp only [h1, if_true, h2]
    set c := fieldValue ((unreadBits s).take (codeWidth ctx)) with hc
    have hlt : c < 2 ^ codeWidth ctx := by
      have := fieldValue_lt ((unreadBits s).take (codeWidth ctx))
      rwa [List.length_take_of_le h1] at this
    have hu : unreadBits (setCode c { s with unpacker := u }) = (unreadBits s).drop (codeWidth ctx) :=
      h4
    rcases readField_spec (symWidth c) (setCode c { s with unpacker := u }) h3 with
      ⟨g1, u', g2, g3, g4, g5, g6⟩ | ⟨g1, u', g2, g3, g4, g5, g6⟩
    · left
      rw [hu] at g1 g2 g4
      simp only [g1, if_true, g2]
      refine ⟨_, _, u', c, rfl, tokenCode_assemble ctx c _ hlt, rfl, g3, g4, ?_, fun hb => g6 (h6 hb)⟩
      rw [g5]
      change bitPos u + _ = _
      rw [h5]
    · right
      rw [hu] at g1
      rw [if_neg (Nat.not_le.mpr g1)]
      simp only [g6]
      exact ⟨.streamEndsInField, u', { s.dec with code := c }, trivial, g2, g3, g4, fun hb => g5 (h6 hb), rfl, rfl, rfl⟩
  · right
    rw [if_neg (Nat.not_le.mpr h1)]
    simp only [h6]
    exact ⟨.streamEndsInField, u, s.dec, trivial, h2, h3, h4, h5, rfl, rfl, rfl⟩

end Sys2Proof.Machine
end

