-- ==== Sys2Proof/Laws/Decoder.lean ====
section
/-! SUPPORT. The laws of the decoder: a token's fields as operands, what DPRO, DSTEP and DECODE leave
alone, and where they can leave the phase, the cursor and the diagnosis. -/

namespace Sys2Proof.Machine

/-- What the decoder leaves alone: the host's inputs, BUF, the packer, the encoder's registers, the
cipher and the return port. -/
structure SameButDecoder (s t : State) : Prop where
  port : t.port = s.port
  buf : t.buf = s.buf
  packer : t.packer = s.packer
  enc : t.enc = s.enc
  cipher : t.cipher = s.cipher
  ret : t.ret = s.ret

theorem SameButDecoder.refl (s : State) : SameButDecoder s s := ⟨rfl, rfl, rfl, rfl, rfl, rfl⟩

theorem SameButDecoder.trans {s t u : State} (h : SameButDecoder s t) (h' : SameButDecoder t u) :
    SameButDecoder s u :=
  ⟨h'.1.trans h.1, h'.2.trans h.2, h'.3.trans h.3, h'.4.trans h.4, h'.5.trans h.5, h'.6.trans h.6⟩

/-- A cursor a READ moved to: a cursor still, and no further than the end of BUF. -/
def Moved (s : State) (u : Unpacker) : Prop :=
  CursorWf s.unpacker → CursorWf u ∧ (s.unpacker.uidx ≤ s.buf.len → u.uidx ≤ s.buf.len)

/-- A cursor at which a READ raised: at the end of BUF. -/
def RanOut (s : State) (u : Unpacker) : Prop :=
  Moved s u ∧ (CursorWf s.unpacker → s.unpacker.uidx ≤ s.buf.len → u.uidx = s.buf.len)

/-- A second READ, after the code is put into CODE. -/
theorem Moved.then {s : State} {u u' : Unpacker} {v : Nat} (h : Moved s u)
    (h' : Moved (setCode v { s with unpacker := u }) u') : Moved s u' := by
  intro hc
  have h1 := h hc
  have h2 := h' h1.1
  exact ⟨h2.1, fun hl => h2.2 (h1.2 hl)⟩

theorem Moved.thenRanOut {s : State} {u u' : Unpacker} {v : Nat} (h : Moved s u)
    (h' : RanOut (setCode v { s with unpacker := u }) u') : RanOut s u' := by
  refine ⟨h.then h'.1, fun hc hl => ?_⟩
  have h1 := h hc
  exact h'.2 h1.1 (h1.2 hl)

/-- What a READ can do, as far as what goes on from it is concerned. -/
theorem readField_cases {P : State → Prop} (n : Nat) (s : State) (k : Nat → State → State)
    (hok : ∀ (v : Nat) (u : Unpacker), v < 2 ^ n → Moved s u →
      readField n s = .ok v { s with unpacker := u } → P (k v { s with unpacker := u }))
    (hraise : ∀ u : Unpacker, RanOut s u →
      P (enterTrap .inputExhausted u.uidx { s with unpacker := u })) :
    P (match readField n s with | .raised t => t | .ok v t => k v t) := by
  by_cases hc : CursorWf s.unpacker
  · rcases readField_spec n s hc with ⟨_, u, h, h1, _, _, h2⟩ | ⟨_, u, h1, _, _, h2, h⟩
    · have := hok _ u (readField_lt n s h) (fun _ => ⟨h1, h2⟩) h
      simpa only [h] using this
    · have := hraise u ⟨fun _ => ⟨h1, fun hl => Nat.le_of_eq (h2 hl)⟩, fun _ => h2⟩
      simpa only [h] using this
  · rcases readField_frame n s with ⟨v, u, h⟩ | ⟨u, h⟩
    · have := hok v u (readField_lt n s h) (fun h => absurd h hc) h
      simpa only [h] using this
    · have := hraise u ⟨fun h => absurd h hc, fun h => absurd h hc⟩
      simpa only [h] using this

/-- Case analysis of DPRO (R171): to show a property of the state it leaves, show it of each of the
states it can end in. -/
theorem prologue_cases {P : State → Prop} (s : State)
    (lit : ∀ (c : Sym) (u : Unpacker) (code : Nat), Moved s u →
      P (firstLiteral c { s with unpacker := u, dec := { s.dec with code := code } }))
    (fin : ∀ u : Unpacker, Moved s u →
      P (endFirst { s with unpacker := u, dec := { s.dec with code := 2 } }))
    (bad : ∀ (u : Unpacker) (code : Nat), Moved s u →
      P (illegalFirst { s with unpacker := u, dec := { s.dec with code := code } }))
    (out : ∀ (u : Unpacker) (code : Nat), RanOut s u → P (enterTrap .inputExhausted u.uidx
      { s with unpacker := u, dec := { s.dec with code := code } })) :
    P (prologue s) := by
  unfold prologue
  refine readField_cases (P := P) _ s _ (fun v u _ hu _ => ?_) fun u hu => out u s.dec.code hu
  dsimp only
  split
  · exact readField_cases (P := P) _ _ _ (fun _ u' _ hu' _ => lit _ u' v (hu.then hu'))
      fun u' hu' => out u' v (hu.thenRanOut hu')
  · split
    · exact readField_cases (P := P) _ _ _ (fun _ u' _ hu' _ => lit _ u' v (hu.then hu'))
        fun u' hu' => out u' v (hu.thenRanOut hu')
    · split
      · rename_i h; subst h; exact fin u hu
      · exact bad u v hu

/-- Case analysis of DSTEP (R172). -/
theorem decodeStep_cases {P : State → Prop} (s : State)
    (lit : ∀ (c : Sym) (u : Unpacker) (code : Nat), Moved s u →
      P (applyEntry (literal c { s with unpacker := u, dec := { s.dec with code := code } })))
    (fin : ∀ u : Unpacker, Moved s u →
      P (endStream { s with unpacker := u, dec := { s.dec with code := 2 } }))
    (ref : ∀ (u : Unpacker) (code : Nat), Moved s u → 3 ≤ code → code < s.width.nextId →
      P (applyEntry (reference code { s with unpacker := u, dec := { s.dec with code := code } })))
    (sref : ∀ (u : Unpacker) (code : Nat), Moved s u → code = s.width.nextId →
      P (applyEntry (selfReference { s with unpacker := u, dec := { s.dec with code := code } })))
    (bad : ∀ (u : Unpacker) (code : Nat), Moved s u → s.width.nextId < code →
      P (illegalCode code { s with unpacker := u, dec := { s.dec with code := code } }))
    (out : ∀ (u : Unpacker) (code : Nat), RanOut s u → P (enterTrap .inputExhausted u.uidx
      { s with unpacker := u, dec := { s.dec with code := code } })) :
    P (decodeStep s) := by
  unfold decodeStep
  refine readField_cases (P := P) _ s _ (fun v u _ hu _ => ?_) fun u hu => out u s.dec.code hu
  dsimp only
  split
  · exact readField_cases (P := P) _ _ _ (fun _ u' _ hu' _ => lit _ u' v (hu.then hu'))
      fun u' hu' => out u' v (hu.thenRanOut hu')
  · split
    · exact readField_cases (P := P) _ _ _ (fun _ u' _ hu' _ => lit _ u' v (hu.then hu'))
        fun u' hu' => out u' v (hu.thenRanOut hu')
    · split
      · rename_i h; subst h; exact fin u hu
      · rename_i h0 h1 h2
        simp only [Config.codeLit8, Config.codeLit16, Config.codeEnd] at h0 h1 h2
        split
        · rename_i h; exact ref u v hu (by omega) h
        · split
          · rename_i h; exact sref u v hu h
          · rename_i h h'
            simp only [setCode_width] at h h'
            exact bad u v hu (by omega)

theorem prologue_same (s : State) : SameButDecoder s (prologue s) := by
  apply prologue_cases (P := SameButDecoder s) s <;> intros <;> exact ⟨rfl, rfl, rfl, rfl, rfl, rfl⟩

theorem decodeStep_same (s : State) : SameButDecoder s (decodeStep s) := by
  apply decodeStep_cases (P := SameButDecoder s) s <;> intros <;> exact ⟨rfl, rfl, rfl, rfl, rfl, rfl⟩

theorem decoderInit_same (s : State) : SameButDecoder s (decoderInit s) := ⟨rfl, rfl, rfl, rfl, rfl, rfl⟩

theorem decodeStream_same (s : State) : SameButDecoder s (decodeStream s) :=
  whileUpTo_inv (P := SameButDecoder s) (fun _ _ h => h.trans (decodeStep_same _)) _ _
    ((decoderInit_same s).trans (prologue_same _))

@[simp] theorem appendOutAll_null (o : OutPort) (p : Phrase) : (appendOutAll o p).null = o.null := by
  induction p generalizing o with
  | nil => rfl
  | cons c p ih => exact ih _

@[simp] theorem appendOutAll_dcause (o : OutPort) (p : Phrase) :
    (appendOutAll o p).dcause = o.dcause := by
  induction p generalizing o with
  | nil => rfl
  | cons c p ih => exact ih _

@[simp] theorem appendOutAll_dinfo (o : OutPort) (p : Phrase) :
    (appendOutAll o p).dinfo = o.dinfo := by
  induction p generalizing o with
  | nil => rfl
  | cons c p ih => exact ih _

/-- A token step of the decoder either leaves OUT_NULL and the diagnosis, or raises. -/
theorem decodeStep_diagnosis (s : State) :
    ((decodeStep s).out.null = s.out.null ∧ (decodeStep s).out.dcause = s.out.dcause ∧
      (decodeStep s).out.dinfo = s.out.dinfo) ∨
    ∃ c n t, decodeStep s = enterTrap c n t := by
  apply decodeStep_cases (P := fun t => (t.out.null = s.out.null ∧ t.out.dcause = s.out.dcause ∧
    t.out.dinfo = s.out.dinfo) ∨ ∃ c n u, t = enterTrap c n u) s
  · intros; left; simp
  · intros; left; exact ⟨rfl, rfl, rfl⟩
  · intros; left; simp
  · intros; left; simp
  · intros; right; exact ⟨_, _, _, rfl⟩
  · intros; right; exact ⟨_, _, _, rfl⟩

end Sys2Proof.Machine
end

