-- ==== Sys2Proof/Laws/Command.lean ====
section
/-! SUPPORT. The laws of the host commands: the cases of COMPRESS and DECOMPRESS, the cipher where it is
bypassed and where it is engaged, and what the copies leave. -/

namespace Sys2Proof.Machine

/-- The test of R231 is the one ENCRYPT makes itself (R216). -/
theorem encryptIfEngaged_eq (s : State) : encryptIfEngaged s = encryptAll s := by
  unfold encryptIfEngaged encryptAll
  split <;> rfl

/-- The test of R232 is the one DECRYPT makes itself (R216). -/
theorem decryptIfEngaged_eq (s : State) : decryptIfEngaged s = decryptAll s := by
  unfold decryptIfEngaged decryptAll
  split <;> rfl

theorem encryptIfEngaged_only (s : State) : CipherOnly s (encryptIfEngaged s) := by
  rw [encryptIfEngaged_eq]
  exact (encryptAll_only s).1

theorem decryptIfEngaged_only (s : State) : CipherOnly s (decryptIfEngaged s) := by
  rw [decryptIfEngaged_eq]
  exact (decryptAll_only s).1

/-- The three ways COMPRESS can go (R231). -/
theorem compressText_cases (s : State) :
    (s.port.inNull = true ∧ compressText s = absentResult (commandStart s)) ∨
    (s.port.inNull = false ∧ s.port.inLen = 0 ∧ compressText s = endCommand (commandStart s)) ∨
    (s.port.inNull = false ∧ 1 ≤ s.port.inLen ∧
      compressText s = endCommand (copyOut (encryptIfEngaged (encodeText (commandStart s))))) := by
  unfold compressText
  by_cases hn : s.port.inNull = true
  · exact .inl ⟨hn, if_pos hn⟩
  · refine .inr ?_
    by_cases hl : s.port.inLen = 0
    · exact .inl ⟨by simpa using hn, hl, (if_neg hn).trans (if_pos hl)⟩
    · exact .inr ⟨by simpa using hn, Nat.one_le_iff_ne_zero.2 hl,
        (if_neg hn).trans (if_neg hl)⟩

/-- The three ways DECOMPRESS can go (R232). -/
theorem decompressText_cases (s : State) :
    (s.port.inNull = true ∧ decompressText s = absentResult (commandStart s)) ∨
    (s.port.inNull = false ∧ s.port.inLen = 0 ∧ decompressText s = endCommand (commandStart s)) ∨
    (s.port.inNull = false ∧ 1 ≤ s.port.inLen ∧
      decompressText s = decodeStream (decryptIfEngaged (copyIn (commandStart s)))) := by
  unfold decompressText
  by_cases hn : s.port.inNull = true
  · exact .inl ⟨hn, if_pos hn⟩
  · refine .inr ?_
    by_cases hl : s.port.inLen = 0
    · exact .inl ⟨by simpa using hn, hl, (if_neg hn).trans (if_pos hl)⟩
    · exact .inr ⟨by simpa using hn, Nat.one_le_iff_ne_zero.2 hl,
        (if_neg hn).trans (if_neg hl)⟩

/-- After the copy-out OUT is BUF (R231). -/
theorem outUnits_copyOut (s : State) : outUnits (copyOut s) = bufWords s := memUnits_memCopy ..

/-- After the copy-in BUF is IN (R232). -/
theorem bufWords_copyIn (s : State) : bufWords (copyIn s) = inUnits s := memUnits_memCopy ..

end Sys2Proof.Machine
end

