-- ==== Sys2Proof/Laws/Pack.lean ====
section
/-! SUPPORT. The laws of the packer: everything PUSHBIT, PUSH and FLUSH do, in terms of the stream bits
sent and held. -/

namespace Sys2Proof.Machine

/-- The packer holds POS bits: ACC is below `2^POS` (R39). -/
abbrev PackerWf (p : Packer) : Prop := p.acc.toNat < 2 ^ p.pos.val

/-- The bits the packer holds, in stream order. -/
def heldBits (p : Packer) : List Bool := (fieldBits p.acc.toNat p.pos.val).reverse

/-- The stream bits of a buffer's words. -/
def bufferBits (b : Buffer) : List Bool := streamBits (memUnits b.mem b.len)

@[simp] theorem heldBits_length (p : Packer) : (heldBits p).length = p.pos.val := by simp [heldBits]

@[simp] theorem bufferBits_length (b : Buffer) : (bufferBits b).length = 15 * b.len := by
  simp [bufferBits, streamBits_length]

theorem bufferBits_appendBuf (b : Buffer) (v : Word) :
    bufferBits (appendBuf b v) = bufferBits b ++ wordBits v := by
  unfold bufferBits
  rw [appendBuf_units, streamBits_append]
  simp

theorem shiftIn_toNat (acc : Payload) (b : Bool) :
    (shiftIn acc b).toNat = (2 * acc.toNat + b.toNat) % 2 ^ 15 := by
  have h2 : 2 * acc.toNat % 2 ^ 15 = 2 ^ 1 * (acc.toNat % 2 ^ 14) := by omega
  have hb : b.toNat < 2 ^ 1 := b.toNat_lt
  have h1 : (if b then 1 else 0 : Payload).toNat = b.toNat := by cases b <;> rfl
  unfold shiftIn
  rw [BitVec.toNat_or, BitVec.toNat_shiftLeft, Nat.shiftLeft_eq, pow_one, Nat.mul_comm, h1, h2,
    ← Nat.two_pow_add_eq_or_of_lt hb]
  omega

theorem fieldBits_reverse_shiftIn (a n : Nat) (b : Bool) :
    (fieldBits (2 * a + b.toNat) (n + 1)).reverse = (fieldBits a n).reverse ++ [b] := by
  rw [fieldBits_succ]
  have h1 : (2 * a + b.toNat) / 2 = a := by have := b.toNat_le; omega
  have h2 : (2 * a + b.toNat).testBit 0 = b := by
    rw [Nat.testBit_zero]
    cases b <;> simp
  rw [h1, h2, List.reverse_cons]

/-- Everything PUSHBIT does (R130): one more stream bit, sent or held, and at most one word appended,
which is in the wire range. -/
theorem pushBit_spec (s : State) (b : Bool) (h : PackerWf s.packer) :
    ∃ buf p, pushBit s b = { s with buf := buf, packer := p } ∧ PackerWf p ∧
      bufferBits buf ++ heldBits p = bufferBits s.buf ++ heldBits s.packer ++ [b] ∧
      (buf = s.buf ∨ ∃ v, WireRange v ∧ buf = appendBuf s.buf v) := by
  have hlt : 2 * s.packer.acc.toNat + b.toNat < 2 ^ (s.packer.pos.val + 1) := by
    have := b.toNat_le
    rw [pow_succ]
    unfold PackerWf at h
    omega
  have hn := s.packer.pos.isLt
  have hacc : (shiftIn s.packer.acc b).toNat = 2 * s.packer.acc.toNat + b.toNat := by
    rw [shiftIn_toNat, Nat.mod_eq_of_lt]
    exact Nat.lt_of_lt_of_le hlt (Nat.pow_le_pow_right (by omega) (by omega))
  unfold pushBit
  split_ifs with hp
  · refine ⟨_, _, rfl, Nat.one_pos, ?_, .inr ⟨_, stored_range _, rfl⟩⟩
    rw [bufferBits_appendBuf, wordBits_stored, hacc, fieldBits_reverse_shiftIn]
    unfold heldBits
    rw [hp]
    simp [fieldBits]
  · have hpos : (s.packer.pos + 1).val = s.packer.pos.val + 1 := by
      have : s.packer.pos.val ≠ 14 := fun h14 => hp (Fin.ext h14)
      rw [Fin.val_add_one_of_lt']
      omega
    refine ⟨s.buf, { acc := shiftIn s.packer.acc b, pos := s.packer.pos + 1 }, rfl, ?_, ?_, .inl rfl⟩
    · change (shiftIn s.packer.acc b).toNat < 2 ^ (s.packer.pos + 1).val
      rw [hacc, hpos]
      exact hlt
    · unfold heldBits
      simp only
      rw [hacc, hpos, fieldBits_reverse_shiftIn, List.append_assoc]

/-- One buffer is another with words of the wire range appended. -/
inductive BufExtends (b : Buffer) : Buffer → Prop where
  | same : BufExtends b b
  | snoc {b' : Buffer} (v : Word) : BufExtends b b' → WireRange v → BufExtends b (appendBuf b' v)

theorem BufExtends.trans {a b c : Buffer} (h : BufExtends a b) (h' : BufExtends b c) :
    BufExtends a c := by
  induction h' with
  | same => exact h
  | snoc v _ hv ih => exact .snoc v ih hv

theorem BufExtends.wf {a b : Buffer} (h : BufExtends a b) (ha : MemWf a.mem) : MemWf b.mem := by
  induction h with
  | same => exact ha
  | snoc v _ _ ih => exact memWrite_wf _ _ ih

theorem BufExtends.len_le {a b : Buffer} (h : BufExtends a b) : a.len ≤ b.len := by
  induction h with
  | same => exact Nat.le_refl _
  | snoc v _ _ ih => exact Nat.le_succ_of_le ih

theorem BufExtends.words {a b : Buffer} (h : BufExtends a b) :
    ∃ ws, (∀ w ∈ ws, WireRange w) ∧ memUnits b.mem b.len = memUnits a.mem a.len ++ ws := by
  induction h with
  | same => exact ⟨[], by simp, by simp⟩
  | @snoc b' v _ hv ih =>
    obtain ⟨ws, h1, h2⟩ := ih
    refine ⟨ws ++ [v], ?_, ?_⟩
    · intro w hw
      rcases List.mem_append.mp hw with hw | hw
      · exact h1 w hw
      · rw [List.mem_singleton.mp hw]; exact hv
    · rw [appendBuf_units, h2, List.append_assoc]

/-- Everything pushing a sequence of stream bits does (R131, R132). -/
theorem pushBits_spec (bs : List Bool) (s : State) (h : PackerWf s.packer) :
    ∃ buf p, pushBits bs s = { s with buf := buf, packer := p } ∧ PackerWf p ∧
      bufferBits buf ++ heldBits p = bufferBits s.buf ++ heldBits s.packer ++ bs ∧
      BufExtends s.buf buf := by
  induction bs generalizing s with
  | nil => exact ⟨s.buf, s.packer, rfl, h, by simp, .same⟩
  | cons b bs ih =>
    obtain ⟨buf, p, h1, h2, h3, h4⟩ := pushBit_spec s b h
    obtain ⟨buf', p', g1, g2, g3, g4⟩ := ih { s with buf := buf, packer := p } h2
    refine ⟨buf', p', ?_, g2, ?_, ?_⟩
    · change pushBits bs (pushBit s b) = _
      rw [h1, g1]
    · rw [g3]
      change bufferBits buf ++ heldBits p ++ bs = _
      rw [h3]
      simp
    · refine BufExtends.trans ?_ g4
      rcases h4 with rfl | ⟨v, hv, rfl⟩
      · exact .same
      · exact .snoc v .same hv

theorem pushBits_append (a b : List Bool) (s : State) :
    pushBits (a ++ b) s = pushBits b (pushBits a s) := List.foldl_append

/-- FLUSH sends what is held and zeros up to the end of the word (R133). -/
theorem flushWord_spec (s : State) (h : PackerWf s.packer) :
    ∃ v, WireRange v ∧
      flushWord s = { s with buf := appendBuf s.buf v, packer := { acc := 0, pos := 0 } } ∧
      wordBits v = heldBits s.packer ++ List.replicate (15 - s.packer.pos.val) false := by
  refine ⟨_, stored_range _, rfl, ?_⟩
  have hn := s.packer.pos.isLt
  have hp : s.packer.acc.toNat * 2 ^ (15 - s.packer.pos.val) < 2 ^ 15 := by
    calc s.packer.acc.toNat * 2 ^ (15 - s.packer.pos.val)
        < 2 ^ s.packer.pos.val * 2 ^ (15 - s.packer.pos.val) :=
          Nat.mul_lt_mul_of_pos_right h (Nat.two_pow_pos _)
      _ = 2 ^ 15 := by rw [← pow_add]; congr 1; omega
  rw [wordBits_stored, BitVec.toNat_shiftLeft, Nat.shiftLeft_eq, Nat.mod_eq_of_lt hp]
  unfold heldBits
  have key : ∀ n a k : Nat, fieldBits (a * 2 ^ k) (k + n) =
      List.replicate k false ++ fieldBits a n := by
    intro n a k
    induction k with
    | zero => simp
    | succ k ih =>
      rw [Nat.add_right_comm, fieldBits_succ, List.replicate_succ, List.cons_append, ← ih, pow_succ]
      congr 1
      · rw [Nat.testBit_zero]; simp [← Nat.mul_assoc]
      · congr 1
        rw [← Nat.mul_assoc]
        omega
  have := key s.packer.pos.val s.packer.acc.toNat (15 - s.packer.pos.val)
  rw [show 15 - s.packer.pos.val + s.packer.pos.val = 15 by omega] at this
  rw [this]
  simp

end Sys2Proof.Machine
end

