-- ==== Sys2Proof/Laws/PerInstr.lean ====
section
/-! SUPPORT. The width of an encoding, per instruction (R102, R103, R109): what `encode` writes for a
token is its code field and the symbol field its format names, and an operation that is no token has
no token encoding. -/

namespace Sys2Proof.Laws.EncodedWidth

open Sys2Proof

/-- The width of the symbol field of a token's format: T8, T16 or T0 (R103). -/
def symBits : Instr → Nat
  | .lit8P _ | .lit8 _ => 8
  | .lit16P _ | .lit16 _ => 16
  | _ => 0

/-- Where the operation has a token encoding, the encoding is as wide as its code field at that place
and the symbol field of its format together. -/
def Statement (i : Instr) : Prop :=
  ∀ (ctx : TokenCtx) (bs : List Bool), encode ctx i = some bs →
    bs.length = codeWidth ctx + symBits i

/-- A token's encoding has the width of its two fields. -/
theorem of_token {i : Instr} (hs : (tokenSymBits i).length = symBits i) : Statement i := by
  intro ctx bs h
  unfold encode at h
  cases hc : tokenCode i with
  | none => rw [hc] at h; cases h
  | some code =>
    rw [hc] at h
    cases h
    rw [List.length_append, hs]
    simp [fieldBits]

/-- An operation that is no token has no encoding. -/
theorem of_none {i : Instr} (hc : tokenCode i = none) : Statement i := by
  intro ctx bs h
  unfold encode at h
  rw [hc] at h
  cases h

theorem lit8P (sym : BitVec 8) : Statement (.lit8P sym) :=
  of_token (by simp [tokenSymBits, symBits, fieldBits])
theorem lit16P (sym : BitVec 16) : Statement (.lit16P sym) :=
  of_token (by simp [tokenSymBits, symBits, fieldBits])
theorem endP : Statement .endP := of_token rfl
theorem illegalP : Statement .illegalP := of_token rfl
theorem lit8 (sym : BitVec 8) : Statement (.lit8 sym) :=
  of_token (by simp [tokenSymBits, symBits, fieldBits])
theorem lit16 (sym : BitVec 16) : Statement (.lit16 sym) :=
  of_token (by simp [tokenSymBits, symBits, fieldBits])
theorem endTok : Statement .endTok := of_token rfl
theorem ref (id : Nat) : Statement (.ref id) := of_token rfl
theorem sref (id : Nat) : Statement (.sref id) := of_token rfl
theorem illegal (code : Nat) : Statement (.illegal code) := of_token rfl
theorem compress : Statement .compress := of_none rfl
theorem decompress : Statement .decompress := of_none rfl
theorem pinit : Statement .pinit := of_none rfl
theorem pushBit (b : Bool) : Statement (.pushBit b) := of_none rfl
theorem push (value width : Nat) : Statement (.push value width) := of_none rfl
theorem flush : Statement .flush := of_none rfl
theorem uinit : Statement .uinit := of_none rfl
theorem readBit : Statement .readBit := of_none rfl
theorem read (width : Nat) : Statement (.read width) := of_none rfl
theorem einit : Statement .einit := of_none rfl
theorem tick : Statement .tick := of_none rfl
theorem ereg (c : Sym) : Statement (.ereg c) := of_none rfl
theorem eemit : Statement .eemit := of_none rfl
theorem esym : Statement .esym := of_none rfl
theorem efin : Statement .efin := of_none rfl
theorem encode : Statement .encode := of_none rfl
theorem dinit : Statement .dinit := of_none rfl
theorem dpro : Statement .dpro := of_none rfl
theorem dstep : Statement .dstep := of_none rfl
theorem dapply : Statement .dapply := of_none rfl
theorem decode : Statement .decode := of_none rfl
theorem kinc (key : Key) : Statement (.kinc key) := of_none rfl
theorem kseed (key : Key) : Statement (.kseed key) := of_none rfl
theorem mix (r : Key) : Statement (.mix r) := of_none rfl
theorem kstep (dir : Dir) : Statement (.kstep dir) := of_none rfl
theorem lane (r : Key) (j : Fin 4) : Statement (.lane r j) := of_none rfl
theorem xw (i : Nat) (lane : Payload) : Statement (.xw i lane) := of_none rfl
theorem epass (key : Key) : Statement (.epass key) := of_none rfl
theorem dpass (key : Key) : Statement (.dpass key) := of_none rfl
theorem encrypt : Statement .encrypt := of_none rfl
theorem decrypt : Statement .decrypt := of_none rfl
theorem cstart : Statement .cstart := of_none rfl
theorem insert (p : Phrase) (pending : Bool) : Statement (.insert p pending) := of_none rfl
theorem find (p : Phrase) : Statement (.find p) := of_none rfl
theorem isPending (id : Nat) : Statement (.isPending id) := of_none rfl
theorem clearPending (id : Nat) : Statement (.clearPending id) := of_none rfl
theorem raise (cause : Cause) (info : Nat) : Statement (.raise cause info) := of_none rfl

end Sys2Proof.Laws.EncodedWidth
end

