-- ==== Sys2Proof/Tests/Slice0.lean ====
section
/-! SUPPORT. Tests: ill-formed operations, words written out from the encodings of the spec, single steps
against the vectors of spec/95_test_vectors.md, and a witness for the hypotheses of every statement. -/

namespace Sys2Proof.Tests

open Sys2Proof Sys2Proof.Machine

/-! Small states. -/

/-- The reset block with these words in BUF. -/
def block (ws : List Word) : State :=
  { State.reset with buf := { mem := memWriteFrom [] 0 ws, len := ws.length } }

/-- The same block about to take in its first token. -/
def stream (ws : List Word) : State := { block ws with phase := .firstToken }

/-- The reset block with these inputs. -/
def loaded (text : List Sym) (keys : List Key) : State :=
  { State.reset with port := hostWriteKeys (some keys) (hostWriteInput (some text) State.reset.port) }

/-- What a field of the next state is; none where the step stops. -/
def seen {α : Type} (f : State → α) : Host.Outcome State Fault Refusal → Option α
  | .next s => some (f s)
  | .fault _ => none
  | .refused _ => none

/-- One command of the host on the reset block: the output and the diagnosis. -/
def command (input : Option (List Sym)) (keys : Option (List Key)) (op : BitVec 1) :
    Option (Option (List (BitVec 16)) × BitVec 2 × Nat) :=
  (hostStart input keys op State.reset).bind fun s =>
    seen (fun t => (output t, t.out.dcause, t.out.dinfo)) (step s)

/-- "abcabcabcabc" (V23). -/
def abc4 : List Sym := [0x61, 0x62, 0x63, 0x61, 0x62, 0x63, 0x61, 0x62, 0x63, 0x61, 0x62, 0x63]

/-! WellFormed refuses a term for each check it makes. -/

theorem test_wf_refuses : [Instr.push 4 2, .ref 2, .sref 3, .illegal 4, .insert [] false,
    .insert [0x61, 0x62] true, .isPending 2, .clearPending 2, .raise .unknownCode 4,
    .raise .badFirstCode 2].all (fun i => !i.wf) = true := by decide

theorem test_wf_admits : [Instr.push 3 2, .ref 3, .sref 4, .illegal 5, .insert [0x61] true,
    .insert [0x61, 0x62] false, .isPending 3, .clearPending 3, .raise .unknownCode 5,
    .raise .badFirstCode 3, .raise .inputExhausted 0].all Instr.wf = true := by decide

/-! Decoding: stream bits written out from the formats of 30_encoding.md, least significant bit of a field
first (R72). -/

/-- LIT8.P, `00ssssssss`, symbol 0x61 (V16). -/
theorem test_decode_lit8P : decodeToken .first
    [false, false, true, false, false, false, false, true, true, false] = .ok (.lit8P 0x61, []) := by
  decide

/-- LIT16.P, `10ssssssssssssssss`, symbol 0x100 (V22). -/
theorem test_decode_lit16P : decodeToken .first
    [true, false, false, false, false, false, false, false, false, false, true, false, false, false,
      false, false, false, false] = .ok (.lit16P 0x100, []) := by decide

/-- END.P `01` and ILLEGAL.P `11` (V40, V41). -/
theorem test_decode_first_end : decodeToken .first [false, true, true] = .ok (.endP, [true]) := by decide
theorem test_decode_illegalP : decodeToken .first [true, true] = .ok (.illegalP, []) := by decide

/-- LIT8, LIT16 and END under a 3-bit code (V17, V24). -/
theorem test_decode_lit8 : decodeToken (.later 3 4)
    [false, false, false, false, true, false, false, false, true, true, false] =
      .ok (.lit8 0x62, []) := by decide
theorem test_decode_lit16 : decodeToken (.later 3 4)
    [true, false, false, false, false, false, false, false, false, false, false, true, false, false,
      false, false, false, false, false] = .ok (.lit16 0x100, []) := by decide
theorem test_decode_end : decodeToken (.later 3 4) [false, true, false] = .ok (.endTok, []) := by decide

/-- REF, SREF and ILLEGAL share a format; the value against NEXTID selects (R109; V19, V18, V44). -/
theorem test_decode_ref : decodeToken (.later 3 6) [true, false, true] = .ok (.ref 5, []) := by decide
theorem test_decode_sref : decodeToken (.later 3 4) [false, false, true] = .ok (.sref 4, []) := by decide
theorem test_decode_illegal :
    decodeToken (.later 3 4) [true, false, true] = .ok (.illegal 5, []) := by decide

/-- A field that does not fit the rest of the stream is no token (R110 c). -/
theorem test_decode_short : decodeToken .first [false, false, true] = .error .streamEndsInField := by
  decide

/-- A write of CMD (R114), and first tokens by the table's numbering, bit 0 first. -/
theorem test_decode_commands : decodeTableWord 8 0 = some .compress ∧
    decodeTableWord 8 1 = some .decompress := by decide
theorem test_decode_tableWords : decodeTableWord 16 0x184 = some (.lit8P 0x61) ∧
    decodeTableWord 24 0x401 = some (.lit16P 0x100) ∧ decodeTableWord 8 2 = some .endP ∧
    decodeTableWord 8 3 = some .illegalP := by decide

/-- The next step runs what `withFetchWord` placed. -/
theorem test_withFetchWord :
    seen (fun s => (outUnits s, s.width)) (step (State.reset.withFetchWord 16 0x184)) =
      some ([0x61], { numBits := 3, enlargeIn := 4, nextId := 4 }) ∧
    seen (fun s => s.out.dcause) (step (State.reset.withFetchWord 8 3)) = some 3 ∧
    seen (fun s => s.out.null) (step (State.reset.withFetchWord 8 0)) = some false := by decide

/-- 0x10E8 carries `00|10000110 010 00` (V16). -/
theorem test_wordBits : wordBits 0x10E8 = [false, false, true, false, false, false, false, true, true,
    false, false, true, false, false, false] := by decide

/-! Packer and unpacker (V1 to V15). -/

/-- V6. -/
theorem test_pushBit : seen (fun s => (bufWords s, s.packer.acc, s.packer.pos))
    (exec (.pushBit false) { block [] with packer := { acc := 0x0864, pos := 14 } }) =
      some ([0x10E8], 0, 0) := by decide

/-- V2. -/
theorem test_push : seen (fun s => (bufWords s, s.packer.acc, s.packer.pos))
    (exec (.push 0x61 8) { block [] with packer := { acc := 0, pos := 2 } }) =
      some ([], 0x86, 10) := by decide

/-- V7: one push completes two words. -/
theorem test_push_two_words : seen (fun s => (bufWords s, s.packer.acc, s.packer.pos))
    (exec (.push 0xFFFF 16) { block [] with packer := { acc := 0x3FFF, pos := 14 } }) =
      some ([0x801F, 0x801F], 0, 0) := by decide

/-- V9, and V8: an empty accumulator still gives a word. -/
theorem test_flush : seen bufWords (exec .flush { block [] with packer := { acc := 1, pos := 1 } }) =
    some [0x4020] := by decide
theorem test_flush_empty : seen bufWords (exec .flush (block [0x10E8])) = some [0x10E8, 0x20] := by
  decide

/-- PINIT and UINIT (R135, R136). -/
theorem test_pinit : seen (fun s => s.packer)
    (exec .pinit { block [] with packer := { acc := 5, pos := 3 } }) = some { acc := 0, pos := 0 } := by
  decide
theorem test_uinit : seen (fun s => s.unpacker)
    (exec .uinit { block [] with unpacker := { uidx := 4, umask := 1, uval := 9 } }) =
      some { uidx := 0, umask := 0, uval := 0 } := by decide

/-- V13: a word below 32 wraps. -/
theorem test_readBit : seen (fun s => (s.ret, s.unpacker)) (exec .readBit (block [0])) =
    some (.bit true, { uidx := 1, umask := 0x2000, uval := 0xFFE0 }) := by decide

/-- V15: no word is left. -/
theorem test_readBit_raises : seen (fun s => (s.out.dcause, s.out.dinfo)) (exec .readBit (block [])) =
    some (2, 0) := by decide

/-- V10: the second field of 0x10E8; and V15, a READ of no bits. -/
theorem test_read : seen (fun s => (s.ret, s.unpacker.umask))
    (exec (.read 8) { block [0x10E8] with unpacker := { uidx := 1, umask := 0x1000, uval := 0x10C8 } }) =
      some (.value 0x61, 0x10) := by decide
theorem test_read_none : seen (fun s => (s.ret, s.unpacker.uidx)) (exec (.read 0) (block [])) =
    some (.value 0, 0) := by decide

/-! Dictionary primitives and the encoder. -/

/-- A block whose dictionary holds "a" (pending or not) as 3. -/
def oneEntry (pending : Bool) : State :=
  { block [] with
    dict := [(3, { phrase := [0x61], pending := pending })]
    width := { numBits := 2, enlargeIn := 2, nextId := 4 }
    enc := { w := [0x61], scan := 1 } }

theorem test_insert : seen (fun s => (s.dict, s.width.nextId, s.ret))
    (exec (.insert [0x61, 0x62] false) (oneEntry true)) =
      some ([(3, { phrase := [0x61], pending := true }),
        (4, { phrase := [0x61, 0x62], pending := false })], 5, .id 4) := by decide

theorem test_find : seen (fun s => s.ret) (exec (.find [0x61]) (oneEntry true)) =
    some (.found (some 3)) := by decide
theorem test_find_none : seen (fun s => s.ret) (exec (.find [0x62]) (oneEntry true)) =
    some (.found none) := by decide

theorem test_isPending : seen (fun s => s.ret) (exec (.isPending 3) (oneEntry true)) =
    some (.bit true) := by decide
theorem test_clearPending : seen (fun s => s.dict) (exec (.clearPending 3) (oneEntry true)) =
    some (oneEntry false).dict := by decide

/-- R150. -/
theorem test_einit : seen (fun s => (s.dict, s.width, s.enc)) (exec .einit (oneEntry true)) =
    some ([], { numBits := 2, enlargeIn := 2, nextId := 3 }, { w := [], scan := 0 }) := by decide

/-- R151, decision D6: growth from width n sets ENLARGEIN to 2 to the n. -/
theorem test_tick : seen (fun s => s.width)
    (exec .tick { block [] with width := { numBits := 3, enlargeIn := 1, nextId := 7 } }) =
      some { numBits := 4, enlargeIn := 8, nextId := 7 } := by decide
theorem test_tick_counts : seen (fun s => s.width)
    (exec .tick { block [] with width := { numBits := 3, enlargeIn := 4, nextId := 4 } }) =
      some { numBits := 3, enlargeIn := 3, nextId := 4 } := by decide

/-- R153. -/
theorem test_ereg : seen (fun s => (s.dict.length, s.width.nextId)) (exec (.ereg 0x62) (oneEntry true)) =
    some (2, 5) := by decide
theorem test_ereg_known : seen (fun s => s.dict) (exec (.ereg 0x61) (oneEntry true)) =
    some (oneEntry true).dict := by decide

/-- R152: 10 bits `00|10000110` and two ticks (V1, V2, D7); then a code alone, one tick. -/
theorem test_eemit_literal : seen (fun s => (s.packer, s.width, s.dict)) (exec .eemit (oneEntry true)) =
    some ({ acc := 0x86, pos := 10 }, { numBits := 3, enlargeIn := 4, nextId := 4 },
      (oneEntry false).dict) := by decide
theorem test_eemit_code : seen (fun s => (s.packer, s.width)) (exec .eemit (oneEntry false)) =
    some ({ acc := 3, pos := 2 }, { numBits := 2, enlargeIn := 1, nextId := 4 }) := by decide

/-- R154, the second symbol of "ab" (V17): "a" goes out, "ab" becomes 5. -/
theorem test_esym : seen (fun s => (s.enc, s.width, s.packer.pos))
    (exec .esym { oneEntry true with port := (loaded [0x61, 0x62] []).port }) =
      some ({ w := [0x62], scan := 2 }, { numBits := 3, enlargeIn := 4, nextId := 6 }, 10) := by decide

/-- R155 after "a" (V16): the last phrase, END under 3 bits, and the flush. -/
theorem test_efin : seen bufWords (exec .efin (oneEntry true)) = some [0x10E8] := by decide

/-- V24: a 16-bit literal after an 8-bit one. -/
theorem test_encode : seen bufWords (exec .encode (loaded [0x61, 0x100, 0x61] [])) =
    some [0x10F0, 0x0121, 0x4820] := by decide +kernel

/-! Tokens and the decoder. -/

/-- The decoder after LIT8.P 'a' (R171). -/
def afterA : State :=
  { block [0x10E8] with
    dict := [(3, { phrase := [0x61], pending := false })]
    dec := { prev := [0x61], code := 0, entry := [] }
    out := { State.reset.out with mem := [(0, 0x61)], len := 1 }
    width := { numBits := 3, enlargeIn := 4, nextId := 4 }
    unpacker := { uidx := 1, umask := 0x10, uval := 0x10C8 }
    phase := .laterToken }

/-- R171: the first token of V16 by a step. -/
theorem test_lit8P_step : seen id (step (stream [0x10E8])) = some afterA := by decide

theorem test_lit16P : seen (fun s => (outUnits s, s.dec.prev, s.phase))
    (exec (.lit16P 0x100) (stream [])) = some ([0x100], [0x100], .laterToken) := by decide
theorem test_endP : seen (fun s => (output s, s.phase)) (exec .endP (stream [])) =
    some (some [], .idle) := by decide
theorem test_illegalP : seen (fun s => (s.out.dcause, s.out.dinfo)) (exec .illegalP (stream [])) =
    some (3, 3) := by decide

/-- R175: END of V16 by a step; the two padding bits stay unread. -/
theorem test_endTok_step : seen (fun s => (output s, s.phase, s.unpacker.umask)) (step afterA) =
    some (some [0x61], .idle, 2) := by decide

/-- R173, R174: the literal is entry 4, one tick, and it becomes ENTRY. -/
theorem test_lit8 : seen (fun s => (s.width, s.dec)) (exec (.lit8 0x62) afterA) =
    some ({ numBits := 3, enlargeIn := 3, nextId := 5 },
      { prev := [0x61], code := 4, entry := [0x62] }) := by decide
theorem test_lit16 : seen (fun s => (tableGet s.dict 4, s.dec.entry)) (exec (.lit16 0x8062) afterA) =
    some (some { phrase := [0x8062], pending := false }, [0x8062]) := by decide

/-- R176, R178, R179. -/
theorem test_ref : seen (fun s => s.dec.entry) (exec (.ref 3) afterA) = some [0x61] := by decide
theorem test_sref : seen (fun s => s.dec.entry) (exec (.sref 4) { afterA with dec :=
    { prev := [0x61, 0x62], code := 4, entry := [] } }) = some [0x61, 0x62, 0x61] := by decide
theorem test_illegal : seen (fun s => (s.out.dcause, s.out.dinfo, output s)) (exec (.illegal 5) afterA) =
    some (1, 5, some []) := by decide

/-- R177: "b" after "a": "ab" becomes 4. -/
theorem test_dapply : seen (fun s => (outUnits s, tableGet s.dict 4, s.dec.prev, s.width.enlargeIn))
    (exec .dapply { afterA with dec := { prev := [0x61], code := 4, entry := [0x62] } }) =
      some ([0x61, 0x62], some { phrase := [0x61, 0x62], pending := false }, [0x62], 3) := by decide

theorem test_dinit : seen (fun s => (s.dict, s.out.len, s.unpacker.uidx, s.phase)) (exec .dinit afterA) =
    some ([], 0, 0, .firstToken) := by decide

/-- DPRO and DSTEP read their token (V41; V18, SREF 4 after 'a'). -/
theorem test_dpro : seen (fun s => s.out.dcause) (exec .dpro (stream [0x6020])) = some 3 := by decide
theorem test_dstep : seen (fun s => (outUnits s, s.width))
    (exec .dstep { afterA with unpacker := { uidx := 1, umask := 0x10, uval := 0x10C5 } }) =
      some ([0x61, 0x61, 0x61], { numBits := 3, enlargeIn := 3, nextId := 5 }) := by decide

/-- V54: the unknown code 15 on the last stream bit is UnknownCode. V43: a literal cut short. -/
theorem test_decode_unknown : seen (fun s => (output s, s.out.dcause, s.out.dinfo))
    (exec .decode (block [0x10E7, 0x36EF])) = some (some [], 1, 15) := by decide +kernel
theorem test_decode_exhausted : seen (fun s => (output s, s.out.dcause, s.out.dinfo))
    (exec .decode (block [0x10E1])) = some (some [], 2, 1) := by decide +kernel

/-- R256: a raise discards the text. -/
theorem test_raise : seen (fun s => (output s, s.out.dcause, s.out.dinfo, s.phase))
    (exec (.raise .inputExhausted 7) afterA) = some (some [], 2, 7, .idle) := by decide

/-! Cipher. MIX has no value, so the vectors of one key are met where the mask cancels or is compared. -/

/-- V63, V64. -/
theorem test_kinc : seen (fun s => s.cipher.inc) (exec (.kinc 12345) State.reset) =
    some 0x00001DCE0458E015 := by decide
theorem test_kinc_wraps : seen (fun s => s.cipher.inc) (exec (.kinc 0xFFFFFFFFFFFFFFFF) State.reset) =
    some 0xFFFFFFFFC4F46BF1 := by decide

theorem test_kseed : seen (fun s => s.cipher.z) (exec (.kseed 12345) State.reset) = some 12345 := by decide

/-- R206: Z + INC, and mixed from it (V65a). -/
theorem test_kstep : seen (fun s => (s.cipher.z, decide (s.cipher.rmix = Config.mix s.cipher.z)))
    (exec (.kstep .forward) { State.reset with cipher :=
      { z := 12345, inc := 0x00001DCE0458E015, rmix := 0, ki := 0, ci := 0 } }) =
      some (0x00001DCE0459104E, true) := by
  simp only [seen, exec, execKstep, keyStep, decide_true]
  decide
theorem test_kstep_backward : seen (fun s => s.cipher.z) (exec (.kstep .backward) { State.reset with cipher :=
      { z := 5, inc := 7, rmix := 0, ki := 0, ci := 0 } }) = some 0xFFFFFFFFFFFFFFFE := by decide

theorem test_mix : exec (.mix 5) State.reset =
    .next { State.reset with ret := .mixed (Config.mix 5) } := rfl

/-- V65c: the four lanes of 0x7773AF9483C09529. -/
theorem test_lane : [0, 1, 2, 3].map (fun j => seen (fun s => s.ret)
    (exec (.lane 0x7773AF9483C09529 j) State.reset)) =
      [some (.lane 0x1529), some (.lane 0x0781), some (.lane 0x3E52), some (.lane 0x3BB9)] := by decide

/-- V70: 0x0020 under the lane 0x3BB9 is 0x3BD9; bit 15 under the offset stays. -/
theorem test_xw : seen bufWords (exec (.xw 1 0x3BB9) (block [0x10E8, 0x20])) =
    some [0x10E8, 0x3BD9] := by decide
theorem test_xw_bit15 : seen bufWords (exec (.xw 0 0x7FFF) (block [0x8020])) = some [0x001F] := by decide

/-- R207, R208 on an empty buffer: INC is derived, nothing is mixed. -/
theorem test_epass_empty : seen (fun s => (s.cipher.z, s.cipher.inc, s.cipher.ci, s.cipher.rmix))
    (exec (.epass 12345) (block [])) = some (12345, 0x00001DCE0458E015, 0, 0) := by decide
theorem test_dpass_empty : seen (fun s => (s.cipher.z, s.cipher.inc, s.cipher.ci, s.cipher.rmix))
    (exec (.dpass 12345) (block [])) = some (0x00001DCE0459104E, 0x00001DCE0458E015, 0, 0) := by decide

/-- V68's rule D20 on one word: the fourth lane of step 1. -/
theorem test_epass_one : exec (.epass 12345) (block [0x10E6]) = .next { block [0x10E6] with
    buf := xorWord 0 (laneOf (Config.mix 0x00001DCE0459104E) 3) (block [0x10E6]).buf
    cipher := { z := 0x00001DCE0459104E, inc := 0x00001DCE0458E015,
                rmix := Config.mix 0x00001DCE0459104E, ki := 0, ci := 1 } } := by
  rfl

/-- A block with a word in BUF and an absent key list (R35), although NKEYS is 1. -/
def absentKeys : State := { block [0x10E6] with port := hostWriteKeys none (loaded [] [5]).port }

/-- R216: with an absent key list ENCRYPT and DECRYPT do nothing; with two keys KI ends at 2 (R85). -/
theorem test_encrypt_bypassed : exec .encrypt absentKeys = .next absentKeys := rfl
theorem test_encrypt_moves_ki : seen (fun s => s.cipher.ki) (exec .encrypt (loaded [] [5, 6])) =
    some 2 := by decide
theorem test_decrypt_bypassed : exec .decrypt absentKeys = .next absentKeys := rfl

/-! Host commands, each one step. -/

/-- R230. -/
theorem test_cstart : seen (fun s => (s.out.len, s.out.dcause, s.buf.len)) (exec .cstart
    { afterA with out := { afterA.out with dcause := 2, dinfo := 1 } }) = some (0, 0, 0) := by decide

/-- V23: COMPRESS of "abcabcabcabc" without keys. -/
theorem test_compress : command (some abc4) none 0 =
    some (some [0x10E1, 0x0C51, 0x545D, 0x1420], 0, 0) := by decide +kernel

/-- V85, V87. -/
theorem test_compress_sentinels : command none (some [12345]) 0 = some (none, 0, 0) ∧
    command (some []) (some [12345]) 0 = some (some [], 0, 0) := by decide

/-- V55: DECOMPRESS without keys. -/
theorem test_decompress : command (some [0x10E7, 0x36E4]) none 1 =
    some (some (List.replicate 7 0x61), 0, 0) := by decide +kernel

/-- V50: bit 15 of a word is ignored. -/
theorem test_decompress_bit15 : command (some [0x90E8]) (some []) 1 = some (some [0x61], 0, 0) := by
  decide +kernel

/-- R62: with no CMD pending nothing happens. -/
theorem test_idle : step State.reset = .next State.reset := rfl

/-- The reset memories are in canonical form. -/
theorem test_reset_memories : MemWf State.reset.port.inp ∧ MemWf State.reset.port.keys ∧
    MemWf State.reset.out.mem ∧ MemWf State.reset.buf.mem ∧ TableSorted State.reset.dict := by decide

/-! Witnesses: for every statement with hypotheses, an input that meets all of them, at the ends of the
ranges its clauses name. -/

/-- A place in two words and its first and last bit. -/
theorem witness_StreamBitsAndFieldValues :
    (streamBits [0x4030, 0x0420])[0]? = some true ∧ (streamBits [0x4030, 0x0420])[29]? = some false ∧
      fieldValue [true, false, true] = 5 := by decide

/-- Tokens at the ends of the ranges of their code, and both commands. -/
theorem witness_EncodedInstructionsDecode :
    Instr.fits .first (.lit8P 0xFF) ∧ Instr.fits .first .illegalP ∧ Instr.fits (.later 2 3) (.sref 3) ∧
    Instr.fits (.later 3 7) (.ref 3) ∧ Instr.fits (.later 3 7) (.ref 6) ∧
    Instr.fits (.later 3 7) (.sref 7) ∧ Instr.fits (.later 3 6) (.illegal 7) ∧
    Instr.fits (.later 3 4) (.lit16 0xFFFF) ∧ encodeCmd .compress = some 0 ∧
    encodeCmd .decompress = some 1 := by decide

/-- A code field of two bits, which decodes, and one too short, which does not. -/
theorem witness_DecodedTokensHaveTheirBits : 2 ≤ codeWidth .first ∧ 2 ≤ codeWidth (.later 2 3) ∧
    decodeToken .first [true, true] = .ok (.illegalP, []) ∧
    decodeToken .first [true] = .error .streamEndsInField := by decide

/-- A first token, a later token, and a later token the stream is too short for. -/
theorem witness_StepRunsTheDecodedToken :
    ((stream [0x10E8]).phase ≠ .idle ∧ CursorWf (stream [0x10E8]).unpacker ∧
      decodeToken (tokenCtx (stream [0x10E8])) (unreadBits (stream [0x10E8])) =
        .ok (.lit8P 0x61, [false, true, false, false, false])) ∧
    (afterA.phase ≠ .idle ∧ CursorWf afterA.unpacker ∧
      decodeToken (tokenCtx afterA) (unreadBits afterA) = .ok (.endTok, [false, false])) ∧
    ((stream []).phase ≠ .idle ∧ CursorWf (stream []).unpacker ∧
      decodeToken (tokenCtx (stream [])) (unreadBits (stream [])) = .error .streamEndsInField) := by
  decide

theorem witness_StepRunsThePendingCommand :
    (placeCmd 0 State.reset).phase = .idle ∧ (placeCmd 0 State.reset).port.cmd = some 0 ∧
    (placeCmd 1 State.reset).port.cmd = some 1 ∧
    State.reset.phase = .idle ∧ State.reset.port.cmd = none := by decide

theorem witness_TokenStepsAreTheDecodersMicroOperations :
    (stream []).phase = .firstToken ∧ afterA.phase = .laterToken := by decide

theorem witness_PushbitShiftsAndSendsAtFifteen :
    ({ acc := 0, pos := 14 } : Packer).pos = 14 ∧ ({ acc := 0, pos := 13 } : Packer).pos ≠ 14 ∧
      ({ acc := 0, pos := 0 } : Packer).pos ≠ 14 := by decide

/-- Nothing pushed, and sixteen bits: one word and one bit held. -/
theorem witness_PackerLaw : (block []).buf.len = 0 ∧
    (([(0xFFFF, 16)] : List (Nat × Nat)).flatMap fun f => fieldBits f.1 f.2).length = 16 ∧
    0 < 16 / 15 := by decide

theorem witness_PackedStreamLaw : (block []).buf.len = 0 ∧
    seen bufWords (runOps [.pinit, .push 0x7FFF 15, .flush] (block [])) = some [0x801F, 0x20] := by
  decide

/-- The three clauses of READBIT: no word left, a fresh word, a word under way. -/
theorem witness_ReadbitRefillsLazily :
    ((block []).unpacker.umask = 0 ∧ (block []).buf.len ≤ (block []).unpacker.uidx) ∧
    ((block [0x20]).unpacker.umask = 0 ∧ (block [0x20]).unpacker.uidx < (block [0x20]).buf.len) ∧
    afterA.unpacker.umask ≠ 0 := by decide

/-- Fifteen bits are there and can all be read; a sixteenth cannot. -/
theorem witness_ReadGivesTheNextField : CursorWf (block [0x10E8]).unpacker ∧
    15 ≤ (unreadBits (block [0x10E8])).length ∧ (unreadBits (block [0x10E8])).length < 16 := by decide

theorem witness_ReadingUndoesPushing :
    (∀ f ∈ ([(0, 2), (0x61, 8), (7, 3), (0, 0)] : List (Nat × Nat)), f.1 < 2 ^ f.2) ∧
      (block []).buf.len = 0 := by decide

theorem witness_PendingBitOfAnEntry :
    tableGet (oneEntry true).dict 3 = some { phrase := [0x61], pending := true } := by decide

theorem witness_TickGrowsTheWidthAtZero :
    1 ≤ State.reset.width.enlargeIn ∧ 1 ≤ (1 : Nat) ∧
      seen (fun s => s.width.enlargeIn) (exec .tick (oneEntry true)) = some 1 := by decide

/-- "b" is not there, "a" is, at the least id. -/
theorem witness_EregRegistersUnseenSymbols :
    (∀ id, 3 ≤ id → id < (oneEntry true).width.nextId →
      dictPhrase? (oneEntry true).dict id ≠ some [0x62]) ∧
    ∃ id, 3 ≤ id ∧ id < (oneEntry true).width.nextId ∧
      dictPhrase? (oneEntry true).dict id = some [0x61] := by
  refine ⟨fun id h3 h4 => ?_, 3, by decide⟩
  obtain rfl : id = 3 := by
    simp only [oneEntry] at h4
    omega
  decide

/-- A pending symbol (256 too, the least that takes 16 bits) and a phrase already sent. -/
theorem witness_EemitSendsALiteralOrACode :
    (dictFind (oneEntry true).dict 4 (oneEntry true).enc.w = some 3 ∧
      tableGet (oneEntry true).dict 3 = some { phrase := [0x61], pending := true }) ∧
    (dictFind (oneEntry false).dict 4 (oneEntry false).enc.w = some 3 ∧
      tableGet (oneEntry false).dict 3 = some { phrase := [0x61], pending := false }) ∧
    (dictFind [(3, { phrase := [0x100], pending := true })] 4 [0x100] = some 3 ∧
      ¬ (0x100 : Sym).toNat < 256 ∧ (0xFF : Sym).toNat < 256) := by decide

/-- The first symbol of a text extends the empty match; the second of "ab" does not extend "a". -/
theorem witness_EsymExtendsOrEmits :
    (∃ s1, exec (.ereg 0x61) { loaded [0x61, 0x62] [] with
        width := { numBits := 2, enlargeIn := 2, nextId := 3 }, enc := { w := [], scan := 1 } } =
          .next s1 ∧ dictFind s1.dict s1.width.nextId [0x61] = some 3) ∧
    ∃ s1, exec (.ereg 0x62) (oneEntry true) = .next s1 ∧
      dictFind s1.dict s1.width.nextId [0x61, 0x62] = none :=
  ⟨⟨_, rfl, by decide⟩, _, rfl, by decide⟩

/-- The encoder after the second symbol of "aab": "a" has been sent, "aa" is entry 4. -/
def sentA : State :=
  { loaded [0x61, 0x61, 0x62] [] with
    dict := [(3, { phrase := [0x61], pending := false }), (4, { phrase := [0x61, 0x61], pending := false })]
    width := { numBits := 3, enlargeIn := 4, nextId := 5 }
    packer := { acc := 0x86, pos := 10 }
    enc := { w := [0x61], scan := 2 } }

theorem sentA_get (id : Nat) : tableGet sentA.dict id =
    if id = 3 then some { phrase := [0x61], pending := false }
    else if id = 4 then some { phrase := [0x61, 0x61], pending := false } else none := by
  simp only [sentA, tableGet, eq_comm (a := (3 : Nat)), eq_comm (a := (4 : Nat))]

theorem sentA_phrase {id : Nat} {p : Phrase} (h : dictPhrase? sentA.dict id = some p) :
    (id = 3 ∧ p = [0x61]) ∨ (id = 4 ∧ p = [0x61, 0x61]) := by
  unfold dictPhrase? at h
  rw [sentA_get] at h
  split at h
  · cases h; exact .inl ⟨‹_›, rfl⟩
  · split at h
    · cases h; exact .inr ⟨‹_›, rfl⟩
    · cases h

/-- A state that meets the encoder's invariant, with a phrase already sent as its match. -/
theorem witness_EncoderInvariantKept : EncInv sentA ∧
    ∃ s1, exec (.ereg (memRead sentA.port.inp sentA.enc.scan)) sentA = .next s1 ∧
      dictFind s1.dict s1.width.nextId s1.enc.w = some 3 ∧
      tableGet s1.dict 3 = some { phrase := [0x61], pending := false } := by
  refine ⟨⟨by decide, by decide, by decide, by decide, by decide, fun id => ?_, fun id p h => ?_,
    fun id id' p h h' => ?_, fun id p c h hp => ?_, fun id p c h hc => ?_, fun id e h he => ?_,
    .inr ⟨3, by decide⟩⟩, _, rfl, by decide, by decide⟩
  · rw [sentA_get]
    change _ ↔ 3 ≤ id ∧ id < 5
    split_ifs <;> simp <;> omega
  · rcases sentA_phrase h with ⟨_, rfl⟩ | ⟨_, rfl⟩ <;> simp
  · rcases sentA_phrase h with ⟨h1, rfl⟩ | ⟨h1, rfl⟩ <;>
      rcases sentA_phrase h' with ⟨h2, h3⟩ | ⟨h2, h3⟩ <;> first | omega | simp at h3
  · rcases sentA_phrase h with ⟨_, e⟩ | ⟨_, e⟩
    · have := congrArg List.length e
      simp at this
      exact absurd this hp
    · have := List.append_inj' (t₁ := [c]) (t₂ := [0x61]) (s₂ := [0x61]) e rfl
      exact ⟨3, by rw [this.1]; decide⟩
  · refine ⟨3, ?_⟩
    rcases sentA_phrase h with ⟨_, rfl⟩ | ⟨_, rfl⟩ <;> simp at hc <;> subst hc <;> decide
  · rw [sentA_get] at h
    split_ifs at h <;> cases h <;> cases he

theorem witness_DproRunsTheFirstToken :
    CursorWf (stream [0x10E8]).unpacker ∧ CursorWf (stream []).unpacker ∧
    decodeToken .first (unreadBits (stream [0x10E8])) =
      .ok (.lit8P 0x61, [false, true, false, false, false]) ∧
    decodeToken .first (unreadBits (stream [])) = .error .streamEndsInField := by decide

theorem witness_DstepRunsALaterToken : CursorWf afterA.unpacker ∧
    decodeToken (.later 3 4) (unreadBits afterA) = .ok (.endTok, [false, false]) ∧
    decodeToken (.later 6 40) (unreadBits afterA) = .error .streamEndsInField := by decide

theorem witness_LiteralsInstallAnEntry : 1 ≤ afterA.width.enlargeIn ∧
    widthAfterEntry { numBits := 3, enlargeIn := 1, nextId := 7 } =
      { numBits := 4, enlargeIn := 8, nextId := 8 } := by decide

theorem witness_ReferencesResolveAPhrase :
    dictPhrase? afterA.dict 3 = some [0x61] ∧ afterA.dec.prev = 0x61 :: [] := by decide

theorem witness_DapplyAppendsAndRegisters :
    (oneEntry false).dec.entry ≠ 0x62 :: [] ∧
    ({ afterA with dec := { prev := [0x61], code := 4, entry := [0x62] } } : State).dec.entry =
      0x62 :: [] ∧ 1 ≤ afterA.width.enlargeIn := by decide

theorem witness_DecodeUndoesEncode :
    1 ≤ (loaded [0x61] []).port.inLen ∧ (loaded [0x61] []).buf.len = 0 := by decide

/-- An entry that is pending before a decoder's operation is pending after it. -/
theorem witness_DecoderSetsNoPendingBit :
    Instr.endTok ∈ [Instr.endP, .illegalP, .endTok, .dinit, .dpro, .dstep, .dapply, .decode] ∧
    exec .endTok (oneEntry true) = .next { oneEntry true with phase := .idle } ∧
    tableGet ({ oneEntry true with phase := .idle } : State).dict 3 =
      some { phrase := [0x61], pending := true } :=
  ⟨by decide, rfl, by decide⟩

/-- Words at both ends of the wire range. -/
theorem witness_XwXorsOneWord : WireRange (memRead (block [0x20, 0x801F]).buf.mem 0) ∧
    WireRange (memRead (block [0x20, 0x801F]).buf.mem 1) := by decide

theorem witness_PassesXorTheirMask : (Instr.epass 5 = .epass 5 ∨ Instr.epass 5 = .dpass 5) ∧
    0 < (block [0x20, 0x20, 0x20, 0x20, 0x20]).buf.len ∧
    4 < (block [0x20, 0x20, 0x20, 0x20, 0x20]).buf.len := by decide

theorem witness_EncryptAndDecryptXorAllMasks :
    (Instr.decrypt = .encrypt ∨ Instr.decrypt = .decrypt) ∧ 0 < absentKeys.buf.len ∧
      usedKeys absentKeys = [] ∧ usedKeys (loaded [] [5]) = [5] := by decide

/-- Bypassed with no key and with an absent list, and engaged with one key and two. -/
theorem witness_EncryptMovesTheKeyIndex : (loaded [] []).port.nKeys = 0 ∧
    (absentKeys.port.keysNull = true ∧ absentKeys.port.nKeys = 1) ∧
    ((loaded [] [5]).port.keysNull = false ∧ 1 ≤ (loaded [] [5]).port.nKeys) ∧
    ((loaded [] [5, 6]).port.keysNull = false ∧ 1 ≤ (loaded [] [5, 6]).port.nKeys) := by decide

theorem witness_KeyOrderDoesNotMatter :
    (loaded [] [2, 1]).buf = (loaded [] [1, 2]).buf ∧
      (usedKeys (loaded [] [2, 1])).Perm (usedKeys (loaded [] [1, 2])) ∧
      usedKeys (loaded [] [1, 2]) = [1, 2] := by decide

theorem witness_AbsentInputGivesAbsentOutput :
    ({ State.reset with port := hostWriteInput none State.reset.port } : State).port.inNull = true := by
  decide

theorem witness_EmptyInputGivesEmptyOutput :
    (loaded [] [5]).port.inNull = false ∧ (loaded [] [5]).port.inLen = 0 := by decide

/-- Both bypassed, with and without a list, and engaged. -/
theorem witness_CompressEncodesAndEncrypts :
    (loaded [0x61] [5]).port.inNull = false ∧ 1 ≤ (loaded [0x61] [5]).port.inLen ∧
    ((loaded [0x61] [5]).port.keysNull = false ∧ 0 < (loaded [0x61] [5]).port.nKeys) ∧
    ¬ 0 < (loaded [0x61] []).port.nKeys := by decide

theorem witness_DecompressDecryptsAndDecodes :
    (loaded [0x10E8] [5]).port.inNull = false ∧ 1 ≤ (loaded [0x10E8] [5]).port.inLen := by decide

theorem witness_BypassWritesNoCipherRegister :
    (loaded [0x61] []).port.nKeys = 0 ∧ absentKeys.port.keysNull = true ∧
      (Instr.encrypt = .encrypt ∨ Instr.encrypt = .decrypt) ∧
      seen (fun t => t.cipher) (exec .compress (loaded [] [])) = some State.reset.cipher := by decide

theorem witness_DecompressUndoesCompress :
    State.reset.phase = .idle ∧ State.reset.port.cmd = none := by decide

/-- Two blocks with one input and different keys. -/
theorem witness_KeysDoNotChangeTheLength :
    (loaded [0x61] [5]).port.inNull = (loaded [0x61] [6, 7]).port.inNull ∧
      inUnits (loaded [0x61] [5]) = inUnits (loaded [0x61] [6, 7]) := by decide

/-- Two blocks with one input and different histories. -/
theorem witness_ResultDependsOnInputsAlone :
    let s' : State := { afterA with port := (loaded [0x61] [5]).port }
    s'.port.inNull = (loaded [0x61] [5]).port.inNull ∧
      s'.port.keysNull = (loaded [0x61] [5]).port.keysNull ∧
      inUnits s' = inUnits (loaded [0x61] [5]) ∧ keyList s' = keyList (loaded [0x61] [5]) ∧
      s' ≠ loaded [0x61] [5] := by decide

theorem witness_InputsAreNeverWritten :
    exec .endTok afterA = .next { afterA with phase := .idle } := rfl

/-- An operation that leaves the cause, one that clears it and one that sets it. -/
theorem witness_OnlyRaisesAndStartsWriteTheCause :
    (∃ t, exec .tick afterA = .next t ∧ t.out.dcause = afterA.out.dcause) ∧
    (∃ t, exec .cstart afterA = .next t ∧ t.out.dcause = 0) ∧
    ∃ t, exec (.illegal 5) afterA = .next t ∧ t.out.dcause = 1 :=
  ⟨⟨_, rfl, by decide⟩, ⟨_, rfl, by decide⟩, _, rfl, by decide⟩

theorem afterA_get (id : Nat) : tableGet afterA.dict id =
    if id = 3 then some { phrase := [0x61], pending := false } else none := by
  simp only [afterA, tableGet, eq_comm (a := (3 : Nat))]

/-- A block in the decoder's main loop that meets the invariant, and its next step. -/
theorem witness_StepsKeepTheInvariant : StateInv afterA ∧ ∃ t, step afterA = .next t := by
  refine ⟨⟨by decide, by decide, by decide, by decide, by decide, by decide, by decide, by decide,
    by decide, by decide, by decide, by decide, by decide, by decide, by decide, fun _ =>
    ⟨by decide, by decide, by decide, by decide, fun id => ?_, fun id p h => ?_, by decide, by decide⟩⟩,
    _, rfl⟩
  · rw [afterA_get]
    change _ ↔ 3 ≤ id ∧ id < 4
    split_ifs <;> simp <;> omega
  · unfold dictPhrase? at h
    rw [afterA_get] at h
    split_ifs at h <;> cases h
    simp

/-- An idle block with a command pending, and one at its first token, that meet it too. -/
theorem witness_StepsKeepTheInvariant_idle : StateInv (placeCmd 0 State.reset) ∧
    StateInv (stream [0x10E8]) := by
  refine ⟨⟨by decide, by decide, by decide, by decide, by decide, by decide, by decide, by decide,
    by decide, by decide, by decide, by decide, by decide, by decide, by decide,
    fun h => by cases h⟩, ⟨by decide, by decide, by decide, by decide, by decide, by decide, by decide,
    by decide, by decide, by decide, by decide, by decide, by decide, by decide, by decide,
    fun h => by cases h⟩⟩

end Sys2Proof.Tests
end

section
/-! Proofs about the step and the levels of the decoder (R16): a step of the idle block is the pending
command, a step in the token stream is the token the unread bits decode to, which is DPRO or DSTEP, and
DECODE is a run of such steps that comes to an end. -/

namespace Sys2Proof.Machine

/-! What a step does in each phase (R30, R62, R102). -/

theorem step_of_idle {s : State} (h : s.phase = .idle) : step s = commandStep s := by
  simp only [step, h]

theorem step_of_running {s : State} (h : s.phase ≠ .idle) : step s = tokenStep s := by
  unfold step
  cases hp : s.phase with
  | idle => exact absurd hp h
  | firstToken => rfl
  | laterToken => rfl

theorem tokenCtx_of_firstToken {s : State} (h : s.phase = .firstToken) : tokenCtx s = .first := by
  simp only [tokenCtx, h]

theorem tokenCtx_of_laterToken {s : State} (h : s.phase = .laterToken) :
    tokenCtx s = .later s.width.numBits s.width.nextId := by
  simp only [tokenCtx, h]

theorem tokenStep_of_raised {s t : State} (h : fetchToken (tokenCtx s) s = .raised t) :
    tokenStep s = .next t := by
  simp only [tokenStep, h]

theorem tokenStep_of_token {s t : State} {i : Instr} (h : fetchToken (tokenCtx s) s = .ok i t) :
    tokenStep s = retireOutcome i (exec i t) := by
  simp only [tokenStep, h]

/-! A token step is DPRO at the first token and DSTEP at a later one (R171, R172). -/

/-- The values of a code field that the rules tell apart: CODE_LIT8, CODE_LIT16, CODE_END, the rest (R102). -/
theorem code_cases (c : Nat) : c = 0 ∨ c = 1 ∨ c = 2 ∨ (c ≠ 0 ∧ c ≠ 1 ∧ c ≠ 2 ∧ 3 ≤ c) := by omega

/-- The field of an 8-bit literal, zero-extended to a symbol (R105). -/
theorem lit8_setWidth {v : Nat} (h : v < 2 ^ 8) :
    (BitVec.ofNat 8 v).setWidth 16 = BitVec.ofNat 16 v :=
  BitVec.setWidth_ofNat_of_le_of_lt (by decide) h

theorem exec_lit8P_ofNat {v : Nat} (h : v < 2 ^ 8) (s : State) :
    exec (.lit8P (BitVec.ofNat 8 v)) s = .next (firstLiteral (BitVec.ofNat 16 v) s) :=
  congrArg (fun c => Host.Outcome.next (firstLiteral c s)) (lit8_setWidth h)

theorem exec_lit8_ofNat {v : Nat} (h : v < 2 ^ 8) (s : State) :
    exec (.lit8 (BitVec.ofNat 8 v)) s = .next (literal (BitVec.ofNat 16 v) s) :=
  congrArg (fun c => Host.Outcome.next (literal c s)) (lit8_setWidth h)

theorem tokenStep_eq_prologue {s : State} (hp : s.phase = .firstToken) :
    tokenStep s = .next (prologue s) := by
  unfold tokenStep fetchToken prologue
  rw [tokenCtx_of_firstToken hp]
  dsimp only [codeWidth]
  cases readField Config.proBits s with
  | raised t => rfl
  | ok c s1 =>
    obtain rfl | rfl | rfl | ⟨h0, h1, h2, h3⟩ := code_cases c
    · simp only [symWidth_lit8, if_true]
      cases hv : readField 8 (setCode 0 s1) with
      | raised t => rfl
      | ok v s2 => exact congrArg (retireOutcome _) (exec_lit8P_ofNat (readField_lt 8 _ hv) s2)
    · simp only [symWidth_lit16, one_ne_zero, if_false, if_true]
      cases readField 16 (setCode 1 s1) <;> rfl
    · rfl
    · simp only [symWidth_of_ge_two (Nat.le_of_succ_le h3), readField, h0, h1, h2, if_false,
        assemble_first_illegal 0 h3]
      rfl

theorem tokenStep_eq_decodeStep {s : State} (hp : s.phase = .laterToken) :
    tokenStep s = .next (decodeStep s) := by
  unfold tokenStep fetchToken decodeStep
  rw [tokenCtx_of_laterToken hp]
  dsimp only [codeWidth]
  obtain ⟨c, u, hr⟩ | ⟨u, hr⟩ := readField_frame s.width.numBits s
  · simp only [hr]
    obtain rfl | rfl | rfl | ⟨h0, h1, h2, h3⟩ := code_cases c
    · simp only [symWidth_lit8, if_true]
      cases hv : readField 8 (setCode 0 { s with unpacker := u }) with
      | raised t => rfl
      | ok v s2 => exact congrArg (retireOutcome _) (exec_lit8_ofNat (readField_lt 8 _ hv) s2)
    · simp only [symWidth_lit16, one_ne_zero, if_false, if_true]
      cases readField 16 (setCode 1 { s with unpacker := u }) <;> rfl
    · rfl
    · simp only [symWidth_of_ge_two (Nat.le_of_succ_le h3), readField, h0, h1, h2, if_false]
      split_ifs with hlt heq <;> simp only [setCode_width] at *
      · rw [assemble_later_ref _ _ _ h3 hlt]; rfl
      · subst heq; rw [assemble_later_sref _ _ h3]; rfl
      · rw [assemble_later_illegal _ _ _ h3 (by omega)]; rfl
  · simp only [hr]

/-! DECODE ends: every later token moves the cursor on (R183). -/

/-- A retired token has moved neither the cursor nor BUF: its fields are read by the fetch. -/
theorem retireOutcome_exec_cursor {i : Instr} {code : Nat} (h : tokenCode i = some code) (s : State) :
    ∃ t, retireOutcome i (exec i s) = .next t ∧ t.unpacker = s.unpacker ∧ t.buf = s.buf := by
  cases i
  case lit8P | lit16P | endP | illegalP | lit8 | lit16 | endTok | ref | sref | illegal =>
    exact ⟨_, rfl, rfl, rfl⟩
  all_goals cases h

/-- A cursor inside the stream of BUF (R40). -/
def CursorIn (s : State) : Prop := CursorWf s.unpacker ∧ s.unpacker.uidx ≤ s.buf.len

theorem CursorIn.bitPos_le {s : State} (h : CursorIn s) : bitPos s.unpacker ≤ 15 * s.buf.len :=
  (Nat.sub_le _ _).trans (Nat.mul_le_mul_left 15 h.2)

/-- A token step ends the command, or moves the cursor on by the code field at least. -/
theorem tokenStep_advances {s : State} (h : CursorIn s) :
    ∃ t, tokenStep s = .next t ∧ (t.phase = .idle ∨ CursorIn t ∧ t.buf = s.buf ∧
      bitPos s.unpacker + codeWidth (tokenCtx s) ≤ bitPos t.unpacker) := by
  obtain ⟨hcur, hin⟩ := h
  obtain ⟨i, rest, u, code, -, hcode, hf, hu, -, hpos, hle⟩ | ⟨e, u, d, -, -, -, -, -, -, -, hf⟩ :=
    fetchToken_spec (tokenCtx s) s hcur
  · obtain ⟨t, ht, htu, htb⟩ := retireOutcome_exec_cursor hcode
      { s with unpacker := u, dec := { s.dec with code := code } }
    refine ⟨t, (tokenStep_of_token hf).trans ht, .inr ⟨⟨htu ▸ hu, ?_⟩, htb, ?_⟩⟩
    · rw [htu, htb]; exact hle hin
    · rw [htu]; change _ ≤ bitPos u; omega
  · exact ⟨_, tokenStep_of_raised hf, .inl rfl⟩

/-- Between two tokens of DECODE: the command has ended, or the main loop goes on with a cursor inside
the stream and a code field of at least 3 bits (R181). -/
def EndedOrLooping (s : State) : Prop :=
  s.phase = .idle ∨ s.phase = .laterToken ∧ CursorIn s ∧ 3 ≤ s.width.numBits

/-- One more than the number of stream bits the main loop may still read; 0 where no loop runs. -/
def bitsAhead (s : State) : Nat :=
  if s.phase = .laterToken then 15 * s.buf.len + 1 - bitPos s.unpacker else 0

theorem prologue_phase (s : State) : (prologue s).phase = .idle ∨
    (prologue s).phase = .laterToken ∧ (prologue s).width.numBits = 3 := by
  apply prologue_cases (P := fun t => t.phase = .idle ∨ t.phase = .laterToken ∧ t.width.numBits = 3) s
  case lit => intros; exact .inr ⟨rfl, rfl⟩
  all_goals intros; exact .inl rfl

theorem literal_numBits_le (c : Sym) (s : State) :
    s.width.numBits ≤ (literal c s).width.numBits :=
  growth_numBits_le { s.width with nextId := s.width.nextId + 1 }

theorem applyEntry_numBits_le (s : State) : s.width.numBits ≤ (applyEntry s).width.numBits :=
  growth_numBits_le { s.width with nextId := s.width.nextId + 1 }

/-- DSTEP ends the command or stays in the main loop, and no code width shrinks (R151). -/
theorem decodeStep_phase (s : State) : (decodeStep s).phase = .idle ∨
    (decodeStep s).phase = s.phase ∧ s.width.numBits ≤ (decodeStep s).width.numBits := by
  apply decodeStep_cases
    (P := fun t => t.phase = .idle ∨ t.phase = s.phase ∧ s.width.numBits ≤ t.width.numBits) s
  case lit =>
    intro c u code _
    have hlit := literal_numBits_le c { s with unpacker := u, dec := { s.dec with code := code } }
    exact .inr ⟨rfl, hlit.trans (applyEntry_numBits_le _)⟩
  case ref | sref => intros; exact .inr ⟨rfl, applyEntry_numBits_le _⟩
  all_goals intros; exact .inl rfl

/-- The prologue, which reads at least 2 bits, ends the command or starts the main loop. -/
theorem prologue_endedOrLooping {s : State} (hp : s.phase = .firstToken) (h : CursorIn s) :
    EndedOrLooping (prologue s) ∧ bitsAhead (prologue s) ≤ 15 * s.buf.len := by
  obtain ⟨t, ht, hadv⟩ := tokenStep_advances h
  cases (tokenStep_eq_prologue hp).symm.trans ht
  unfold EndedOrLooping bitsAhead
  obtain hidle | ⟨hlater, hbits⟩ := prologue_phase s
  · simp [hidle]
  · obtain hidle | ⟨hcur, hbuf, hpos⟩ := hadv
    · simp [hidle]
    · simp only [tokenCtx_of_firstToken hp, codeWidth, Config.proBits] at hpos
      rw [if_pos hlater, hbuf]
      exact ⟨.inr ⟨hlater, hcur, hbits.ge⟩, by omega⟩

/-- DSTEP does too, and reads at least 3 bits where it does not end the command (R183). -/
theorem decodeStep_endedOrLooping {s : State} (hp : s.phase = .laterToken) (h : EndedOrLooping s) :
    EndedOrLooping (decodeStep s) ∧ bitsAhead (decodeStep s) < bitsAhead s := by
  obtain hidle | ⟨-, hin, hwide⟩ := h
  · rw [hp] at hidle; cases hidle
  · have hle := hin.bitPos_le
    obtain ⟨t, ht, hadv⟩ := tokenStep_advances hin
    cases (tokenStep_eq_decodeStep hp).symm.trans ht
    unfold EndedOrLooping bitsAhead
    obtain hidle | ⟨hphase, hbits⟩ := decodeStep_phase s
    · simp [hidle, hp]; omega
    · obtain hidle | ⟨hcur, hbuf, hpos⟩ := hadv
      · simp [hidle, hp]; omega
      · simp only [tokenCtx_of_laterToken hp, codeWidth] at hpos
        rw [hphase, if_pos hp, if_pos hp, hbuf]
        exact ⟨.inr ⟨hp, hcur, hwide.trans hbits⟩, by omega⟩

/-- DECODE ends whatever the words of BUF (R183): its loop runs out of stream bits before it runs out of
rounds. -/
theorem decodeStream_phase (s : State) : (decodeStream s).phase = .idle := by
  have hcur : CursorIn (decoderInit s) := ⟨⟨.inl rfl, fun _ => rfl⟩, Nat.zero_le _⟩
  obtain ⟨hstart, hrounds⟩ := prologue_endedOrLooping (s := decoderInit s) rfl hcur
  have hends := whileUpTo_ends (P := EndedOrLooping) bitsAhead
    (fun t ht h => (decodeStep_endedOrLooping (of_decide_eq_true ht) h).1)
    (fun t ht h => (decodeStep_endedOrLooping (of_decide_eq_true ht) h).2) _ _ hstart hrounds
  have hkept := whileUpTo_inv (P := EndedOrLooping)
    (fun t ht h => (decodeStep_endedOrLooping (of_decide_eq_true ht) h).1) (15 * s.buf.len) _ hstart
  exact hkept.resolve_right fun h => of_decide_eq_false hends h.1

/-! The two levels of DECODE agree (R16). -/

theorem core_run_succ {s t : State} (h : step s = .next t) (k : Nat) :
    core.run (k + 1) s = core.run k t := by
  simp only [Host.Core.run, show core.step s = .next t from h]

theorem step_firstToken {s : State} (hp : s.phase = .firstToken) : step s = .next (prologue s) := by
  rw [step_of_running (by simp [hp]), tokenStep_eq_prologue hp]

theorem step_laterToken {s : State} (hp : s.phase = .laterToken) : step s = .next (decodeStep s) := by
  rw [step_of_running (by simp [hp]), tokenStep_eq_decodeStep hp]

/-- The main loop is a run of the machine: as many steps as the loop has rounds that do something. A
round more could begin a pending command. -/
theorem whileUpTo_decodeStep_is_run (n : Nat) (s : State) : ∃ k, core.run k s =
    .next (whileUpTo (fun t => decide (t.phase = .laterToken)) decodeStep n s) := by
  induction n generalizing s with
  | zero => exact ⟨0, rfl⟩
  | succ n ih =>
    by_cases hp : s.phase = .laterToken
    · obtain ⟨k, hk⟩ := ih (decodeStep s)
      exact ⟨k + 1, by rw [core_run_succ (step_laterToken hp), hk, whileUpTo, if_pos (decide_eq_true hp)]⟩
    · exact ⟨0, by rw [whileUpTo_of_not (decide_eq_false hp)]; rfl⟩

/-! The obligations. -/

/-- Settles O8: the prologue is the first step, each round of the main loop is one more, and the loop ends
because every step reads bits of a finite stream. -/
theorem decodeIsTokenStepsToTheEnd : Obligations.DecodeIsTokenStepsToTheEnd := by
  intro s
  obtain ⟨k, hk⟩ := whileUpTo_decodeStep_is_run (15 * s.buf.len) (prologue (decoderInit s))
  exact ⟨decoderInit s, decodeStream s, k + 1, rfl,
    (core_run_succ (step_firstToken (decoderInit_phase s)) k).trans hk, decodeStream_phase s, rfl⟩

/-- Settles O7: the fetch reads the fields that DPRO and DSTEP read, and the token it assembles means
what they do with them. -/
theorem tokenStepsAreTheDecodersMicroOperations :
    Obligations.TokenStepsAreTheDecodersMicroOperations :=
  fun _ => ⟨step_firstToken, step_laterToken⟩

/-- Settles O5, by the agreement of the fetch with the decoder on the unread bits. -/
theorem stepRunsTheDecodedToken : Obligations.StepRunsTheDecodedToken := by
  intro s hrun hcur
  rw [step_of_running hrun]
  obtain ⟨i, rest, u, code, hdec, hcode, hf, hu, hrest, -, -⟩ |
    ⟨e, u, d, hdec, -, -, hend, hlen, hprev, hentry, hf⟩ := fetchToken_spec (tokenCtx s) s hcur
  · rw [hdec]
    exact ⟨u, code, hcode, hu, hrest, tokenStep_of_token hf⟩
  · rw [hdec]
    exact ⟨u, d, hprev, hentry, hend, hlen, tokenStep_of_raised hf⟩

/-- Settles O6, by the two cases of CMD. -/
theorem stepRunsThePendingCommand : Obligations.StepRunsThePendingCommand := by
  intro s hidle
  rw [step_of_idle hidle]
  refine ⟨fun op hcmd => ?_, fun hcmd => ?_⟩
  · simp only [commandStep, hcmd, decodeCmd, takeCmd]
  · simp only [commandStep, hcmd]

end Sys2Proof.Machine
end

section
/-! Two runs of one command, for the proof that its result depends on its inputs alone (R50): loops run side by
side, and buffers and outputs that agree on what is ever read of them. -/

namespace Sys2Proof.Machine

/-! Two runs of a loop. -/

/-- What the test respects and a round of both runs keeps, the two loops keep. -/
theorem whileUpTo_rel {cond : State → Bool} {body : State → State} {R : State → State → Prop}
    (hc : ∀ s s', R s s' → cond s' = cond s)
    (hb : ∀ s s', cond s = true → R s s' → R (body s) (body s')) (n : Nat) {s s' : State}
    (h : R s s') : R (whileUpTo cond body n s) (whileUpTo cond body n s') := by
  induction n generalizing s s' with
  | zero => exact h
  | succ n ih =>
    simp only [whileUpTo, hc s s' h]
    split
    · exact ih (hb s s' ‹_› h)
    · exact h

/-! Buffers and outputs with the same contents up to their lengths. -/

/-- The same words below BUF_LEN; what stands above it is left over from earlier commands. -/
def WordsAgree (b b' : Buffer) : Prop := memUnits b'.mem b'.len = memUnits b.mem b.len

theorem wordsAgree_iff {b b' : Buffer} :
    WordsAgree b b' ↔ b'.len = b.len ∧ ∀ i, i < b.len → memRead b'.mem i = memRead b.mem i := by
  unfold WordsAgree
  rw [memUnits_eq_iff]
  exact and_congr_right fun h => by rw [h]

theorem WordsAgree.len {b b' : Buffer} (h : WordsAgree b b') : b'.len = b.len :=
  (wordsAgree_iff.1 h).1

theorem WordsAgree.appendBuf {b b' : Buffer} (h : WordsAgree b b') (v : Word) :
    WordsAgree (appendBuf b v) (appendBuf b' v) := by
  unfold WordsAgree at h ⊢
  rw [appendBuf_units, appendBuf_units, h]

theorem WordsAgree.xorWord {b b' : Buffer} (h : WordsAgree b b') (i : Nat) (l : Payload) :
    WordsAgree (xorWord i l b) (xorWord i l b') := by
  obtain ⟨hlen, hread⟩ := wordsAgree_iff.1 h
  refine wordsAgree_iff.2 ⟨hlen, fun j (hj : j < b.len) => ?_⟩
  rw [memRead_xorWord, memRead_xorWord]
  split_ifs with hji
  · rw [hread i (hji ▸ hj)]
  · exact hread j hj

theorem WordsAgree.xorWords {b b' : Buffer} (h : WordsAgree b b') (base : Nat) (r : Key)
    (f : Nat → Fin 4) (ts : List Nat) :
    WordsAgree (xorWords base r f ts b) (xorWords base r f ts b') :=
  List.foldl_rel (r := WordsAgree) h fun _ _ _ _ hc => hc.xorWord _ _

/-- The host reads the same from both outputs: presence, text and diagnosis. -/
structure OutAgree (o o' : OutPort) : Prop where
  null : o'.null = o.null
  dcause : o'.dcause = o.dcause
  dinfo : o'.dinfo = o.dinfo
  units : memUnits o'.mem o'.len = memUnits o.mem o.len

theorem OutAgree.output {s s' : State} (h : OutAgree s.out s'.out) : output s' = output s := by
  unfold Machine.output
  rw [h.null, h.units]

theorem OutAgree.appendOutAll {o o' : OutPort} (h : OutAgree o o') (p : Phrase) :
    OutAgree (appendOutAll o p) (appendOutAll o' p) := by
  obtain ⟨m, e, hm, -, -⟩ := appendOutAll_spec o p
  obtain ⟨m', e', hm', -, -⟩ := appendOutAll_spec o' p
  rw [e, e']
  exact ⟨h.null, h.dcause, h.dinfo, by rw [hm, hm', h.units]⟩

/-- CSTART clears all that the host reads (R230). -/
theorem commandStart_out_agree (s s' : State) :
    OutAgree (commandStart s).out (commandStart s').out := ⟨rfl, rfl, rfl, rfl⟩

theorem commandStart_words_agree (s s' : State) :
    WordsAgree (commandStart s).buf (commandStart s').buf := rfl

end Sys2Proof.Machine
end

section
/-! Two runs of the encoder agree wherever their input does: EINIT sets every register it reads (R150 to R156). -/

namespace Sys2Proof.Machine

/-- ESYM once its symbol is registered (R154). -/
def scanTail (c : Sym) (s : State) : State :=
  match dictFind s.dict s.width.nextId (s.enc.w ++ [c]) with
  | some _ => { s with enc := { s.enc with w := s.enc.w ++ [c] } }
  | none =>
    let t := insertPhrase (s.enc.w ++ [c]) false (emitPhrase s)
    { t with enc := { t.enc with w := [c] } }

theorem scanSym_eq (s : State) : scanSym s =
    scanTail (memRead s.port.inp s.enc.scan) (registerSym (memRead s.port.inp s.enc.scan)
      { s with enc := { s.enc with scan := s.enc.scan + 1 } }) := rfl

/-- Two runs of the encoder agree: the input, the words sent and the encoder's own registers. -/
structure EncAgree (s s' : State) : Prop where
  input : inUnits s' = inUnits s
  words : WordsAgree s.buf s'.buf
  dict : s'.dict = s.dict
  width : s'.width = s.width
  packer : s'.packer = s.packer
  enc : s'.enc = s.enc

namespace EncAgree

variable {s s' : State}

theorem pushBit (h : EncAgree s s') (b : Bool) : EncAgree (pushBit s b) (pushBit s' b) := by
  obtain ⟨hin, hwords, hdict, hwidth, hpacker, henc⟩ := h
  unfold Machine.pushBit
  rw [hpacker]
  split
  · exact ⟨hin, hwords.appendBuf _, hdict, hwidth, rfl, henc⟩
  · exact ⟨hin, hwords, hdict, hwidth, rfl, henc⟩

theorem pushField (h : EncAgree s s') (v n : Nat) :
    EncAgree (pushField v n s) (pushField v n s') :=
  List.foldl_rel (r := EncAgree) h fun _ _ _ _ hc => hc.pushBit _

theorem flushWord (h : EncAgree s s') : EncAgree (flushWord s) (flushWord s') := by
  obtain ⟨hin, hwords, hdict, hwidth, hpacker, henc⟩ := h
  refine ⟨hin, ?_, hdict, hwidth, rfl, henc⟩
  rw [flushWord_buf, flushWord_buf, hpacker]
  exact hwords.appendBuf _

theorem tick (h : EncAgree s s') : EncAgree (tick s) (tick s') :=
  { h with width := congrArg growth h.width }

theorem clearPending (h : EncAgree s s') (id : Nat) :
    EncAgree { s with dict := clearPending s.dict id } { s' with dict := clearPending s'.dict id } :=
  { h with dict := congrArg (Machine.clearPending · id) h.dict }

theorem withEnc (h : EncAgree s s') (e : Encoder) :
    EncAgree { s with enc := e } { s' with enc := e } := { h with enc := rfl }

theorem insertPhrase (h : EncAgree s s') (p : Phrase) (b : Bool) :
    EncAgree (insertPhrase p b s) (insertPhrase p b s') :=
  { h with
    dict := by simp only [insertPhrase_dict, h.dict, h.width]
    width := by simp only [insertPhrase_width, h.width] }

theorem find (h : EncAgree s s') (p : Phrase) :
    dictFind s'.dict s'.width.nextId p = dictFind s.dict s.width.nextId p := by
  rw [h.dict, h.width]

theorem registerSym (h : EncAgree s s') (c : Sym) :
    EncAgree (registerSym c s) (registerSym c s') := by
  unfold Machine.registerSym
  rw [h.find]
  cases dictFind s.dict s.width.nextId [c] with
  | none => exact h.insertPhrase [c] true
  | some id => exact h

theorem pushLiteral (h : EncAgree s s') (c : Sym) :
    EncAgree (pushLiteral c s) (pushLiteral c s') := by
  unfold Machine.pushLiteral
  rw [h.width]
  split
  · exact (h.pushField _ _).pushField _ _
  · exact (h.pushField _ _).pushField _ _

theorem emitId (h : EncAgree s s') : emitId s' = emitId s := by
  unfold Machine.emitId
  rw [h.find, h.enc]

theorem emitPhrase (h : EncAgree s s') : EncAgree (emitPhrase s) (emitPhrase s') := by
  unfold Machine.emitPhrase
  simp only [h.emitId, h.dict, h.enc, h.width]
  split
  · exact ((h.pushLiteral _).tick.clearPending _).tick
  · exact (h.pushField _ _).tick

theorem scanTail (h : EncAgree s s') (c : Sym) : EncAgree (scanTail c s) (scanTail c s') := by
  unfold Machine.scanTail
  rw [h.find, h.enc]
  cases dictFind s.dict s.width.nextId (s.enc.w ++ [c]) with
  | some id => exact h.withEnc _
  | none =>
    have hins := h.emitPhrase.insertPhrase (s.enc.w ++ [c]) false
    simp only [hins.enc]
    exact hins.withEnc _

/-- One step of the scan, inside the text. -/
theorem scanSym (h : EncAgree s s') (hscan : s.enc.scan < s.port.inLen) :
    EncAgree (scanSym s) (scanSym s') := by
  have hread : memRead s'.port.inp s'.enc.scan = memRead s.port.inp s.enc.scan := by
    obtain ⟨-, hunits⟩ := memUnits_eq_iff.1 h.input.symm
    rw [h.enc, hunits _ hscan]
  rw [scanSym_eq, scanSym_eq, hread, h.enc]
  exact ((h.withEnc _).registerSym _).scanTail _

theorem encoderFinish (h : EncAgree s s') : EncAgree (encoderFinish s) (encoderFinish s') := by
  have fin {t t' : State} (ht : EncAgree t t') :
      EncAgree (Machine.flushWord (Machine.pushField Config.codeEnd t.width.numBits t))
        (Machine.flushWord (Machine.pushField Config.codeEnd t'.width.numBits t')) := by
    rw [ht.width]
    exact (ht.pushField _ _).flushWord
  unfold Machine.encoderFinish
  rw [h.enc]
  split
  · exact fin h
  · exact fin h.emitPhrase

theorem inLen (h : EncAgree s s') : s'.port.inLen = s.port.inLen := (memUnits_eq_iff.1 h.input).1

end EncAgree

/-- EINIT sets all the encoder's registers, so only the input and BUF have to agree before it (R150). -/
theorem encoderInit_agree {s s' : State} (hin : inUnits s' = inUnits s)
    (hwords : WordsAgree s.buf s'.buf) : EncAgree (encoderInit s) (encoderInit s') :=
  ⟨hin, hwords, rfl, rfl, rfl, rfl⟩

theorem encodeText_agree {s s' : State} (hin : inUnits s' = inUnits s)
    (hwords : WordsAgree s.buf s'.buf) : EncAgree (encodeText s) (encodeText s') := by
  have hinit := encoderInit_agree hin hwords
  unfold encodeText
  rw [show s'.port.inLen = s.port.inLen from hinit.inLen]
  refine (whileUpTo_rel (R := EncAgree) (fun t t' h => ?_) (fun t t' ht h => ?_) _ hinit).encoderFinish
  · simp only [h.enc, h.inLen]
  · exact h.scanSym (of_decide_eq_true ht)

end Sys2Proof.Machine
end

section
/-! Two runs of the cipher agree wherever their words and keys do: a pass sets every register it reads (R207 to
R210). -/

namespace Sys2Proof.Machine

/-- Two runs of a pass agree: the words, and the cipher registers a pass reads. -/
structure PassAgree (s s' : State) : Prop where
  words : WordsAgree s.buf s'.buf
  z : s'.cipher.z = s.cipher.z
  inc : s'.cipher.inc = s.cipher.inc
  ci : s'.cipher.ci = s.cipher.ci

/-- What every part of a pass does: a keystream step, and the mixed value XORed into some words. -/
def cipherStep (dir : Dir) (base next : Nat) (f : Nat → Fin 4) (ts : List Nat) (s : State) : State :=
  { s with
    cipher := { keyStep dir s.cipher with ci := next }
    buf := xorWords base (keyStep dir s.cipher).rmix f ts s.buf }

theorem PassAgree.cipherStep {s s' : State} (h : PassAgree s s') (dir : Dir) (base next : Nat)
    (f : Nat → Fin 4) (ts : List Nat) :
    PassAgree (cipherStep dir base next f ts s) (cipherStep dir base next f ts s') := by
  have hz : (keyStep dir s'.cipher).z = (keyStep dir s.cipher).z := by
    cases dir <;> simp only [keyStep_forward_z, keyStep_backward_z, h.z, h.inc]
  have hr : (keyStep dir s'.cipher).rmix = (keyStep dir s.cipher).rmix := by
    rw [keyStep_rmix, keyStep_rmix, hz]
  refine ⟨?_, hz, h.inc, rfl⟩
  change WordsAgree (xorWords base _ f ts s.buf) (xorWords base _ f ts s'.buf)
  rw [hr]
  exact h.words.xorWords ..

/-- A full group of EPASS (R207) is such a part. -/
theorem encryptGroup_eq (s : State) : encryptGroup s =
    cipherStep .forward s.cipher.ci (s.cipher.ci + 4) groupLane [0, 1, 2, 3] s := rfl

/-- A full group of DPASS (R208) is one too. -/
theorem decryptGroup_eq (s : State) : decryptGroup s =
    cipherStep .backward (s.cipher.ci - 4) (s.cipher.ci - 4) groupLane [3, 2, 1, 0] s := rfl

theorem PassAgree.encryptGroup {s s' : State} (h : PassAgree s s') :
    PassAgree (encryptGroup s) (encryptGroup s') := by
  rw [encryptGroup_eq, encryptGroup_eq, h.ci]
  exact h.cipherStep ..

theorem PassAgree.decryptGroup {s s' : State} (h : PassAgree s s') :
    PassAgree (decryptGroup s) (decryptGroup s') := by
  rw [decryptGroup_eq, decryptGroup_eq, h.ci]
  exact h.cipherStep ..

/-- EPASS before its first step (R207). -/
def encryptStart (key : Key) (s : State) : State :=
  { s with cipher := { seed key (deriveInc key s.cipher) with ci := 0 } }

/-- The full groups of EPASS, in at most `n` rounds. -/
def encryptGroups (n : Nat) (s : State) : State :=
  whileUpTo (fun t => decide (t.cipher.ci + Config.group ≤ t.buf.len)) encryptGroup n s

/-- The trailing words of EPASS. -/
def encryptTail (s : State) : State :=
  if 0 < s.buf.len - s.cipher.ci then
    cipherStep .forward s.cipher.ci s.buf.len trailingLane (List.range (s.buf.len - s.cipher.ci)) s
  else s

theorem encryptPass_eq (key : Key) (s : State) :
    encryptPass key s = encryptTail (encryptGroups s.buf.len (encryptStart key s)) := rfl

/-- DPASS before its first step (R208). -/
def decryptStart (key : Key) (s : State) : State :=
  { s with cipher := { deriveInc key s.cipher with
      z := key + BitVec.ofNat 64 (stepCount s.buf.len + 1) * increment key
      ci := s.buf.len } }

/-- The trailing words of DPASS. -/
def decryptTail (s : State) : State :=
  if 0 < s.buf.len % Config.group then
    cipherStep .backward (s.buf.len - s.buf.len % Config.group) (s.buf.len - s.buf.len % Config.group)
      trailingLane (List.range (s.buf.len % Config.group)).reverse s
  else s

/-- The full groups of DPASS, in at most `n` rounds. -/
def decryptGroups (n : Nat) (s : State) : State :=
  whileUpTo (fun t => decide (0 < t.cipher.ci)) decryptGroup n s

theorem decryptPass_eq (key : Key) (s : State) :
    decryptPass key s = decryptGroups s.buf.len (decryptTail (decryptStart key s)) := rfl

theorem PassAgree.encryptTail {s s' : State} (h : PassAgree s s') :
    PassAgree (encryptTail s) (encryptTail s') := by
  unfold Machine.encryptTail
  rw [h.words.len, h.ci]
  split
  · exact h.cipherStep ..
  · exact h

theorem PassAgree.decryptTail {s s' : State} (h : PassAgree s s') :
    PassAgree (decryptTail s) (decryptTail s') := by
  unfold Machine.decryptTail
  rw [h.words.len]
  split
  · exact h.cipherStep ..
  · exact h

theorem PassAgree.encryptGroups {s s' : State} (h : PassAgree s s') (n : Nat) :
    PassAgree (encryptGroups n s) (encryptGroups n s') :=
  whileUpTo_rel (R := PassAgree) (fun _ _ ht => by rw [ht.ci, ht.words.len])
    (fun _ _ _ ht => ht.encryptGroup) n h

theorem PassAgree.decryptGroups {s s' : State} (h : PassAgree s s') (n : Nat) :
    PassAgree (decryptGroups n s) (decryptGroups n s') :=
  whileUpTo_rel (R := PassAgree) (fun _ _ ht => by rw [ht.ci])
    (fun _ _ _ ht => ht.decryptGroup) n h

/-- EPASS sets the cipher registers it reads, so only the words have to agree before it (R207). -/
theorem encryptPass_agree (key : Key) {s s' : State} (h : WordsAgree s.buf s'.buf) :
    WordsAgree (encryptPass key s).buf (encryptPass key s').buf := by
  have start : PassAgree (encryptStart key s) (encryptStart key s') := ⟨h, rfl, rfl, rfl⟩
  rw [encryptPass_eq, encryptPass_eq, h.len]
  exact (start.encryptGroups _).encryptTail.words

/-- DPASS sets the cipher registers it reads too (R208). -/
theorem decryptPass_agree (key : Key) {s s' : State} (h : WordsAgree s.buf s'.buf) :
    WordsAgree (decryptPass key s).buf (decryptPass key s').buf := by
  have start : PassAgree (decryptStart key s) (decryptStart key s') :=
    ⟨h, by simp only [decryptStart, h.len], rfl, h.len⟩
  rw [decryptPass_eq, decryptPass_eq, h.len]
  exact (start.decryptTail.decryptGroups _).words

/-- The host's key lists agree: both absent, or both present and equal. -/
structure KeysAgree (s s' : State) : Prop where
  keysNull : s'.port.keysNull = s.port.keysNull
  keys : s.port.keysNull = false → keyList s' = keyList s

theorem KeysAgree.engaged {s s' : State} (h : KeysAgree s s') :
    cipherEngaged s'.port = cipherEngaged s.port := by
  obtain ⟨hnull, hkeys⟩ := h
  unfold cipherEngaged
  rw [hnull]
  cases hk : s.port.keysNull with
  | true => rfl
  | false => rw [(memUnits_eq_iff.1 (hkeys hk)).1]

theorem KeysAgree.reads {s s' : State} (h : KeysAgree s s') (he : cipherEngaged s.port = true) :
    s'.port.nKeys = s.port.nKeys ∧
      ∀ k, k < s.port.nKeys → memRead s'.port.keys k = memRead s.port.keys k := by
  obtain ⟨hlen, hread⟩ := memUnits_eq_iff.1 (h.keys ((cipherEngaged_iff _).1 he).1)
  exact ⟨hlen, fun k hk => hread k (hlen ▸ hk)⟩

/-- Rounds over the same keys keep the words in agreement, where a round does and leaves the keys. -/
theorem foldl_words_agree {round : State → Nat → State} (hport : ∀ s k, (round s k).port = s.port)
    (hround : ∀ s s' k, memRead s'.port.keys k = memRead s.port.keys k →
      WordsAgree s.buf s'.buf → WordsAgree (round s k).buf (round s' k).buf)
    (ks : List Nat) {s s' : State} (h : WordsAgree s.buf s'.buf)
    (hk : ∀ k ∈ ks, memRead s'.port.keys k = memRead s.port.keys k) :
    WordsAgree (ks.foldl round s).buf (ks.foldl round s').buf := by
  induction ks generalizing s s' with
  | nil => exact h
  | cons k ks ih =>
    refine ih (hround s s' k (hk k List.mem_cons_self) h) fun k' hk' => ?_
    rw [hport, hport]
    exact hk k' (List.mem_cons_of_mem _ hk')

theorem CipherOnly.port {s t : State} (h : CipherOnly s t) : t.port = s.port := by rw [h.1]

theorem CipherOnly.out {s t : State} (h : CipherOnly s t) : t.out = s.out := by rw [h.1]

theorem CipherOnly.phase {s t : State} (h : CipherOnly s t) : t.phase = s.phase := by rw [h.1]

theorem encryptKey_agree {s s' : State} {k : Nat}
    (hkey : memRead s'.port.keys k = memRead s.port.keys k) (h : WordsAgree s.buf s'.buf) :
    WordsAgree (encryptKey s k).buf (encryptKey s' k).buf := by
  unfold encryptKey
  rw [hkey]
  exact encryptPass_agree _ (s := selectKey k s) (s' := selectKey k s') h

theorem decryptKey_agree {s s' : State} {k : Nat}
    (hkey : memRead s'.port.keys k = memRead s.port.keys k) (h : WordsAgree s.buf s'.buf) :
    WordsAgree (decryptKey s k).buf (decryptKey s' k).buf := by
  unfold decryptKey
  rw [hkey]
  exact decryptPass_agree _ (s := selectKey k s) (s' := selectKey k s') h

theorem encryptAll_agree {s s' : State} (h : WordsAgree s.buf s'.buf) (hk : KeysAgree s s') :
    WordsAgree (encryptAll s).buf (encryptAll s').buf := by
  unfold encryptAll
  rw [hk.engaged]
  split
  · obtain ⟨hlen, hread⟩ := hk.reads ‹_›
    rw [hlen]
    exact foldl_words_agree (fun s k => (encryptKey_only s k).1.port) (fun _ _ _ => encryptKey_agree)
      _ h fun k hmem => hread k (List.mem_range.1 hmem)
  · exact h

theorem decryptAll_agree {s s' : State} (h : WordsAgree s.buf s'.buf) (hk : KeysAgree s s') :
    WordsAgree (decryptAll s).buf (decryptAll s').buf := by
  unfold decryptAll
  rw [hk.engaged]
  split
  · obtain ⟨hlen, hread⟩ := hk.reads ‹_›
    rw [hlen]
    exact foldl_words_agree (fun s k => (decryptKey_only s k).1.port) (fun _ _ _ => decryptKey_agree)
      _ h fun k hmem => hread k (List.mem_range.1 (List.mem_reverse.1 hmem))
  · exact h

end Sys2Proof.Machine
end

section
/-! Two runs of the unpacker and of the decoder agree wherever their words do: DINIT and the first literal set
whatever the main loop reads (R170 to R180). -/

namespace Sys2Proof.Machine

/-- READBIT depends on the words and the cursor alone (R137). -/
theorem readBit_agree {s s' : State} (hw : WordsAgree s.buf s'.buf) (hu : s'.unpacker = s.unpacker) :
    (∃ b u, readBit s = .ok b { s with unpacker := u } ∧ readBit s' = .ok b { s' with unpacker := u }) ∨
    (readBit s = .raised (enterTrap .inputExhausted s.unpacker.uidx s) ∧
      readBit s' = .raised (enterTrap .inputExhausted s.unpacker.uidx s')) := by
  obtain ⟨hlen, hread⟩ := wordsAgree_iff.1 hw
  unfold readBit
  rw [hu, hlen]
  split_ifs with hmask hend
  · exact .inr ⟨rfl, rfl⟩
  · have hload : refill s' = { s' with unpacker := (refill s).unpacker } := by
      unfold refill
      rw [hu, hread _ (Nat.lt_of_not_le hend)]
    rw [hload]
    exact .inl ⟨_, _, rfl, rfl⟩
  · unfold yieldBit
    rw [hu]
    exact .inl ⟨_, _, rfl, rfl⟩

/-- READ depends on the words and the cursor alone (R138). -/
theorem readField_agree (n : Nat) {s s' : State} (hw : WordsAgree s.buf s'.buf)
    (hu : s'.unpacker = s.unpacker) :
    (∃ v u, readField n s = .ok v { s with unpacker := u } ∧
      readField n s' = .ok v { s' with unpacker := u }) ∨
    ∃ u, readField n s = .raised (enterTrap .inputExhausted u.uidx { s with unpacker := u }) ∧
      readField n s' = .raised (enterTrap .inputExhausted u.uidx { s' with unpacker := u }) := by
  induction n generalizing s s' with
  | zero => exact .inl ⟨0, s.unpacker, rfl, by rw [readField, ← hu]⟩
  | succ n ih =>
    unfold readField
    obtain ⟨b, u, e, e'⟩ | ⟨e, e'⟩ := readBit_agree hw hu
    · obtain ⟨v, u', f, f'⟩ | ⟨u', f, f'⟩ :=
        ih (s := { s with unpacker := u }) (s' := { s' with unpacker := u }) hw rfl
      · exact .inl ⟨b.toNat + 2 * v, u', by simp only [e, f], by simp only [e', f']⟩
      · exact .inr ⟨u', by simp only [e, f], by simp only [e', f']⟩
    · exact .inr ⟨s.unpacker, by simp only [e], by simp only [e', ← hu]⟩

/-- The fetch of a token depends on the words and the cursor alone (R171, R172). -/
theorem fetchToken_agree (ctx : TokenCtx) {s s' : State} (hw : WordsAgree s.buf s'.buf)
    (hu : s'.unpacker = s.unpacker) :
    (∃ code sym u,
      fetchToken ctx s =
        .ok (assemble ctx code sym) { s with unpacker := u, dec := { s.dec with code := code } } ∧
      fetchToken ctx s' =
        .ok (assemble ctx code sym) { s' with unpacker := u, dec := { s'.dec with code := code } }) ∨
    ∃ u d d',
      fetchToken ctx s =
        .raised (enterTrap .inputExhausted u.uidx { s with unpacker := u, dec := d }) ∧
      fetchToken ctx s' =
        .raised (enterTrap .inputExhausted u.uidx { s' with unpacker := u, dec := d' }) := by
  unfold fetchToken
  obtain ⟨code, u, e, e'⟩ | ⟨u, e, e'⟩ := readField_agree (codeWidth ctx) hw hu
  · obtain ⟨sym, u', f, f'⟩ | ⟨u', f, f'⟩ := readField_agree (symWidth code)
      (s := setCode code { s with unpacker := u }) (s' := setCode code { s' with unpacker := u }) hw rfl
    · exact .inl ⟨code, sym, u', by simp only [e, f]; rfl, by simp only [e', f']; rfl⟩
    · exact .inr ⟨u', _, _, by simp only [e, f]; rfl, by simp only [e', f']; rfl⟩
  · exact .inr ⟨u, s.dec, s'.dec, by simp only [e], by simp only [e']⟩

/-! The decoder. -/

/-- Two runs of the decoder agree: the words, the cursor, the dictionary, the output, and in the main loop
the code width and PREV. Before the first literal these two are left over from earlier commands. -/
structure DecAgree (s s' : State) : Prop where
  words : WordsAgree s.buf s'.buf
  unpacker : s'.unpacker = s.unpacker
  dict : s'.dict = s.dict
  phase : s'.phase = s.phase
  out : OutAgree s.out s'.out
  width : s.phase = .laterToken → s'.width = s.width
  prev : s.phase = .laterToken → s'.dec.prev = s.dec.prev

namespace DecAgree

variable {s s' : State}

/-- Moving the cursor and writing CODE (R138, R171). -/
theorem fetched (h : DecAgree s s') (u : Unpacker) (c : Nat) :
    DecAgree { s with unpacker := u, dec := { s.dec with code := c } }
      { s' with unpacker := u, dec := { s'.dec with code := c } } :=
  { h with unpacker := rfl }

/-- A raise discards everything on which the runs might not agree (R256). -/
theorem trap (hw : WordsAgree s.buf s'.buf) (hu : s'.unpacker = s.unpacker) (hd : s'.dict = s.dict)
    (c : Cause) (n : Nat) : DecAgree (enterTrap c n s) (enterTrap c n s') where
  words := hw
  unpacker := hu
  dict := hd
  phase := rfl
  out := ⟨rfl, rfl, rfl, rfl⟩
  width := nofun
  prev := nofun

theorem enterTrap (h : DecAgree s s') (c : Cause) (n : Nat) :
    DecAgree (enterTrap c n s) (enterTrap c n s') := trap h.words h.unpacker h.dict c n

theorem endCommand (h : DecAgree s s') : DecAgree (endCommand s) (endCommand s') :=
  { h with
    phase := rfl
    width := nofun
    prev := nofun }

theorem firstLiteral (h : DecAgree s s') (c : Sym) :
    DecAgree (firstLiteral c s) (firstLiteral c s') :=
  { h with
    dict := by simp only [firstLiteral_dict, h.dict]
    phase := rfl
    out := h.out.appendOutAll [c]
    width := fun _ => rfl
    prev := fun _ => rfl }

theorem endFirst (h : DecAgree s s') : DecAgree (endFirst s) (endFirst s') :=
  DecAgree.endCommand (s := { s with out := _ }) (s' := { s' with out := _ })
    { h with out := ⟨h.out.null, h.out.dcause, h.out.dinfo, rfl⟩ }

theorem literal (h : DecAgree s s') (hp : s.phase = .laterToken) (c : Sym) :
    DecAgree (literal c s) (literal c s') :=
  { h with
    dict := by simp only [literal_dict, h.dict, h.width hp]
    width := fun _ => by simp only [literal_width, h.width hp] }

theorem reference (h : DecAgree s s') (id : Nat) : DecAgree (reference id s) (reference id s') :=
  { h with }

theorem selfReference (h : DecAgree s s') : DecAgree (selfReference s) (selfReference s') :=
  { h with }

theorem applyEntry (h : DecAgree s s') (hp : s.phase = .laterToken)
    (he : s'.dec.entry = s.dec.entry) : DecAgree (applyEntry s) (applyEntry s') :=
  { h with
    dict := by simp only [applyEntry_dict, h.dict, h.width hp, h.prev hp, he]
    out := by simpa only [applyEntry_out, he] using h.out.appendOutAll s.dec.entry
    width := fun _ => by simp only [applyEntry_width, h.width hp]
    prev := fun _ => he }

end DecAgree

/-- Two outcomes are next states on which the decoder's runs agree. -/
def NextAgree (o o' : Host.Outcome State Fault Refusal) : Prop :=
  ∃ t t', o = .next t ∧ o' = .next t' ∧ DecAgree t t'

theorem DecAgree.next {t t' : State} (h : DecAgree t t') : NextAgree (.next t) (.next t') :=
  ⟨t, t', rfl, rfl, h⟩

/-- The tokens that stand first, run from states that agree (R171). -/
theorem DecAgree.runFirst {s s' : State} (h : DecAgree s s') (code sym : Nat) :
    NextAgree
      (retireOutcome (assemble .first code sym) (exec (assemble .first code sym) s))
      (retireOutcome (assemble .first code sym) (exec (assemble .first code sym) s')) := by
  obtain rfl | rfl | rfl | ⟨-, -, -, h3⟩ := code_cases code
  · exact (h.firstLiteral _).next
  · exact (h.firstLiteral _).next
  · exact h.endFirst.next
  · rw [assemble_first_illegal sym h3]
    exact (h.enterTrap _ _).next

/-- The tokens of the main loop, run from states that agree (R172). -/
theorem DecAgree.runLater {s s' : State} (h : DecAgree s s') (hp : s.phase = .laterToken)
    (n m code sym : Nat) :
    NextAgree
      (retireOutcome (assemble (.later n m) code sym) (exec (assemble (.later n m) code sym) s))
      (retireOutcome (assemble (.later n m) code sym) (exec (assemble (.later n m) code sym) s')) := by
  obtain rfl | rfl | rfl | ⟨-, -, -, h3⟩ := code_cases code
  · exact ((h.literal hp _).applyEntry hp rfl).next
  · exact ((h.literal hp _).applyEntry hp rfl).next
  · exact h.endCommand.next
  · obtain hlt | rfl | hgt := Nat.lt_trichotomy code m
    · rw [assemble_later_ref n m sym h3 hlt]
      exact ((h.reference code).applyEntry hp
        (by simp only [reference_dec, h.dict])).next
    · rw [assemble_later_sref n sym h3]
      exact (h.selfReference.applyEntry hp
        (by simp only [selfReference_dec, h.prev hp])).next
    · rw [assemble_later_illegal n m sym h3 hgt]
      exact (h.enterTrap _ _).next

/-- A token step of both runs at the same place of the stream: the fetch gives both the same token. -/
theorem tokenStep_agree {s s' : State} {ctx : TokenCtx} (h : DecAgree s s') (hc : tokenCtx s = ctx)
    (hc' : tokenCtx s' = ctx)
    (run : ∀ code sym t t', DecAgree t t' → t.phase = s.phase →
      NextAgree (retireOutcome (assemble ctx code sym) (exec (assemble ctx code sym) t))
        (retireOutcome (assemble ctx code sym) (exec (assemble ctx code sym) t'))) :
    NextAgree (tokenStep s) (tokenStep s') := by
  subst hc
  obtain ⟨code, sym, u, e, e'⟩ | ⟨u, d, d', e, e'⟩ := fetchToken_agree (tokenCtx s) h.words h.unpacker
  · rw [← hc'] at e'
    rw [tokenStep_of_token e, tokenStep_of_token e', hc']
    exact run code sym _ _ (h.fetched u code) rfl
  · rw [← hc'] at e'
    rw [tokenStep_of_raised e, tokenStep_of_raised e']
    exact (DecAgree.trap (s := { s with unpacker := u, dec := d })
      (s' := { s' with unpacker := u, dec := d' }) h.words rfl h.dict _ _).next

theorem NextAgree.states {t t' : State} (h : NextAgree (.next t) (.next t')) : DecAgree t t' := by
  obtain ⟨u, u', hu, hu', ha⟩ := h
  cases hu
  cases hu'
  exact ha

theorem prologue_agree {s s' : State} (h : DecAgree s s') (hp : s.phase = .firstToken) :
    DecAgree (prologue s) (prologue s') := by
  have hp' := h.phase.trans hp
  have hstep := tokenStep_agree h (tokenCtx_of_firstToken hp) (tokenCtx_of_firstToken hp')
    fun code sym _ _ ht _ => ht.runFirst code sym
  rw [tokenStep_eq_prologue hp, tokenStep_eq_prologue hp'] at hstep
  exact hstep.states

theorem decodeStep_agree {s s' : State} (h : DecAgree s s') (hp : s.phase = .laterToken) :
    DecAgree (decodeStep s) (decodeStep s') := by
  have hp' := h.phase.trans hp
  have hstep := tokenStep_agree h (tokenCtx_of_laterToken hp)
    (by rw [tokenCtx_of_laterToken hp', h.width hp])
    fun code sym _ _ ht htp => ht.runLater (htp.trans hp) _ _ code sym
  rw [tokenStep_eq_decodeStep hp, tokenStep_eq_decodeStep hp'] at hstep
  exact hstep.states

/-- DINIT clears the dictionary and the cursor, so only the words and the output have to agree before it
(R170). -/
theorem decodeStream_agree {s s' : State} (hw : WordsAgree s.buf s'.buf) (ho : OutAgree s.out s'.out) :
    DecAgree (decodeStream s) (decodeStream s') := by
  have hout : OutAgree (decoderInit s).out (decoderInit s').out := ⟨ho.null, ho.dcause, ho.dinfo, rfl⟩
  have hinit : DecAgree (decoderInit s) (decoderInit s') :=
    ⟨hw, rfl, rfl, rfl, hout, nofun, nofun⟩
  unfold decodeStream
  rw [hw.len]
  refine whileUpTo_rel (R := DecAgree) (fun t t' h => ?_) (fun t t' ht h => ?_) _
    (prologue_agree hinit rfl)
  · rw [h.phase]
  · exact decodeStep_agree h (of_decide_eq_true ht)

end Sys2Proof.Machine
end

section
/-! Proof that the result of a command depends on its inputs alone (R50), from the agreement of two runs in the
encoder, in the cipher and in the decoder. -/

namespace Sys2Proof.Machine

/-- What the host gives two commands agrees: R50's list, IN and KEYS as far as they are present. -/
structure InputsAgree (s s' : State) : Prop extends KeysAgree s s' where
  inNull : s'.port.inNull = s.port.inNull
  input : s.port.inNull = false → inUnits s' = inUnits s

theorem KeysAgree.of_port {s s' t t' : State} (h : KeysAgree s s') (ht : t.port = s.port)
    (ht' : t'.port = s'.port) : KeysAgree t t' := by
  obtain ⟨hnull, hkeys⟩ := h
  refine ⟨?_, ?_⟩
  · rw [ht, ht', hnull]
  · unfold keyList
    rw [ht, ht']
    exact hkeys

/-- COMPRESS by its three branches (R231). -/
theorem compressText_eq (s : State) : compressText s =
    if s.port.inNull then absentResult (commandStart s)
    else if s.port.inLen = 0 then endCommand (commandStart s)
    else endCommand (copyOut (encryptIfEngaged (encodeText (commandStart s)))) := rfl

/-- DECOMPRESS by its three branches (R232). -/
theorem decompressText_eq (s : State) : decompressText s =
    if s.port.inNull then absentResult (commandStart s)
    else if s.port.inLen = 0 then endCommand (commandStart s)
    else decodeStream (decryptIfEngaged (copyIn (commandStart s))) := rfl

/-- Both commands take the same branch in both runs, and there is nothing to show but for a text (R234,
R235). -/
theorem branches_agree {s s' f f' : State} (h : InputsAgree s s')
    (text : inUnits s' = inUnits s → OutAgree f.out f'.out) :
    OutAgree
      (if s.port.inNull then absentResult (commandStart s)
        else if s.port.inLen = 0 then endCommand (commandStart s) else f).out
      (if s'.port.inNull then absentResult (commandStart s')
        else if s'.port.inLen = 0 then endCommand (commandStart s') else f').out := by
  rw [h.inNull]
  by_cases hn : s.port.inNull = true
  · rw [if_pos hn, if_pos hn]
    exact ⟨rfl, rfl, rfl, rfl⟩
  · have hin := h.input (by simpa using hn)
    rw [if_neg hn, if_neg hn, (memUnits_eq_iff.1 hin).1]
    split
    · exact commandStart_out_agree s s'
    · exact text hin

theorem copyOut_agree {s s' : State} (hw : WordsAgree s.buf s'.buf) (ho : OutAgree s.out s'.out) :
    OutAgree (copyOut s).out (copyOut s').out := by
  refine ⟨ho.null, ho.dcause, ho.dinfo, ?_⟩
  change outUnits (copyOut s') = outUnits (copyOut s)
  rw [outUnits_copyOut, outUnits_copyOut]
  exact hw

theorem compressText_agree {s s' : State} (h : InputsAgree s s') :
    OutAgree (compressText s).out (compressText s').out := by
  rw [compressText_eq, compressText_eq]
  refine branches_agree h fun hin => ?_
  have henc := encodeText_agree (s := commandStart s) (s' := commandStart s') hin
    (commandStart_words_agree s s')
  have same := encodeText_same (commandStart s)
  have same' := encodeText_same (commandStart s')
  refine copyOut_agree ?_ ?_
  · rw [encryptIfEngaged_eq, encryptIfEngaged_eq]
    exact encryptAll_agree henc.words (h.toKeysAgree.of_port same.port same'.port)
  · rw [(encryptIfEngaged_only _).out, (encryptIfEngaged_only _).out, same.out, same'.out]
    exact commandStart_out_agree s s'

theorem decompressText_agree {s s' : State} (h : InputsAgree s s') :
    OutAgree (decompressText s).out (decompressText s').out := by
  rw [decompressText_eq, decompressText_eq]
  refine branches_agree h fun hin => (decodeStream_agree ?_ ?_).out
  · rw [decryptIfEngaged_eq, decryptIfEngaged_eq]
    refine decryptAll_agree ?_ (h.toKeysAgree.of_port rfl rfl)
    change bufWords (copyIn (commandStart s')) = bufWords (copyIn (commandStart s))
    rw [bufWords_copyIn, bufWords_copyIn]
    exact hin
  · rw [(decryptIfEngaged_only _).out, (decryptIfEngaged_only _).out]
    exact commandStart_out_agree s s'

/-! The obligation. -/

/-- Settles O54: both commands set every register and every word they come to read, so two runs whose
inputs agree show the host the same. -/
theorem resultDependsOnInputsAlone : Obligations.ResultDependsOnInputsAlone := by
  intro s s' i hi hnull hkeysNull hin hkeys
  have h : InputsAgree s s' := ⟨⟨hkeysNull, hkeys⟩, hnull, hin⟩
  obtain rfl | rfl := hi
  · have ha := compressText_agree h
    exact ⟨_, _, rfl, rfl, ha.output, ha.dcause, ha.dinfo⟩
  · have ha := decompressText_agree h
    exact ⟨_, _, rfl, rfl, ha.output, ha.dcause, ha.dinfo⟩

end Sys2Proof.Machine
end

section
/-! Proofs that every step keeps the block's invariant (R36 to R40, R43, R181): one lemma for each operation
a step is made of, each of which keeps `StateInv` where the sequencer performs it. -/

namespace Sys2Proof.Machine

/-! The registers and memories the encoder writes (R38, R39, R47, R48). -/

/-- The part of the invariant that speaks of what the encoder writes. -/
structure EncoderWf (s : State) : Prop where
  buf_wf : MemWf s.buf.mem
  dict_sorted : TableSorted s.dict
  numBits_ge : 2 ≤ s.width.numBits
  enlargeIn_pos : 1 ≤ s.width.enlargeIn
  nextId_ge : 3 ≤ s.width.nextId
  acc_lt : PackerWf s.packer

theorem clearPending_sorted {d : Dict} (id : Nat) (h : TableSorted d) :
    TableSorted (clearPending d id) := by
  unfold clearPending
  split
  · exact tableSet_sorted _ _ h
  · exact h

namespace EncoderWf

variable {s : State}

theorem pushField (h : EncoderWf s) (v n : Nat) : EncoderWf (pushField v n s) := by
  obtain ⟨buf, p, e, hp, -, hb⟩ := pushBits_spec (fieldBits v n) s h.acc_lt
  have hpush : Machine.pushField v n s = { s with buf := buf, packer := p } := e
  rw [hpush]
  exact { h with buf_wf := hb.wf h.buf_wf, acc_lt := hp }

theorem flushWord (h : EncoderWf s) : EncoderWf (flushWord s) :=
  { h with buf_wf := memWrite_wf _ _ h.buf_wf, acc_lt := Nat.one_pos }

theorem tick (h : EncoderWf s) : EncoderWf (tick s) :=
  { h with
    numBits_ge := h.numBits_ge.trans (growth_numBits_le _)
    enlargeIn_pos := growth_enlargeIn_pos _ h.enlargeIn_pos
    nextId_ge := by simpa only [tick_width, growth_nextId] using h.nextId_ge }

theorem insertPhrase (h : EncoderWf s) (p : Phrase) (b : Bool) : EncoderWf (insertPhrase p b s) :=
  { h with
    dict_sorted := tableSet_sorted _ _ h.dict_sorted
    nextId_ge := Nat.le_succ_of_le h.nextId_ge }

theorem clearPending (h : EncoderWf s) (id : Nat) :
    EncoderWf { s with dict := clearPending s.dict id } :=
  { h with dict_sorted := clearPending_sorted id h.dict_sorted }

theorem withEnc (h : EncoderWf s) (e : Encoder) : EncoderWf { s with enc := e } := { h with }

theorem registerSym (h : EncoderWf s) (c : Sym) : EncoderWf (registerSym c s) := by
  obtain ⟨-, e⟩ | ⟨-, e⟩ := registerSym_cases c s
  · rwa [e]
  · rw [e]
    exact h.insertPhrase _ _

theorem pushLiteral (h : EncoderWf s) (c : Sym) : EncoderWf (pushLiteral c s) := by
  unfold Machine.pushLiteral
  split
  · exact (h.pushField _ _).pushField _ _
  · exact (h.pushField _ _).pushField _ _

theorem emitPhrase (h : EncoderWf s) : EncoderWf (emitPhrase s) := by
  unfold Machine.emitPhrase
  dsimp only
  split
  · exact ((h.pushLiteral _).tick.clearPending _).tick
  · exact (h.pushField _ _).tick

theorem scanTail (h : EncoderWf s) (c : Sym) : EncoderWf (scanTail c s) := by
  unfold Machine.scanTail
  split
  · exact h.withEnc _
  · exact (h.emitPhrase.insertPhrase _ _).withEnc _

theorem scanSym (h : EncoderWf s) : EncoderWf (scanSym s) := by
  rw [scanSym_eq]
  exact ((h.withEnc _).registerSym _).scanTail _

theorem encoderFinish (h : EncoderWf s) : EncoderWf (encoderFinish s) := by
  unfold Machine.encoderFinish
  dsimp only
  split
  · exact (h.pushField _ _).flushWord
  · exact (h.emitPhrase.pushField _ _).flushWord

end EncoderWf

/-- EINIT gives all of them values in range but BUF, which it leaves (R150). -/
theorem encodeText_wf {s : State} (h : MemWf s.buf.mem) : EncoderWf (encodeText s) := by
  have hinit : EncoderWf (encoderInit s) :=
    ⟨h, List.Pairwise.nil, Nat.le_refl 2, Nat.le_succ 1, Nat.le_refl 3, Nat.one_pos⟩
  exact (whileUpTo_inv (P := EncoderWf) (fun _ _ ht => ht.scanSym) _ _ hinit).encoderFinish

/-! The decoder's own invariant (R181). -/

/-- The ids assigned fill at least half of the code space, so the next one is above 3 (R181). -/
theorem LoopInv.nextId_ge {s : State} (h : LoopInv s) : 4 ≤ s.width.nextId := by
  obtain ⟨hbits, hspace, -, hle, -, -, -, -⟩ := h
  have hhalf : 2 ^ s.width.numBits = 2 * 2 ^ (s.width.numBits - 1) := by
    rw [← pow_succ', Nat.sub_add_cancel (by omega)]
  have hfour : 2 ^ 2 ≤ 2 ^ (s.width.numBits - 1) := Nat.pow_le_pow_right (by omega) (by omega)
  omega

/-- Writing an entry and ticking keep the main loop's invariant, PREV being where it has to be. -/
theorem LoopInv.entryWritten {s t : State} {p : Phrase} (h : LoopInv s) (hp : p ≠ [])
    (hwidth : t.width = growth { s.width with nextId := s.width.nextId + 1 })
    (hdict : t.dict = dictWrite s.dict s.width.nextId p false)
    (hprev : t.dec.prev ≠ []) (hout : t.dec.prev <:+ outUnits t) : LoopInv t := by
  have hid3 := h.nextId_ge
  obtain ⟨hbits, hspace, hpos, hle, hdense, hne, -, -⟩ := h
  have hgrow := growth_codeSpace { s.width with nextId := s.width.nextId + 1 } hpos
  refine ⟨?_, ?_, ?_, ?_, fun id => ?_, fun id q hq => ?_, hprev, hout⟩
  · rw [hwidth]
    exact hbits.trans (growth_numBits_le { s.width with nextId := s.width.nextId + 1 })
  · rw [hwidth, growth_nextId]
    dsimp only at hgrow ⊢
    omega
  · rw [hwidth]
    exact growth_enlargeIn_pos _ hpos
  · rw [hwidth]
    exact growth_enlargeIn_le _ hpos hle
  · rw [hwidth, growth_nextId, hdict, dictWrite, tableGet_tableSet]
    dsimp only
    split_ifs with hid
    · simp only [Option.isSome_some, true_iff]
      omega
    · rw [hdense]
      omega
  · rw [hdict, dictPhrase?_dictWrite] at hq
    split_ifs at hq
    · cases hq
      exact hp
    · exact hne id q hq

theorem outUnits_appendOutAll {s t : State} {p : Phrase} (h : t.out = appendOutAll s.out p) :
    outUnits t = outUnits s ++ p := by
  obtain ⟨m, e, hm, -, -⟩ := appendOutAll_spec s.out p
  unfold outUnits
  rw [h, e]
  exact hm

theorem appendOutAll_wf {o : OutPort} (p : Phrase) (h : MemWf o.mem) : MemWf (appendOutAll o p).mem := by
  obtain ⟨m, e, -, -, hwf⟩ := appendOutAll_spec o p
  rw [e]
  exact hwf h

/-- The first literal starts the main loop in its invariant (R171, R181). -/
theorem firstLiteral_loopInv {s : State} (c : Sym) (h : s.dict = []) : LoopInv (firstLiteral c s) := by
  refine ⟨Nat.le_refl 3, rfl, Nat.le_add_left 1 3, Nat.le_refl 4, fun id => ?_, fun id p hp => ?_,
    List.cons_ne_nil c [], ?_⟩
  · rw [firstLiteral_dict, h, dictWrite, tableGet_tableSet]
    change _ ↔ 3 ≤ id ∧ id < 4
    split_ifs with hid
    · simp only [Option.isSome_some, true_iff]
      omega
    · simp only [tableGet, Option.isSome_none, Bool.false_eq_true, false_iff]
      omega
  · rw [firstLiteral_dict, h, dictPhrase?_dictWrite] at hp
    split_ifs at hp
    · cases hp
      exact List.cons_ne_nil c []
    · cases hp
  · rw [outUnits_appendOutAll (s := s) (p := [c]) rfl]
    exact List.suffix_append _ _

theorem LoopInv.literal {s : State} (h : LoopInv s) (c : Sym) : LoopInv (literal c s) :=
  h.entryWritten (List.cons_ne_nil c []) rfl rfl h.prev_ne h.out_ends

theorem LoopInv.applyEntry {s : State} (h : LoopInv s) (he : s.dec.entry ≠ []) :
    LoopInv (applyEntry s) := by
  refine h.entryWritten (List.append_ne_nil_of_right_ne_nil _ (List.cons_ne_nil _ [])) rfl rfl he ?_
  rw [outUnits_appendOutAll (s := s) (p := s.dec.entry) rfl]
  exact List.suffix_append _ _

/-- An id below NEXTID names a phrase that is not empty (R48, R181). -/
theorem LoopInv.dictRead_ne {s : State} (h : LoopInv s) {id : Nat} (h3 : 3 ≤ id)
    (hlt : id < s.width.nextId) : dictRead s.dict id ≠ [] := by
  obtain ⟨e, he⟩ := Option.isSome_iff_exists.1 ((h.dense id).2 ⟨h3, hlt⟩)
  have hp : dictPhrase? s.dict id = some e.phrase := dictPhrase?_eq_some_iff.2 ⟨e, he, rfl⟩
  rw [dictRead_of_phrase hp]
  exact h.nonempty id _ hp

/-! What the operations of a command keep of the whole invariant. -/

theorem ne_firstToken_of_idle {p : Phase} (h : p = .idle) : p ≠ .firstToken := by rw [h]; nofun

theorem ne_laterToken_of_idle {p : Phase} (h : p = .idle) : p ≠ .laterToken := by rw [h]; nofun

namespace StateInv

variable {s t : State}

theorem takeCmd (h : StateInv s) : StateInv (takeCmd s) :=
  { h with looping := fun hp => { h.looping hp with } }

theorem endCommand (h : StateInv s) : StateInv (endCommand s) :=
  { h with running := nofun, starting := nofun, looping := nofun }

theorem enterTrap (h : StateInv s) (c : Cause) (n : Nat) : StateInv (enterTrap c n s) :=
  { h with
    absent := nofun
    cause := fun _ => ⟨rfl, rfl⟩
    running := nofun
    starting := nofun
    looping := nofun }

theorem commandStart (h : StateInv s) (hidle : s.phase = .idle) : StateInv (commandStart s) :=
  { h with
    absent := nofun
    cause := fun hc => absurd rfl hc
    running := fun hp => absurd hidle hp
    starting := fun hp => absurd hp (ne_firstToken_of_idle hidle)
    looping := fun hp => absurd hp (ne_laterToken_of_idle hidle) }

theorem absentResult (h : StateInv s) (hlen : s.out.len = 0) (hc : s.out.dcause = 0) :
    StateInv (absentResult s) :=
  { h with
    absent := fun _ => hlen
    cause := fun hn => absurd hc hn
    running := nofun
    starting := nofun
    looping := nofun }

/-- ENCODE, by what it leaves and what it keeps in range (R150 to R156). -/
theorem encodeText (h : StateInv s) (hidle : s.phase = .idle) : StateInv (encodeText s) := by
  obtain ⟨hport, hout, hunpacker, -, hcipher, hphase, -⟩ := encodeText_same s
  have hwf := encodeText_wf h.buf_wf
  rw [← hphase] at hidle
  exact
    { hwf with
      inp_wf := hport ▸ h.inp_wf
      keys_wf := hport ▸ h.keys_wf
      out_wf := hout ▸ h.out_wf
      cursor := hunpacker ▸ h.cursor
      inc_odd := hcipher ▸ h.inc_odd
      absent := hout ▸ h.absent
      cause := hout ▸ h.cause
      running := fun hp => absurd hidle hp
      starting := fun hp => absurd hp (ne_firstToken_of_idle hidle)
      looping := fun hp => absurd hp (ne_laterToken_of_idle hidle) }

/-- ENCRYPT and DECRYPT, by what they leave (R207 to R210). -/
theorem ciphered (h : StateInv s) (hidle : s.phase = .idle) (ht : CipherOnly s t)
    (hodd : t.cipher.inc.toNat % 2 = 1) : StateInv t := by
  obtain ⟨e, -, hwf⟩ := ht
  have hbuf := hwf h.buf_wf
  rw [e]
  exact
    { h with
      buf_wf := hbuf
      inc_odd := hodd
      running := fun hp => absurd hidle hp
      starting := fun hp => absurd hp (ne_firstToken_of_idle hidle)
      looping := fun hp => absurd hp (ne_laterToken_of_idle hidle) }

theorem encryptAll (h : StateInv s) (hidle : s.phase = .idle) : StateInv (encryptAll s) :=
  h.ciphered hidle (encryptAll_only s).1 ((encryptAll_only s).2 h.inc_odd)

theorem decryptAll (h : StateInv s) (hidle : s.phase = .idle) : StateInv (decryptAll s) :=
  h.ciphered hidle (decryptAll_only s).1 ((decryptAll_only s).2 h.inc_odd)

theorem copyOut (h : StateInv s) (hidle : s.phase = .idle) (hnull : s.out.null = false)
    (hc : s.out.dcause = 0) : StateInv (copyOut s) :=
  { h with
    out_wf := memCopy_wf _ _ h.out_wf
    absent := fun hn => absurd (hnull.symm.trans hn) Bool.false_ne_true
    cause := fun hn => absurd hc hn
    running := fun hp => absurd hidle hp
    starting := fun hp => absurd hp (ne_firstToken_of_idle hidle)
    looping := fun hp => absurd hp (ne_laterToken_of_idle hidle) }

theorem copyIn (h : StateInv s) (hidle : s.phase = .idle) : StateInv (copyIn s) :=
  { h with
    buf_wf := memCopy_wf _ _ h.buf_wf
    running := fun hp => absurd hidle hp
    starting := fun hp => absurd hp (ne_firstToken_of_idle hidle)
    looping := fun hp => absurd hp (ne_laterToken_of_idle hidle) }

/-! The decoder. -/

theorem decoderInit (h : StateInv s) (hnull : s.out.null = false) (hc : s.out.dcause = 0) :
    StateInv (decoderInit s) :=
  { h with
    dict_sorted := List.Pairwise.nil
    cursor := ⟨.inl rfl, fun _ => rfl⟩
    absent := fun _ => rfl
    cause := fun hn => absurd hc hn
    running := fun _ => ⟨hnull, hc, Nat.zero_le _⟩
    starting := fun _ => ⟨rfl, rfl⟩
    looping := nofun }

/-- The fetch of a token's fields moves the cursor inside the stream (R138). -/
theorem fetched (h : StateInv s) {u : Unpacker} (hu : Moved s u) (c : Nat) :
    StateInv { s with unpacker := u, dec := { s.dec with code := c } } :=
  { h with
    cursor := (hu h.cursor).1
    running := fun hp =>
      have ⟨hnull, hc, hle⟩ := h.running hp
      ⟨hnull, hc, (hu h.cursor).2 hle⟩
    looping := fun hp => { h.looping hp with } }

theorem firstLiteral (h : StateInv s) (hp : s.phase = .firstToken) (c : Sym) :
    StateInv (firstLiteral c s) := by
  have hrun := h.running (hp ▸ nofun)
  exact
    { h with
      out_wf := appendOutAll_wf [c] h.out_wf
      dict_sorted := tableSet_sorted _ _ h.dict_sorted
      numBits_ge := Nat.le_succ 2
      enlargeIn_pos := Nat.le_add_left 1 3
      nextId_ge := Nat.le_succ 3
      absent := fun hn => absurd (hrun.1.symm.trans hn) Bool.false_ne_true
      cause := fun hn => absurd hrun.2.1 hn
      running := fun _ => hrun
      starting := nofun
      looping := fun _ => firstLiteral_loopInv c (h.starting hp).1 }

theorem endFirst (h : StateInv s) (hp : s.phase = .firstToken) : StateInv (endFirst s) := by
  have hrun := h.running (hp ▸ nofun)
  exact
    { h with
      absent := fun _ => rfl
      cause := fun hn => absurd hrun.2.1 hn
      running := nofun
      starting := nofun
      looping := nofun }

theorem literal (h : StateInv s) (hp : s.phase = .laterToken) (c : Sym) : StateInv (literal c s) := by
  have hloop := (h.looping hp).literal c
  exact
    { h with
      dict_sorted := tableSet_sorted _ _ h.dict_sorted
      numBits_ge := (Nat.le_succ 2).trans hloop.numBits_ge
      enlargeIn_pos := hloop.enlargeIn_pos
      nextId_ge := (Nat.le_succ 3).trans hloop.nextId_ge
      starting := fun hf => absurd (hp.symm.trans hf) nofun
      looping := fun _ => hloop }

theorem applyEntry (h : StateInv s) (hp : s.phase = .laterToken) (he : s.dec.entry ≠ []) :
    StateInv (applyEntry s) := by
  have hrun := h.running (hp ▸ nofun)
  have hloop := (h.looping hp).applyEntry he
  have hnull : (Machine.applyEntry s).out.null = false := (appendOutAll_null _ _).trans hrun.1
  have hc : (Machine.applyEntry s).out.dcause = 0 := (appendOutAll_dcause _ _).trans hrun.2.1
  exact
    { h with
      out_wf := appendOutAll_wf _ h.out_wf
      dict_sorted := tableSet_sorted _ _ h.dict_sorted
      numBits_ge := (Nat.le_succ 2).trans hloop.numBits_ge
      enlargeIn_pos := hloop.enlargeIn_pos
      nextId_ge := (Nat.le_succ 3).trans hloop.nextId_ge
      absent := fun hn => absurd (hnull.symm.trans hn) Bool.false_ne_true
      cause := fun hn => absurd hc hn
      running := fun _ => ⟨hnull, hc, hrun.2.2⟩
      starting := fun hf => absurd (hp.symm.trans hf) nofun
      looping := fun _ => hloop }

theorem reference (h : StateInv s) (id : Nat) : StateInv (reference id s) :=
  { h with looping := fun hp => { h.looping hp with } }

theorem selfReference (h : StateInv s) : StateInv (selfReference s) :=
  { h with looping := fun hp => { h.looping hp with } }

theorem prologue (h : StateInv s) (hp : s.phase = .firstToken) : StateInv (prologue s) := by
  apply prologue_cases (P := StateInv) s
  case lit => exact fun c u code hu => (h.fetched hu code).firstLiteral hp c
  case fin => exact fun u hu => (h.fetched hu 2).endFirst hp
  case bad => exact fun u code hu => (h.fetched hu code).enterTrap _ _
  case out => exact fun u code hu => (h.fetched hu.1 code).enterTrap _ _

theorem decodeStep (h : StateInv s) (hp : s.phase = .laterToken) : StateInv (decodeStep s) := by
  have hloop := h.looping hp
  apply decodeStep_cases (P := StateInv) s
  case lit => exact fun c u code hu =>
    ((h.fetched hu code).literal hp c).applyEntry hp (List.cons_ne_nil c [])
  case fin => exact fun u hu => (h.fetched hu 2).endCommand
  case ref => exact fun u code hu h3 hlt =>
    ((h.fetched hu code).reference code).applyEntry hp (hloop.dictRead_ne h3 hlt)
  case sref => exact fun u code hu _ =>
    (h.fetched hu code).selfReference.applyEntry hp (List.append_ne_nil_of_left_ne_nil hloop.prev_ne _)
  case bad => exact fun u code hu _ => (h.fetched hu code).enterTrap _ _
  case out => exact fun u code hu => (h.fetched hu.1 code).enterTrap _ _

theorem decodeStream (h : StateInv s) (hnull : s.out.null = false) (hc : s.out.dcause = 0) :
    StateInv (decodeStream s) :=
  whileUpTo_inv (P := StateInv) (fun _ ht hi => hi.decodeStep (of_decide_eq_true ht)) _ _
    ((h.decoderInit hnull hc).prologue rfl)

/-! The commands and the step. -/

theorem compressText (h : StateInv s) (hidle : s.phase = .idle) : StateInv (compressText s) := by
  have hstart := h.commandStart hidle
  rw [compressText_eq]
  split_ifs
  · exact hstart.absentResult rfl rfl
  · exact hstart.endCommand
  · obtain ⟨-, hout, -, -, -, hphase, -⟩ := encodeText_same (Machine.commandStart s)
    have henc := hstart.encodeText hidle
    have hcip := (encryptAll_only (Machine.encodeText (Machine.commandStart s))).1
    rw [encryptIfEngaged_eq]
    refine ((henc.encryptAll (hphase.trans hidle)).copyOut (hcip.phase.trans (hphase.trans hidle))
      ?_ ?_).endCommand
    · rw [hcip.out, hout]; rfl
    · rw [hcip.out, hout]; rfl

theorem decompressText (h : StateInv s) (hidle : s.phase = .idle) : StateInv (decompressText s) := by
  have hstart := h.commandStart hidle
  rw [decompressText_eq]
  split_ifs
  · exact hstart.absentResult rfl rfl
  · exact hstart.endCommand
  · have hout := (decryptAll_only (Machine.copyIn (Machine.commandStart s))).1.out
    rw [decryptIfEngaged_eq]
    refine ((hstart.copyIn hidle).decryptAll hidle).decodeStream ?_ ?_
    · rw [hout]; rfl
    · rw [hout]; rfl

theorem commandStep (h : StateInv s) (hidle : s.phase = .idle) (ht : commandStep s = .next t) :
    StateInv t := by
  unfold Machine.commandStep at ht
  cases hcmd : s.port.cmd with
  | none =>
    rw [hcmd] at ht
    cases ht
    exact h
  | some op =>
    rw [hcmd] at ht
    dsimp only [decodeCmd] at ht
    split at ht
    · cases ht
      exact h.takeCmd.compressText hidle
    · cases ht
      exact h.takeCmd.decompressText hidle

end StateInv

/-! The obligation. -/

/-- Settles O58: in each phase the step is a command, the prologue or one iteration of the main loop, and
each of them keeps the invariant. -/
theorem stepsKeepTheInvariant : Obligations.StepsKeepTheInvariant := by
  intro s t h ht
  cases hp : s.phase with
  | idle =>
    rw [step_of_idle hp] at ht
    exact h.commandStep hp ht
  | firstToken =>
    rw [step_firstToken hp] at ht
    cases ht
    exact h.prologue hp
  | laterToken =>
    rw [step_laterToken hp] at ht
    cases ht
    exact h.decodeStep hp

end Sys2Proof.Machine
end

section
/-! Proofs of the rules about the whole machine: what reset leaves (R61), that the decoder sets no PENDING bit
(R44), that no operation writes the host's inputs (R34, R35, R45), and which write DCAUSE and DINFO (R37). -/

namespace Sys2Proof.Machine

/-! Reset. -/

/-- Settles O57: the memories are empty, the registers have the values of log 5, and no token stream is
being read. -/
theorem resetMeetsTheInvariant : Obligations.ResetMeetsTheInvariant where
  inp_wf := ⟨List.Pairwise.nil, nofun⟩
  keys_wf := ⟨List.Pairwise.nil, nofun⟩
  out_wf := ⟨List.Pairwise.nil, nofun⟩
  buf_wf := ⟨List.Pairwise.nil, nofun⟩
  dict_sorted := List.Pairwise.nil
  numBits_ge := Nat.le_refl 2
  enlargeIn_pos := Nat.le_succ 1
  nextId_ge := Nat.le_refl 3
  acc_lt := Nat.one_pos
  cursor := ⟨.inl rfl, fun _ => rfl⟩
  inc_odd := by decide
  absent := nofun
  cause := fun hc => absurd rfl hc
  running := fun hr => absurd rfl hr
  starting := nofun
  looping := nofun

/-- Settles O10: reset leaves no CMD, and without one a step of the idle block does nothing (R62). -/
theorem resetLeavesTheBlockIdle : Obligations.ResetLeavesTheBlockIdle := by
  refine ⟨rfl, rfl, rfl, rfl, rfl, rfl, ?_⟩
  rw [step_of_idle (s := State.reset) rfl]
  rfl

/-! PENDING bits. -/

/-- Every entry pending after is the same entry, pending, before. -/
def NoNewPending (d d' : Dict) : Prop :=
  ∀ id e, tableGet d' id = some e → e.pending = true → tableGet d id = some e

namespace NoNewPending

theorem refl (d : Dict) : NoNewPending d d := fun _ _ h _ => h

theorem trans {d d' d'' : Dict} (h : NoNewPending d d') (h' : NoNewPending d' d'') :
    NoNewPending d d'' := fun id e he hp => h id e (h' id e he hp) hp

theorem nil (d : Dict) : NoNewPending d [] := nofun

theorem dictWrite (d : Dict) (i : Nat) (p : Phrase) : NoNewPending d (dictWrite d i p false) := by
  intro id e he hp
  rw [Machine.dictWrite, tableGet_tableSet] at he
  split_ifs at he
  · cases he
    cases hp
  · exact he

end NoNewPending

theorem prologue_pending (s : State) : NoNewPending s.dict (prologue s).dict := by
  apply prologue_cases (P := fun t => NoNewPending s.dict t.dict) s
  case lit => intros; exact .dictWrite _ _ _
  all_goals intros; exact .refl _

/-- A literal writes two entries, any other phrase one, and neither is pending (R173 to R178). -/
theorem decodeStep_pending (s : State) : NoNewPending s.dict (decodeStep s).dict := by
  apply decodeStep_cases (P := fun t => NoNewPending s.dict t.dict) s
  case lit => intros; exact (NoNewPending.dictWrite _ _ _).trans (.dictWrite _ _ _)
  case ref | sref => intros; exact .dictWrite _ _ _
  all_goals intros; exact .refl _

theorem decodeStream_pending (s : State) : NoNewPending s.dict (decodeStream s).dict :=
  whileUpTo_inv (P := fun t => NoNewPending s.dict t.dict) (fun t _ h => h.trans (decodeStep_pending t))
    _ _ ((NoNewPending.nil _).trans (prologue_pending (decoderInit s)))

/-- What a READBIT or READ run on its own can leave: the unpacker moved and a value given back, or a raise
(R137, R138). -/
theorem exec_read_cases {i : Instr} {s t : State} (hi : i = .readBit ∨ ∃ n, i = .read n)
    (ht : exec i s = .next t) :
    (∃ u r, t = { s with unpacker := u, ret := r }) ∨
      ∃ n u, t = enterTrap .inputExhausted n { s with unpacker := u } := by
  obtain rfl | ⟨n, rfl⟩ := hi
  · cases ht
    obtain ⟨b, u, h⟩ | h := readBit_frame s
    · exact .inl ⟨u, .bit b, by rw [h]; rfl⟩
    · exact .inr ⟨_, s.unpacker, by rw [h]; rfl⟩
  · cases ht
    obtain ⟨v, u, h⟩ | ⟨u, h⟩ := readField_frame n s
    · exact .inl ⟨u, .value v, by rw [h]; rfl⟩
    · exact .inr ⟨_, u, by rw [h]; rfl⟩

/-- Settles O37: the tokens and DAPPLY write entries with PENDING = 0, DINIT empties the dictionary, and a
READ or a raise leaves it. -/
theorem decoderSetsNoPendingBit : Obligations.DecoderSetsNoPendingBit := by
  intro i s t hi ht
  change NoNewPending s.dict t.dict
  cases i
  case lit8P | lit16P | lit8 | lit16 | dapply => cases ht; exact .dictWrite _ _ _
  case endP | illegalP | endTok | ref | sref | illegal => cases ht; exact .refl _
  case dinit => cases ht; exact .nil _
  case dpro => cases ht; exact prologue_pending s
  case dstep => cases ht; exact decodeStep_pending s
  case decode => cases ht; exact decodeStream_pending s
  case read =>
    obtain ⟨u, r, rfl⟩ | ⟨n, u, rfl⟩ := exec_read_cases (by simp) ht
    · exact .refl _
    · exact .refl _
  all_goals simp at hi

/-! Operations that write no output register (R36, R37). -/

/-- The operations that can write OUT, OUT_LEN, OUT_NULL, DCAUSE or DINFO: the decoder's, the commands and
what can raise. -/
def writesOut : Instr → Bool
  | .lit8P _ | .lit16P _ | .endP | .illegalP | .lit8 _ | .lit16 _ | .endTok => true
  | .ref _ | .sref _ | .illegal _ | .dinit | .dpro | .dstep | .dapply | .decode => true
  | .readBit | .read _ | .raise _ _ | .compress | .decompress | .cstart => true
  | _ => false

/-- The others leave what the host writes and what it reads. -/
theorem exec_host_frame {i : Instr} {s t : State} (hi : writesOut i = false) (ht : exec i s = .next t) :
    t.port = s.port ∧ t.out = s.out := by
  cases i
  case pushBit b => cases ht; exact ⟨pushBit_port b s, pushBit_out b s⟩
  case push v n => cases ht; exact ⟨pushField_port v n s, pushField_out v n s⟩
  case ereg c => cases ht; rw [registerSym_frame]; exact ⟨rfl, rfl⟩
  case eemit => cases ht; exact ⟨(emitPhrase_same s).port, (emitPhrase_same s).out⟩
  case esym => cases ht; exact ⟨(scanSym_same s).port, (scanSym_same s).out⟩
  case efin => cases ht; exact ⟨(encoderFinish_same s).port, (encoderFinish_same s).out⟩
  case encode => cases ht; exact ⟨(encodeText_same s).port, (encodeText_same s).out⟩
  case epass k => cases ht; exact ⟨(encryptPass_only k s).1.port, (encryptPass_only k s).1.out⟩
  case dpass k => cases ht; exact ⟨(decryptPass_only k s).1.port, (decryptPass_only k s).1.out⟩
  case encrypt => cases ht; exact ⟨(encryptAll_only s).1.port, (encryptAll_only s).1.out⟩
  case decrypt => cases ht; exact ⟨(decryptAll_only s).1.port, (decryptAll_only s).1.out⟩
  case pinit | flush | uinit | einit | tick | kinc | kseed | mix | kstep | lane | xw | insert | find |
    isPending | clearPending => cases ht; exact ⟨rfl, rfl⟩
  all_goals cases hi

/-! The host's inputs (R34, R35, R45). -/

theorem compressText_port (s : State) : (compressText s).port = s.port := by
  obtain ⟨-, e⟩ | ⟨-, -, e⟩ | ⟨-, -, e⟩ := compressText_cases s
  · rw [e]; rfl
  · rw [e]; rfl
  · rw [e]
    exact (encryptIfEngaged_only _).port.trans (encodeText_same (commandStart s)).port

theorem decompressText_port (s : State) : (decompressText s).port = s.port := by
  obtain ⟨-, e⟩ | ⟨-, -, e⟩ | ⟨-, -, e⟩ := decompressText_cases s
  · rw [e]; rfl
  · rw [e]; rfl
  · rw [e]
    exact (decodeStream_same _).port.trans (decryptIfEngaged_only _).port

/-- Settles O55: the frame of each operation, the loops' by what a round leaves alone. -/
theorem inputsAreNeverWritten : Obligations.InputsAreNeverWritten := by
  intro i s t ht
  by_cases hi : writesOut i = false
  · exact (exec_host_frame hi ht).1
  · cases i
    case dpro => cases ht; exact (prologue_same s).port
    case dstep => cases ht; exact (decodeStep_same s).port
    case decode => cases ht; exact (decodeStream_same s).port
    case compress => cases ht; exact compressText_port s
    case decompress => cases ht; exact decompressText_port s
    case readBit | read =>
      obtain ⟨u, r, rfl⟩ | ⟨n, u, rfl⟩ := exec_read_cases (by simp) ht
      · rfl
      · rfl
    case lit8P | lit16P | endP | illegalP | lit8 | lit16 | endTok | ref | sref | illegal | dinit |
      dapply | raise | cstart => cases ht; rfl
    all_goals exact absurd rfl hi

/-! The diagnosis (R37, R256). -/

/-- What a raise leaves: a cause, the empty text and an idle block (R256). -/
def Raised (t : State) : Prop :=
  t.out.dcause ≠ 0 ∧ t.out.len = 0 ∧ t.out.null = false ∧ t.phase = .idle

theorem causeNumber_ne_zero (c : Cause) : Cause.number c ≠ 0 := by cases c <;> decide

theorem enterTrap_raised (c : Cause) (n : Nat) (s : State) : Raised (enterTrap c n s) :=
  ⟨causeNumber_ne_zero c, rfl, rfl, rfl⟩

/-- The diagnosis is the one before, or a raise has set it. -/
def KeptOrRaised (s t : State) : Prop :=
  (t.out.dcause = s.out.dcause ∧ t.out.dinfo = s.out.dinfo) ∨ Raised t

theorem prologue_keptOrRaised (s : State) : KeptOrRaised s (prologue s) := by
  apply prologue_cases (P := KeptOrRaised s) s
  case lit | fin => intros; exact .inl ⟨rfl, rfl⟩
  all_goals intros; exact .inr (enterTrap_raised _ _ _)

theorem decodeStep_keptOrRaised (s : State) : KeptOrRaised s (decodeStep s) := by
  obtain ⟨-, hcause, hinfo⟩ | ⟨c, n, t, e⟩ := decodeStep_diagnosis s
  · exact .inl ⟨hcause, hinfo⟩
  · exact .inr (e ▸ enterTrap_raised c n t)

/-- In the main loop the diagnosis is still the one before DECODE, since a raise ends the loop (R180). -/
theorem decodeStream_keptOrRaised (s : State) : KeptOrRaised s (decodeStream s) := by
  refine whileUpTo_inv (P := KeptOrRaised s) (fun t hrun h => ?_) _ _
    (prologue_keptOrRaised (decoderInit s))
  obtain ⟨hcause, hinfo⟩ | ⟨-, -, -, hidle⟩ := h
  · obtain ⟨hc, hn⟩ | hr := decodeStep_keptOrRaised t
    · exact .inl ⟨hc.trans hcause, hn.trans hinfo⟩
    · exact .inr hr
  · exact absurd (of_decide_eq_true hrun) (ne_laterToken_of_idle hidle)

theorem compressText_cause (s : State) :
    (compressText s).out.dcause = 0 ∧ (compressText s).out.dinfo = 0 := by
  obtain ⟨-, e⟩ | ⟨-, -, e⟩ | ⟨-, -, e⟩ := compressText_cases s
  · rw [e]; exact ⟨rfl, rfl⟩
  · rw [e]; exact ⟨rfl, rfl⟩
  · rw [e, endCommand_out, copyOut_out, (encryptIfEngaged_only _).out, (encodeText_same _).out]
    exact ⟨rfl, rfl⟩

theorem decompressText_cause (s : State) :
    ((decompressText s).out.dcause = 0 ∧ (decompressText s).out.dinfo = 0) ∨
      Raised (decompressText s) := by
  obtain ⟨-, e⟩ | ⟨-, -, e⟩ | ⟨-, -, e⟩ := decompressText_cases s
  · rw [e]; exact .inl ⟨rfl, rfl⟩
  · rw [e]; exact .inl ⟨rfl, rfl⟩
  · have h := decodeStream_keptOrRaised (decryptIfEngaged (copyIn (commandStart s)))
    rw [KeptOrRaised, (decryptIfEngaged_only _).out] at h
    rw [e]
    exact h

/-- An operation that starts no command keeps the diagnosis or raises. -/
theorem exec_keptOrRaised {i : Instr} {s t : State} (hi : i ∉ [.compress, .decompress, .cstart])
    (ht : exec i s = .next t) : KeptOrRaised s t := by
  by_cases hw : writesOut i = false
  · rw [KeptOrRaised, (exec_host_frame hw ht).2]
    exact .inl ⟨rfl, rfl⟩
  · cases i
    case dpro => cases ht; exact prologue_keptOrRaised s
    case dstep => cases ht; exact decodeStep_keptOrRaised s
    case decode => cases ht; exact decodeStream_keptOrRaised s
    case dapply => cases ht; exact .inl ⟨appendOutAll_dcause _ _, appendOutAll_dinfo _ _⟩
    case readBit | read =>
      obtain ⟨u, r, rfl⟩ | ⟨n, u, rfl⟩ := exec_read_cases (by simp) ht
      · exact .inl ⟨rfl, rfl⟩
      · exact .inr (enterTrap_raised _ _ _)
    case lit8P | lit16P | endP | lit8 | lit16 | endTok | ref | sref | dinit =>
      cases ht; exact .inl ⟨rfl, rfl⟩
    case illegalP | illegal | raise => cases ht; exact .inr (enterTrap_raised _ _ _)
    case compress | decompress | cstart => simp at hi
    all_goals exact absurd rfl hw

/-- Settles O56: the three starts clear the diagnosis and only a raise inside DECOMPRESS sets it after that;
any other operation keeps it or raises. -/
theorem onlyRaisesAndStartsWriteTheCause : Obligations.OnlyRaisesAndStartsWriteTheCause := by
  intro i s t ht
  by_cases hi : i ∈ [.compress, .decompress, .cstart]
  · have hstart := hi
    simp only [List.mem_cons, List.not_mem_nil, or_false] at hstart
    obtain rfl | rfl | rfl := hstart
    · cases ht
      exact .inr (.inl ⟨(compressText_cause s).1, (compressText_cause s).2, hi⟩)
    · cases ht
      obtain ⟨hcause, hinfo⟩ | hr := decompressText_cause s
      · exact .inr (.inl ⟨hcause, hinfo, hi⟩)
      · exact .inr (.inr hr)
    · cases ht
      exact .inr (.inl ⟨rfl, rfl, hi⟩)
  · obtain hkept | hr := exec_keptOrRaised hi ht
    · exact .inl hkept
    · exact .inr (.inr hr)

end Sys2Proof.Machine
end

section
/-! Proofs of the dictionary primitives (R84) and of where ENCRYPT leaves the key index (R85, R209). -/

namespace Sys2Proof.Machine

/-! The key index (R85). -/

/-- After the passes of keys 0 to `n`, KI is one above the last of them. -/
theorem foldl_encryptKey_ki (n : Nat) (s : State) :
    ((List.range (n + 1)).foldl encryptKey s).cipher.ki = n + 1 := by
  rw [List.range_succ, List.foldl_append]
  obtain ⟨-, -, hki⟩ := encryptKey_only ((List.range n).foldl encryptKey s) n
  exact hki

theorem encryptAll_ki {s : State} (h : s.port.keysNull = false ∧ 0 < s.port.nKeys) :
    (encryptAll s).cipher.ki = s.port.nKeys := by
  rw [encryptAll_of_engaged h]
  obtain ⟨n, hn⟩ := Nat.exists_eq_add_one.2 h.2
  rw [hn]
  exact foldl_encryptKey_ki n s

/-- Settles O44: the last pass sets KI to the index of the last key, and the advance after it gives NKEYS;
the bypass runs no pass. -/
theorem encryptMovesTheKeyIndex : Obligations.EncryptMovesTheKeyIndex := fun s =>
  ⟨encryptAll s, decryptAll s, rfl, rfl,
    fun hbypass => ⟨encryptAll_of_bypass hbypass, decryptAll_of_bypass hbypass⟩,
    fun hpresent hkeys => encryptAll_ki ⟨hpresent, hkeys⟩⟩

/-! The dictionary primitives (R84). -/

/-- Settles O19: Insert is one write of the table at NEXTID, and Find takes the first match in
`3 .. NEXTID-1`. -/
theorem insertAndFind : Obligations.InsertAndFind := fun p pending s =>
  ⟨⟨dictWrite s.dict s.width.nextId p pending, rfl, fun id => tableGet_tableSet s.dict _ id _⟩,
    dictFind s.dict s.width.nextId p, rfl, dictFind_eq_some_iff s.dict _ p,
    dictFind_eq_none_iff s.dict _ p⟩

theorem isPending_of_entry {d : Dict} {id : Nat} {e : Entry} (h : tableGet d id = some e) :
    isPending d id = e.pending := by
  simp only [isPending, h]

theorem clearPending_of_entry {d : Dict} {id : Nat} {e : Entry} (h : tableGet d id = some e) :
    clearPending d id = dictWrite d id e.phrase false := by
  simp only [clearPending, dictWrite, h]

/-- Settles O20: with an entry at the id, IsPending reads its bit and ClearPending writes the same phrase
back with the bit 0. -/
theorem pendingBitOfAnEntry : Obligations.PendingBitOfAnEntry := by
  intro id e s he
  refine ⟨?_, clearPending s.dict id, rfl, fun j => ?_⟩
  · exact congrArg (fun b => Host.Outcome.next { s with ret := .bit b }) (isPending_of_entry he)
  · rw [clearPending_of_entry he]
    exact tableGet_tableSet s.dict id j _

end Sys2Proof.Machine
end

section
/-! SUPPORT. The encodings (30_encoding.md): what a stream bit and a field's value are, and that decoding
and encoding a token undo each other. -/

namespace Sys2Proof

/-! Stream bits and field values (R101). -/

theorem wordBits_getElem? (w : Word) {k : Nat} (hk : k < 15) :
    (wordBits w)[k]? = some ((unstored w).getLsbD (14 - k)) := by
  simp [wordBits, hk]

/-- A stream bit is a bit of the word at `k / 15`, and none from the end of the stream on. -/
theorem streamBits_getElem? (ws : List Word) (k : Nat) :
    (streamBits ws)[k]? = ws[k / 15]?.map fun w => (unstored w).getLsbD (14 - k % 15) := by
  induction ws generalizing k with
  | nil => simp
  | cons w ws ih =>
    rw [streamBits_cons]
    obtain hk | ⟨j, rfl⟩ : k < 15 ∨ ∃ j, k = j + 15 :=
      (Nat.lt_or_ge k 15).imp_right Nat.exists_eq_add_of_le'
    · rw [List.getElem?_append_left (by simpa using hk), wordBits_getElem? w hk,
        Nat.div_eq_of_lt hk, Nat.mod_eq_of_lt hk]
      rfl
    · rw [List.getElem?_append_right (by simp), wordBits_length, Nat.add_sub_cancel, ih,
        Nat.add_div_right j (by decide), Nat.add_mod_right, List.getElem?_cons_succ]

theorem fieldValue_eq_sum (bs : List Bool) :
    fieldValue bs = ∑ i ∈ Finset.range bs.length, (bs.getD i false).toNat * 2 ^ i := by
  induction bs with
  | nil => rfl
  | cons b bs ih =>
    rw [fieldValue, ih, List.length_cons, Finset.sum_range_succ', Finset.mul_sum, Nat.add_comm]
    simp [pow_succ', mul_left_comm]

/-- Settles O1: the stream bits by induction on the words, a field's value by induction on its bits. -/
theorem streamBitsAndFieldValues : Obligations.StreamBitsAndFieldValues :=
  ⟨fun ws => ⟨streamBits_length ws, fun k _ => streamBits_getElem? ws k⟩, fieldValue_eq_sum⟩

/-! What reading one field and reading one token answer. -/

theorem takeField_eq_ok_iff {n v : Nat} {bs rest : List Bool} :
    takeField n bs = .ok (v, rest) ↔ v < 2 ^ n ∧ bs = fieldBits v n ++ rest := by
  constructor
  · intro h
    unfold takeField at h
    split at h
    next hn =>
      cases h
      have hl : (bs.take n).length = n := List.length_take_of_le hn
      refine ⟨by simpa only [hl] using fieldValue_lt (bs.take n), ?_⟩
      have hf : fieldBits (fieldValue (bs.take n)) n = bs.take n := by
        simpa only [hl] using fieldBits_fieldValue (bs.take n)
      rw [hf, List.take_append_drop]
    next => cases h
  · rintro ⟨hv, rfl⟩
    exact takeField_append v n rest hv

theorem length_lt_of_takeField_error {n : Nat} {bs : List Bool} {e : DecodeReject}
    (h : takeField n bs = .error e) : bs.length < n := by
  unfold takeField at h
  split at h
  next => cases h
  next hn => exact Nat.lt_of_not_le hn

/-- A stream decodes to the token its two fields select, where both fields stand at its head. -/
theorem decodeToken_eq_ok_iff {ctx : TokenCtx} {bs rest : List Bool} {i : Instr} :
    decodeToken ctx bs = .ok (i, rest) ↔
      ∃ code sym, code < 2 ^ codeWidth ctx ∧ sym < 2 ^ symWidth code ∧ i = assemble ctx code sym ∧
        bs = fieldBits code (codeWidth ctx) ++ (fieldBits sym (symWidth code) ++ rest) := by
  constructor
  · intro h
    unfold decodeToken at h
    split at h
    next => cases h
    next code r hcode =>
      split at h
      next => cases h
      next sym r' hsym =>
        cases h
        obtain ⟨hc, rfl⟩ := takeField_eq_ok_iff.mp hcode
        obtain ⟨hs, rfl⟩ := takeField_eq_ok_iff.mp hsym
        exact ⟨code, sym, hc, hs, rfl, rfl⟩
  · rintro ⟨code, sym, hc, hs, rfl, rfl⟩
    unfold decodeToken
    simp only [takeField_append code _ _ hc, takeField_append sym _ _ hs]

theorem length_lt_of_decodeToken_error {ctx : TokenCtx} {bs : List Bool} {e : DecodeReject}
    (h : decodeToken ctx bs = .error e) :
    bs.length < codeWidth ctx + symWidth (fieldValue (bs.take (codeWidth ctx))) := by
  unfold decodeToken at h
  split at h
  next hcode =>
    have := length_lt_of_takeField_error hcode
    omega
  next code r hcode =>
    obtain ⟨hc, rfl⟩ := takeField_eq_ok_iff.mp hcode
    split at h
    next hsym =>
      have := length_lt_of_takeField_error hsym
      rw [List.take_left' (fieldBits_length ..), fieldValue_fieldBits, Nat.mod_eq_of_lt hc,
        List.length_append, fieldBits_length]
      omega
    next => cases h

/-! Encoding and decoding undo each other (R102, R105). -/

/-- Each token that can stand at a place is the one its code and a value of its symbol field select there. -/
theorem fields_of_fits {ctx : TokenCtx} {i : Instr} (h : i.fits ctx = true) :
    ∃ code sym, tokenCode i = some code ∧ code < 2 ^ codeWidth ctx ∧ sym < 2 ^ symWidth code ∧
      tokenSymBits i = fieldBits sym (symWidth code) ∧ i = assemble ctx code sym := by
  cases ctx with
  | first =>
    obtain ⟨v, rfl⟩ | ⟨v, rfl⟩ | rfl | rfl := fits_first h
    · exact ⟨0, v.toNat, rfl, by decide, v.isLt, rfl, by
        rw [assemble_first_lit8, BitVec.ofNat_toNat, BitVec.setWidth_eq]⟩
    · exact ⟨1, v.toNat, rfl, by decide, v.isLt, rfl, by
        rw [assemble_first_lit16, BitVec.ofNat_toNat, BitVec.setWidth_eq]⟩
    · exact ⟨2, 0, rfl, by decide, by decide, rfl, rfl⟩
    · exact ⟨3, 0, rfl, by decide, by decide, rfl, rfl⟩
  | later n m =>
    obtain ⟨hn, hi⟩ | ⟨c, h3, hc, hi⟩ := fits_later h
    · have hlt {c : Nat} (h4 : c < 2 ^ 2) : c < 2 ^ n :=
        h4.trans_le (Nat.pow_le_pow_right (by decide) hn)
      obtain ⟨v, rfl⟩ | ⟨v, rfl⟩ | rfl := hi
      · exact ⟨0, v.toNat, rfl, hlt (by decide), v.isLt, rfl, by
          rw [assemble_later_lit8, BitVec.ofNat_toNat, BitVec.setWidth_eq]⟩
      · exact ⟨1, v.toNat, rfl, hlt (by decide), v.isLt, rfl, by
          rw [assemble_later_lit16, BitVec.ofNat_toNat, BitVec.setWidth_eq]⟩
      · exact ⟨2, 0, rfl, hlt (by decide), by decide, rfl, rfl⟩
    · have hsym : symWidth c = 0 := symWidth_of_ge_two (by omega)
      have hbits : [] = fieldBits 0 (symWidth c) := by rw [hsym]; rfl
      have hpos : 0 < 2 ^ symWidth c := Nat.two_pow_pos _
      obtain ⟨rfl, hm⟩ | ⟨rfl, rfl⟩ | ⟨rfl, hm⟩ := hi
      · exact ⟨c, 0, rfl, hc, hpos, hbits, (assemble_later_ref n m 0 h3 hm).symm⟩
      · exact ⟨c, 0, rfl, hc, hpos, hbits, (assemble_later_sref n 0 h3).symm⟩
      · exact ⟨c, 0, rfl, hc, hpos, hbits, (assemble_later_illegal n m 0 h3 hm).symm⟩

theorem encode_of_fields {i : Instr} {code : Nat} {symBits : List Bool} (ctx : TokenCtx)
    (hcode : tokenCode i = some code) (hsym : tokenSymBits i = symBits) :
    encode ctx i = some (fieldBits code (codeWidth ctx) ++ symBits) := by
  rw [encode, hcode, hsym]
  rfl

theorem decodeToken_encode {ctx : TokenCtx} {i : Instr} (rest : List Bool) (h : i.fits ctx = true) :
    ∃ bs, encode ctx i = some bs ∧ decodeToken ctx (bs ++ rest) = .ok (i, rest) := by
  obtain ⟨code, sym, hcode, hc, hs, hsym, hi⟩ := fields_of_fits h
  exact ⟨_, encode_of_fields ctx hcode hsym,
    decodeToken_eq_ok_iff.mpr ⟨code, sym, hc, hs, hi, List.append_assoc ..⟩⟩

theorem decodeCmd_of_encodeCmd {i : Instr} {op : BitVec 1} (h : encodeCmd i = some op) :
    decodeCmd op = i := by
  cases i
  case compress | decompress => cases h; rfl
  all_goals cases h

/-- Settles O2: a token's encoding is the two fields that select it, and the decoder takes exactly these. -/
theorem encodedInstructionsDecode : Obligations.EncodedInstructionsDecode :=
  ⟨fun _ _ rest h => decodeToken_encode rest h, fun _ _ h => decodeCmd_of_encodeCmd h⟩

theorem encode_of_decodeToken {ctx : TokenCtx} {bs rest : List Bool} {i : Instr}
    (hw : 2 ≤ codeWidth ctx) (h : decodeToken ctx bs = .ok (i, rest)) :
    i.fits ctx = true ∧ ∃ own, encode ctx i = some own ∧ bs = own ++ rest := by
  obtain ⟨code, sym, hc, hs, rfl, rfl⟩ := decodeToken_eq_ok_iff.mp h
  obtain ⟨hfits, hcode, hsym⟩ := assemble_spec ctx code sym hw hc hs
  exact ⟨hfits, _, encode_of_fields ctx hcode hsym, (List.append_assoc ..).symm⟩

/-- Settles O3: the fields the decoder took are those of the token they select, and a field that cannot be
taken reaches past the end of the stream. -/
theorem decodedTokensHaveTheirBits : Obligations.DecodedTokensHaveTheirBits := by
  intro ctx bs hw
  cases h : decodeToken ctx bs with
  | ok r => exact encode_of_decodeToken hw h
  | error e => exact length_lt_of_decodeToken_error h

/-- Settles O4: the decoder evaluated on each of the ten written streams. -/
theorem writtenWordsDecode : Obligations.WrittenWordsDecode := by
  unfold Obligations.WrittenWordsDecode
  decide

end Sys2Proof
end

section
/-! Proofs of the packer's and the unpacker's operations (R130 to R133, R135 to R138, R150, R170, R230), of the
laws of the packed stream (R132, R134), and that READ undoes PUSH (R139). -/

namespace Sys2Proof.Machine

/-! Initialisation (R135, R136, R150, R170, R230). -/

/-- Settles O9: each initialising operation is the record update the rule writes. -/
theorem initialisingOperationsWriteTheirRegisters :
    Obligations.InitialisingOperationsWriteTheirRegisters := fun _ => ⟨rfl, rfl, rfl, rfl, rfl⟩

/-! The packer's operations (R130, R131, R133). -/

/-- The shift loses no bit where ACC holds only its POS bits. -/
theorem shiftIn_toNat_of_wf {p : Packer} (h : PackerWf p) (b : Bool) :
    (shiftIn p.acc b).toNat = 2 * p.acc.toNat + b.toNat := by
  have hacc : p.acc.toNat < 2 ^ 14 :=
    h.trans_le (Nat.pow_le_pow_right (by decide) (Nat.le_of_lt_succ p.pos.isLt))
  have hb := b.toNat_le
  rw [shiftIn_toNat, Nat.mod_eq_of_lt (by omega)]

theorem pushBit_of_last {s : State} (h : s.packer.pos = 14) (b : Bool) :
    pushBit s b = { s with
      buf := appendBuf s.buf (stored (shiftIn s.packer.acc b)), packer := { acc := 0, pos := 0 } } :=
  if_pos h

theorem pushBit_of_not_last {s : State} (h : s.packer.pos ≠ 14) (b : Bool) :
    pushBit s b = { s with packer := { acc := shiftIn s.packer.acc b, pos := s.packer.pos + 1 } } :=
  if_neg h

theorem pos_succ_val {p : Fin 15} (h : p ≠ 14) : (p + 1).val = p.val + 1 :=
  Fin.val_add_one_of_lt' (by have := Fin.val_ne_of_ne h; have := p.isLt; omega)

/-- Settles O11: ACC takes the bit, and POS decides between sending the word and keeping it. -/
theorem pushbitShiftsAndSendsAtFifteen : Obligations.PushbitShiftsAndSendsAtFifteen := fun b s =>
  ⟨shiftIn s.packer.acc b, shiftIn_toNat s.packer.acc b, fun h => shiftIn_toNat_of_wf h b,
    fun h => ⟨stored (shiftIn s.packer.acc b), stored_toNat _, congrArg _ (pushBit_of_last h b)⟩,
    fun h => ⟨s.packer.pos + 1, pos_succ_val h, congrArg _ (pushBit_of_not_last h b)⟩⟩

theorem runOps_pushBit (bs : List Bool) (s : State) :
    runOps (bs.map .pushBit) s = .next (pushBits bs s) := by
  induction bs generalizing s with
  | nil => rfl
  | cons b bs ih => exact ih (pushBit s b)

/-- Settles O12: the bits of the field are pushed in order. -/
theorem pushIsPushbitsLeastSignificantFirst : Obligations.PushIsPushbitsLeastSignificantFirst := by
  intro value width s
  refine ⟨pushField value width s, ?_, rfl⟩
  have h := runOps_pushBit (fieldBits value width) s
  rw [fieldBits, List.map_map] at h
  exact h

/-- Settles O14: the word sent is ACC moved up to the top of the payload. -/
theorem flushSendsOneZeroPaddedWord : Obligations.FlushSendsOneZeroPaddedWord := fun s =>
  ⟨stored (s.packer.acc <<< (15 - s.packer.pos.val)), by
    rw [stored_toNat, BitVec.toNat_shiftLeft, Nat.shiftLeft_eq], rfl⟩

/-! Words and held bits as sums, the first bit having the highest weight (R71, R132). -/

theorem fieldValue_reverse_eq_sum (bs : List Bool) :
    fieldValue bs.reverse =
      ∑ i ∈ Finset.range bs.length, (bs.getD i false).toNat * 2 ^ (bs.length - 1 - i) := by
  rw [fieldValue_eq_sum, List.length_reverse, ← Finset.sum_range_reflect]
  refine Finset.sum_congr rfl fun i hi => ?_
  have hi : i < bs.length := Finset.mem_range.mp hi
  rw [List.getD_eq_getElem?_getD, List.getElem?_reverse (by omega), List.getD_eq_getElem?_getD,
    show bs.length - 1 - (bs.length - 1 - i) = i by omega]

theorem exists_stored_of_wireRange {w : Word} (h : WireRange w) : ∃ p, w = stored p := by
  obtain ⟨hlo, hhi⟩ := h
  refine ⟨BitVec.ofNat 15 (w.toNat - 32), BitVec.eq_of_toNat_eq ?_⟩
  rw [stored_toNat, BitVec.toNat_ofNat]
  omega

/-- A word of the wire range is its payload plus 32, the payload being the value of its stream bits. -/
theorem toNat_of_wireRange {w : Word} (h : WireRange w) :
    w.toNat = 32 + ∑ i ∈ Finset.range 15, ((wordBits w).getD i false).toNat * 2 ^ (14 - i) := by
  have hsum := fieldValue_reverse_eq_sum (wordBits w)
  rw [wordBits_length] at hsum
  obtain ⟨p, rfl⟩ := exists_stored_of_wireRange h
  rw [← hsum, wordBits_stored, List.reverse_reverse, fieldValue_fieldBits, Nat.mod_eq_of_lt p.isLt,
    stored_toNat, Nat.add_comm]

/-- ACC is the value of the bits the packer holds. -/
theorem acc_toNat_of_wf {p : Packer} (h : PackerWf p) :
    p.acc.toNat = ∑ i ∈ Finset.range p.pos.val,
      ((heldBits p).getD i false).toNat * 2 ^ (p.pos.val - 1 - i) := by
  have hsum := fieldValue_reverse_eq_sum (heldBits p)
  rw [heldBits_length] at hsum
  rw [← hsum, heldBits, List.reverse_reverse, fieldValue_fieldBits, Nat.mod_eq_of_lt h]

/-- Bit `i` of the word at `j` is stream bit `15 * j + i` of the buffer. -/
theorem bufferBits_getElem? {b : Buffer} {j i : Nat} (hj : j < b.len) (hi : i < 15) :
    (bufferBits b)[15 * j + i]? = (wordBits (memRead b.mem j))[i]? := by
  rw [bufferBits, streamBits_getElem?, memUnits_getElem?, wordBits_getElem? _ hi,
    show (15 * j + i) / 15 = j by omega, show (15 * j + i) % 15 = i by omega, if_pos hj]
  rfl

/-- A word sent has the value of its 15 bits of the stream (R132). -/
theorem word_toNat_of_stream {b : Buffer} {held bs : List Bool} {j : Nat}
    (hbits : bufferBits b ++ held = bs) (hj : j < b.len) (hw : WireRange (memRead b.mem j)) :
    (memRead b.mem j).toNat =
      32 + ∑ i ∈ Finset.range 15, (bs.getD (15 * j + i) false).toNat * 2 ^ (14 - i) := by
  refine (toNat_of_wireRange hw).trans (congrArg (32 + ·) (Finset.sum_congr rfl fun i hi => ?_))
  have hi : i < 15 := Finset.mem_range.mp hi
  rw [List.getD_eq_getElem?_getD, List.getD_eq_getElem?_getD, ← hbits,
    List.getElem?_append_left (by rw [bufferBits_length]; omega), bufferBits_getElem? hj hi]

/-- ACC has the value of the bits of the stream behind the words sent (R132). -/
theorem acc_toNat_of_stream {b : Buffer} {p : Packer} {bs : List Bool} (hwf : PackerWf p)
    (hbits : bufferBits b ++ heldBits p = bs) :
    p.acc.toNat = ∑ i ∈ Finset.range p.pos.val,
      (bs.getD (15 * b.len + i) false).toNat * 2 ^ (p.pos.val - 1 - i) := by
  refine (acc_toNat_of_wf hwf).trans (Finset.sum_congr rfl fun i _ => ?_)
  rw [← hbits, List.getD_append_right _ _ _ _ (by rw [bufferBits_length]; omega),
    bufferBits_length, Nat.add_sub_cancel_left]

/-! Pushes into an empty BUF (R132, R134). -/

/-- The stream bits of a list of fields, each with its value and its width. -/
def fieldsBits (fs : List (Nat × Nat)) : List Bool := fs.flatMap fun f => fieldBits f.1 f.2

@[simp] theorem fieldsBits_cons (f : Nat × Nat) (fs : List (Nat × Nat)) :
    fieldsBits (f :: fs) = fieldBits f.1 f.2 ++ fieldsBits fs := rfl

theorem fieldsBits_length (fs : List (Nat × Nat)) :
    (fieldsBits fs).length = (fs.map Prod.snd).sum := by
  induction fs with
  | nil => rfl
  | cons f fs ih => simp [ih]

theorem runOps_push (fs : List (Nat × Nat)) (s : State) :
    runOps (fs.map fun f => .push f.1 f.2) s = .next (pushBits (fieldsBits fs) s) := by
  induction fs generalizing s with
  | nil => rfl
  | cons f fs ih =>
    rw [fieldsBits_cons, pushBits_append]
    exact ih (pushField f.1 f.2 s)

/-- The words appended to an empty buffer are all it holds. -/
theorem BufExtends.wireRange_of_empty {a b : Buffer} (h : BufExtends a b) (ha : a.len = 0) :
    ∀ w ∈ memUnits b.mem b.len, WireRange w := by
  obtain ⟨ws, hws, hb⟩ := h.words
  rw [hb, ha]
  exact hws

/-- Packing an empty BUF: the words sent and the bits held are, in order, the bits pushed (R132). -/
theorem pack_spec (fs : List (Nat × Nat)) (s : State) (h : s.buf.len = 0) :
    ∃ buf p, runOps (.pinit :: fs.map fun f => .push f.1 f.2) s =
        .next { s with buf := buf, packer := p } ∧
      PackerWf p ∧ bufferBits buf ++ heldBits p = fieldsBits fs ∧
      buf.len = (fieldsBits fs).length / 15 ∧ p.pos.val = (fieldsBits fs).length % 15 ∧
      ∀ w ∈ memUnits buf.mem buf.len, WireRange w := by
  obtain ⟨buf, p, hpush, hwf, hpushed, hext⟩ :=
    pushBits_spec (fieldsBits fs) (packerInit s) Nat.one_pos
  have hempty : bufferBits s.buf ++ heldBits { acc := 0, pos := 0 } = [] := by
    rw [bufferBits, h]
    rfl
  have hbits : bufferBits buf ++ heldBits p = fieldsBits fs := by
    rw [hpushed, packerInit_buf, packerInit_packer, hempty, List.nil_append]
  have hlen : 15 * buf.len + p.pos.val = (fieldsBits fs).length := by
    simpa using congrArg List.length hbits
  have hpos := p.pos.isLt
  refine ⟨buf, p, ?_, hwf, hbits, by omega, by omega, hext.wireRange_of_empty h⟩
  rw [runOps_cons rfl, runOps_push, hpush]
  rfl

/-- Settles O13: a word's bits and the bits held are runs of the bits pushed, and word and ACC are the
values of their bits. -/
theorem packerLaw : Obligations.PackerLaw := by
  intro fs s h
  obtain ⟨buf, p, hrun, hwf, hbits, hlen, hpos, hrange⟩ := pack_spec fs s h
  refine ⟨_, hrun, rfl, hlen, fun j hj => ?_, hpos, hlen ▸ acc_toNat_of_stream hwf hbits⟩
  have hj : j < buf.len := hlen ▸ hj
  exact word_toNat_of_stream hbits hj (hrange _ (List.mem_map_of_mem (List.mem_range.mpr hj)))

/-- Packing an empty BUF and flushing: the words are the bits pushed and zeros to the end of the last
word (R134). -/
theorem packAndFlush_spec (fs : List (Nat × Nat)) (s : State) (h : s.buf.len = 0) :
    ∃ buf, runOps (.pinit :: (fs.map fun f => .push f.1 f.2) ++ [.flush]) s =
        .next { s with buf := buf, packer := { acc := 0, pos := 0 } } ∧
      buf.len = (fieldsBits fs).length / 15 + 1 ∧
      bufferBits buf =
        fieldsBits fs ++ List.replicate (15 - (fieldsBits fs).length % 15) false ∧
      ∀ w ∈ memUnits buf.mem buf.len, WireRange w := by
  obtain ⟨buf, p, hrun, hwf, hbits, hlen, hpos, hrange⟩ := pack_spec fs s h
  obtain ⟨v, hv, hflush, hvbits⟩ := flushWord_spec { s with buf := buf, packer := p } hwf
  refine ⟨appendBuf buf v, ?_, congrArg (· + 1) hlen, ?_, ?_⟩
  · rw [runOps_append hrun, runOps_cons rfl, hflush]
    rfl
  · rw [bufferBits_appendBuf, hvbits, ← List.append_assoc, hbits, hpos]
  · rw [appendBuf_units]
    exact List.forall_mem_append.mpr ⟨hrange, List.forall_mem_singleton.mpr hv⟩

/-- Settles O15: FLUSH adds to the words sent the one that carries the bits held and zeros. -/
theorem packedStreamLaw : Obligations.PackedStreamLaw := by
  intro fs s h
  obtain ⟨buf, hrun, hlen, hbits, hrange⟩ := packAndFlush_spec fs s h
  exact ⟨_, hrun, hlen, hbits, hrange⟩

/-! The unpacker's operations (R137, R138). -/

theorem readBit_of_exhausted {s : State} (hm : s.unpacker.umask = 0)
    (hl : s.buf.len ≤ s.unpacker.uidx) :
    readBit s = .raised (enterTrap .inputExhausted s.unpacker.uidx s) := by
  rw [readBit, if_pos hm, if_pos hl]

theorem readBit_of_word_left {s : State} (hm : s.unpacker.umask = 0)
    (hl : s.unpacker.uidx < s.buf.len) : readBit s = yieldBit (refill s) := by
  rw [readBit, if_pos hm, if_neg (Nat.not_le.mpr hl)]

theorem readBit_of_mask_ne_zero {s : State} (hm : s.unpacker.umask ≠ 0) : readBit s = yieldBit s := by
  rw [readBit, if_neg hm]

theorem yieldBit_of_twoPow {s : State} {k : Fin 15} (hk : s.unpacker.umask = BitVec.twoPow 15 k.val) :
    yieldBit s = .ok (s.unpacker.uval.getLsbD k.val) { s with
      unpacker := { s.unpacker with umask := s.unpacker.umask >>> 1 } } := by
  rw [yieldBit, hk, mask_and]

/-- The bit a fresh word yields is bit 14 of its value. -/
theorem yieldBit_refill (s : State) :
    yieldBit (refill s) =
      .ok ((memRead s.buf.mem s.unpacker.uidx - 32).getLsbD 14) { s with
        unpacker :=
          { uidx := s.unpacker.uidx + 1
            umask := 0x2000
            uval := memRead s.buf.mem s.unpacker.uidx - 32 } } := by
  have hmask : (refill s).unpacker.umask >>> 1 = 0x2000 :=
    (by decide : (0x4000 : Payload) >>> 1 = 0x2000)
  rw [yieldBit_of_twoPow (k := 14) topMask, hmask]
  rfl

theorem exec_readBit (s : State) : exec .readBit s = .next (returning .bit (readBit s)) := rfl

/-- Settles O16: the mask and the words left decide which of READBIT's three cases it is. -/
theorem readbitRefillsLazily : Obligations.ReadbitRefillsLazily := by
  intro s
  rw [exec_readBit]
  refine ⟨fun hm hl => ?_, fun hm hl => ?_, fun hm => ?_⟩
  · rw [readBit_of_exhausted hm hl]
    rfl
  · rw [readBit_of_word_left hm hl, yieldBit_refill]
    rfl
  · rw [readBit_of_mask_ne_zero hm]
    rfl

/-- Where enough bits are unread, READ takes exactly its field (R138). -/
theorem readField_of_le {n : Nat} {s : State} (hc : CursorWf s.unpacker)
    (hn : n ≤ (unreadBits s).length) :
    ∃ u, CursorWf u ∧
      readField n s = .ok (fieldValue ((unreadBits s).take n)) { s with unpacker := u } ∧
      unreadBits { s with unpacker := u } = (unreadBits s).drop n ∧
      bitPos u = bitPos s.unpacker + n := by
  obtain ⟨_, u, hread, hu, hrest, hpos, _⟩ | ⟨hlt, _⟩ := readField_spec n s hc
  · exact ⟨u, hu, hread, hrest, hpos⟩
  · omega

theorem exec_read (n : Nat) (s : State) :
    exec (.read n) s = .next (returning .value (readField n s)) := rfl

/-- Settles O17: READ takes its field where the unread bits reach, and raises where they do not. -/
theorem readGivesTheNextField : Obligations.ReadGivesTheNextField := by
  intro n s hc
  rw [exec_read]
  refine ⟨fun hn => ?_, fun hn => ?_⟩
  · obtain ⟨u, hu, hread, hrest, hpos⟩ := readField_of_le hc hn
    exact ⟨u, hu, by rw [hread]; rfl, hrest, hpos⟩
  · obtain ⟨hle, _⟩ | ⟨_, u, _, hmask, hidx, hend, hread⟩ := readField_spec n s hc
    · omega
    · exact ⟨u, hmask, hidx, hend, by rw [hread]; rfl⟩

/-! READ undoes PUSH (R139). -/

/-- Where a field stands at the head of the unread bits, READ of its width gives its value and leaves the
bits behind it. -/
theorem readField_of_fieldBits {v n : Nat} {rest : List Bool} {s : State} (hc : CursorWf s.unpacker)
    (hv : v < 2 ^ n) (hs : unreadBits s = fieldBits v n ++ rest) :
    ∃ u, CursorWf u ∧ readField n s = .ok v { s with unpacker := u } ∧
      unreadBits { s with unpacker := u } = rest := by
  obtain ⟨u, hu, hread, hrest, _⟩ := readField_of_le (n := n) hc (by simp [hs])
  rw [hs, List.take_left' (fieldBits_length v n), fieldValue_fieldBits, Nat.mod_eq_of_lt hv] at hread
  rw [hs, List.drop_left' (fieldBits_length v n)] at hrest
  exact ⟨u, hu, hread, hrest⟩

theorem readAll_cons {n v : Nat} {s t : State}
    (h : readField n { s with ret := .nothing } = .ok v t) (ns : List Nat) :
    readAll (n :: ns) s =
      (readAll ns { t with ret := .value v }).map fun r => (v :: r.1, r.2) := by
  simp only [readAll, exec_read, h, returning]

/-- The READs of a list of fields give their values where the unread bits begin with them. -/
theorem readAll_fieldsBits {fs : List (Nat × Nat)} {rest : List Bool} {s : State}
    (hfs : ∀ f ∈ fs, f.1 < 2 ^ f.2) (hc : CursorWf s.unpacker)
    (hs : unreadBits s = fieldsBits fs ++ rest) :
    ∃ u r, readAll (fs.map Prod.snd) s =
        some (fs.map Prod.fst, { s with unpacker := u, ret := r }) ∧
      unreadBits { s with unpacker := u, ret := r } = rest := by
  induction fs generalizing s with
  | nil => exact ⟨s.unpacker, s.ret, rfl, hs⟩
  | cons f fs ih =>
    obtain ⟨hf, hfs⟩ := List.forall_mem_cons.mp hfs
    rw [fieldsBits_cons, List.append_assoc] at hs
    obtain ⟨u, hu, hread, hrest⟩ := readField_of_fieldBits (s := { s with ret := .nothing }) hc hf hs
    obtain ⟨u', r, hall, hend⟩ := ih (s := { s with unpacker := u, ret := .value f.1 }) hfs hu hrest
    refine ⟨u', r, ?_, hend⟩
    rw [List.map_cons, readAll_cons hread, hall]
    rfl

/-- After UINIT every stream bit of BUF is unread. -/
theorem unreadBits_unpackerInit (s : State) : unreadBits (unpackerInit s) = bufferBits s.buf := rfl

/-- Settles O18: after UINIT the unread bits are the fields pushed and the zeros of the last word, and
each READ takes one field. -/
theorem readingUndoesPushing : Obligations.ReadingUndoesPushing := by
  intro fs s hfs h
  obtain ⟨buf, hrun, -, hbits, -⟩ := packAndFlush_spec fs s h
  have hunread : unreadBits (unpackerInit { s with buf := buf, packer := { acc := 0, pos := 0 } }) =
      fieldsBits fs ++ List.replicate (15 - (fs.map Prod.snd).sum % 15) false := by
    rw [unreadBits_unpackerInit, hbits, fieldsBits_length]
  obtain ⟨u, r, hall, hrest⟩ := readAll_fieldsBits hfs ⟨.inl rfl, fun _ => rfl⟩ hunread
  refine ⟨_, _, r, ?_, hall, rfl, hrest⟩
  rw [List.append_cons, runOps_append hrun]
  rfl

end Sys2Proof.Machine
end

section
/-! SUPPORT. The dictionary of the encoder (R158): its shape as a fact about DICT and NEXTID alone, what Find
answers in it, and that Insert of a phrase not yet there and ClearPending keep it. -/

namespace Sys2Proof.Machine

/-- The shape of a dictionary with the ids `3 .. n-1` (R158): dense, no phrase twice, and with a phrase of
several symbols the phrase without the last one and each of its symbols. -/
structure DictShape (d : Dict) (n : Nat) : Prop where
  sorted : TableSorted d
  dense : ∀ id, (tableGet d id).isSome ↔ 3 ≤ id ∧ id < n
  nonempty : ∀ id p, dictPhrase? d id = some p → p ≠ []
  once : ∀ id id' p, dictPhrase? d id = some p → dictPhrase? d id' = some p → id = id'
  prefixes : ∀ id p c, dictPhrase? d id = some (p ++ [c]) → p ≠ [] → ∃ id', dictPhrase? d id' = some p
  symbols : ∀ id p c, dictPhrase? d id = some p → c ∈ p → ∃ id', dictPhrase? d id' = some [c]

theorem EncInv.shape {s : State} (h : EncInv s) : DictShape s.dict s.width.nextId :=
  ⟨h.sorted, h.dense, h.nonempty, h.once, h.prefixes, h.symbols⟩

theorem dictPhrase?_of_entry {d : Dict} {id : Nat} {e : Entry} (h : tableGet d id = some e) :
    dictPhrase? d id = some e.phrase :=
  dictPhrase?_eq_some_iff.mpr ⟨e, h, rfl⟩

theorem dictPhrase?_isSome (d : Dict) (id : Nat) : (dictPhrase? d id).isSome = (tableGet d id).isSome :=
  Option.isSome_map ..

theorem dictWrite_cases {d : Dict} {n id : Nat} {p q : Phrase} {b : Bool}
    (hq : dictPhrase? (dictWrite d n p b) id = some q) : (id = n ∧ q = p) ∨ dictPhrase? d id = some q := by
  rw [dictPhrase?_dictWrite] at hq
  split_ifs at hq with hid
  · exact .inl ⟨hid, (Option.some.inj hq).symm⟩
  · exact .inr hq

/-- Dictionaries with the same phrases at the same ids, the PENDING bits aside. -/
theorem DictShape.of_same_phrases {d d' : Dict} {n : Nat} (h : DictShape d n) (hs : TableSorted d')
    (hp : ∀ id, dictPhrase? d' id = dictPhrase? d id) : DictShape d' n where
  sorted := hs
  dense id := by rw [← dictPhrase?_isSome, hp, dictPhrase?_isSome]; exact h.dense id
  nonempty := by simpa only [hp] using h.nonempty
  once := by simpa only [hp] using h.once
  prefixes := by simpa only [hp] using h.prefixes
  symbols := by simpa only [hp] using h.symbols

namespace DictShape

variable {d : Dict} {n : Nat} (h : DictShape d n)
include h

theorem range_of_phrase {id : Nat} {p : Phrase} (hp : dictPhrase? d id = some p) : 3 ≤ id ∧ id < n :=
  (h.dense id).mp (by rw [← dictPhrase?_isSome, hp]; rfl)

theorem get_nextId : tableGet d n = none := by
  have := (h.dense n).not.mpr (by omega)
  simpa using this

/-- Find answers the one id that holds the phrase (R84, R158). -/
theorem find_eq_some_iff {id : Nat} {p : Phrase} :
    dictFind d n p = some id ↔ dictPhrase? d id = some p := by
  rw [dictFind_eq_some_iff]
  refine ⟨fun ⟨_, _, hp, _⟩ => hp, fun hp => ?_⟩
  obtain ⟨h3, hn⟩ := h.range_of_phrase hp
  refine ⟨h3, hn, hp, fun j _ hj hpj => ?_⟩
  exact absurd (h.once j id p hpj hp) (Nat.ne_of_lt hj)

theorem find_eq_none_iff {p : Phrase} :
    dictFind d n p = none ↔ ∀ id, dictPhrase? d id ≠ some p := by
  simp only [Option.eq_none_iff_forall_ne_some, ne_eq, h.find_eq_some_iff]

/-- An entry is the only one with its phrase. -/
theorem entry_eq {id id' : Nat} {e e' : Entry} (he : tableGet d id = some e)
    (he' : tableGet d id' = some e') (hp : e.phrase = e'.phrase) : id = id' ∧ e = e' := by
  obtain rfl := h.once id id' _ (dictPhrase?_of_entry he) (hp ▸ dictPhrase?_of_entry he')
  exact ⟨rfl, Option.some.inj (he.symm.trans he')⟩

theorem phrase_kept (p : Phrase) (b : Bool) {id : Nat} {q : Phrase} (hq : dictPhrase? d id = some q) :
    dictPhrase? (dictWrite d n p b) id = some q := by
  rw [dictPhrase?_dictWrite, if_neg (Nat.ne_of_lt (h.range_of_phrase hq).2), hq]

/-- Insert of a phrase that is not there keeps the shape, the phrase without its last symbol and each of its
symbols being there. -/
theorem insert {p : Phrase} (b : Bool) (h3 : 3 ≤ n) (hne : p ≠ [])
    (hnew : ∀ id, dictPhrase? d id ≠ some p)
    (hprefix : ∀ q c, p = q ++ [c] → q ≠ [] → ∃ id, dictPhrase? d id = some q)
    (hsym : ∀ c ∈ p, p = [c] ∨ ∃ id, dictPhrase? d id = some [c]) :
    DictShape (dictWrite d n p b) (n + 1) := by
  refine ⟨tableSet_sorted _ _ h.sorted, fun id => ?_, fun id q hq => ?_, fun id id' q hq hq' => ?_,
    fun id q c hq hqne => ?_, fun id q c hq hc => ?_⟩
  · rw [dictWrite, tableGet_tableSet]
    split_ifs with hid
    · simp only [Option.isSome_some, true_iff]
      omega
    · rw [h.dense]
      omega
  · obtain ⟨-, rfl⟩ | hq := dictWrite_cases hq
    · exact hne
    · exact h.nonempty id q hq
  · obtain ⟨hid, hqp⟩ | hold := dictWrite_cases hq <;> obtain ⟨hid', hqp'⟩ | hold' := dictWrite_cases hq'
    · exact hid.trans hid'.symm
    · exact absurd (hqp ▸ hold') (hnew id')
    · exact absurd (hqp' ▸ hold) (hnew id)
    · exact h.once id id' q hold hold'
  · obtain ⟨-, hqp⟩ | hq := dictWrite_cases hq
    · exact (hprefix q c hqp.symm hqne).imp fun _ => h.phrase_kept _ b
    · exact (h.prefixes id q c hq hqne).imp fun _ => h.phrase_kept _ b
  · obtain ⟨-, rfl⟩ | hq := dictWrite_cases hq
    · obtain rfl | hex := hsym c hc
      · exact ⟨n, by rw [dictPhrase?_dictWrite, if_pos rfl]⟩
      · exact hex.imp fun _ => h.phrase_kept _ b
    · exact (h.symbols id q c hq hc).imp fun _ => h.phrase_kept _ b

/-- Writing an entry's phrase back with another PENDING bit keeps the shape. -/
theorem rewrite {id : Nat} {p : Phrase} (hp : dictPhrase? d id = some p) (b : Bool) :
    DictShape (dictWrite d id p b) n := by
  refine h.of_same_phrases (tableSet_sorted _ _ h.sorted) fun j => ?_
  rw [dictPhrase?_dictWrite]
  split_ifs with hj
  · rw [hj, hp]
  · rfl

/-- The one entry that may be pending decides the count. -/
theorem pendingCount_eq {id : Nat} {e : Entry} (he : tableGet d id = some e)
    (honly : ∀ id' e', tableGet d id' = some e' → e'.pending = true → id' = id) :
    pendingCount d = e.pending.toNat := by
  have hcount := pendingCount_tableSet h.sorted id { e with pending := false }
  have hzero : pendingCount (tableSet d id { e with pending := false }) = 0 := by
    refine pendingCount_eq_zero (tableSet_sorted _ _ h.sorted) fun j x hx => ?_
    rw [tableGet_tableSet] at hx
    split_ifs at hx with hj
    · cases hx
      rfl
    · by_contra hpend
      exact hj (honly j x hx (by simpa using hpend))
  simp only [he, hzero, Option.map_some, Option.getD_some, Bool.toNat_false] at hcount
  omega

/-- Writing a new entry adds its PENDING bit to the count. -/
theorem pendingCount_insert (p : Phrase) (b : Bool) :
    pendingCount (dictWrite d n p b) = pendingCount d + b.toNat := by
  have hcount := pendingCount_tableSet h.sorted n { phrase := p, pending := b }
  rw [h.get_nextId] at hcount
  exact hcount

/-- Clearing the bit of an entry takes it from the count. -/
theorem pendingCount_clear {id : Nat} {e : Entry} (he : tableGet d id = some e) :
    pendingCount (dictWrite d id e.phrase false) + e.pending.toNat = pendingCount d := by
  have hcount := pendingCount_tableSet h.sorted id { phrase := e.phrase, pending := false }
  rw [he] at hcount
  exact hcount

end DictShape

end Sys2Proof.Machine
end

section
/-! Proofs of the encoder's micro-operations (R151 to R155) and of ENCODE as a sequence of them (R156). -/

namespace Sys2Proof.Machine

/-! What EREG, EEMIT and ESYM write, case by case. -/

theorem registerSym_of_unseen {c : Sym} {s : State} (h : dictFind s.dict s.width.nextId [c] = none) :
    registerSym c s = insertPhrase [c] true s := by
  simp only [registerSym, h]

theorem registerSym_of_seen {c : Sym} {s : State} {id : Nat}
    (h : dictFind s.dict s.width.nextId [c] = some id) : registerSym c s = s := by
  simp only [registerSym, h]

@[simp] theorem registerSym_enc (c : Sym) (s : State) : (registerSym c s).enc = s.enc := by
  rw [registerSym_frame]

@[simp] theorem registerSym_port (c : Sym) (s : State) : (registerSym c s).port = s.port := by
  rw [registerSym_frame]

@[simp] theorem registerSym_buf (c : Sym) (s : State) : (registerSym c s).buf = s.buf := by
  rw [registerSym_frame]

@[simp] theorem registerSym_packer (c : Sym) (s : State) : (registerSym c s).packer = s.packer := by
  rw [registerSym_frame]

@[simp] theorem registerSym_ret (c : Sym) (s : State) : (registerSym c s).ret = s.ret := by
  rw [registerSym_frame]

@[simp] theorem emitPhrase_enc (s : State) : (emitPhrase s).enc = s.enc := by rw [emitPhrase_frame]

@[simp] theorem pushLiteral_dict (c : Sym) (s : State) : (pushLiteral c s).dict = s.dict := by
  unfold pushLiteral
  split <;> simp

@[simp] theorem pushLiteral_width (c : Sym) (s : State) : (pushLiteral c s).width = s.width := by
  unfold pushLiteral
  split <;> simp

theorem scanTail_of_found {c : Sym} {s : State} {id : Nat}
    (h : dictFind s.dict s.width.nextId (s.enc.w ++ [c]) = some id) :
    scanTail c s = { s with enc := { s.enc with w := s.enc.w ++ [c] } } := by
  simp only [scanTail, h]

theorem scanTail_of_not_found {c : Sym} {s : State}
    (h : dictFind s.dict s.width.nextId (s.enc.w ++ [c]) = none) :
    scanTail c s = { insertPhrase (s.enc.w ++ [c]) false (emitPhrase s) with
      enc := { s.enc with w := [c] } } := by
  simp only [scanTail, h, insertPhrase_enc, emitPhrase_enc]

/-- The PUSHes of a literal (R152). -/
theorem runOps_literal (c : Sym) (s : State) :
    runOps (if c.toNat < 256 then [.push 0 s.width.numBits, .push c.toNat 8]
      else [.push 1 s.width.numBits, .push c.toNat 16]) s = .next (pushLiteral c s) := by
  unfold pushLiteral
  split <;> rfl

theorem runOps_esym (n : Nat) (s : State) :
    runOps (List.replicate n .esym) s = .next (scanSym^[n] s) := by
  induction n generalizing s with
  | zero => rfl
  | succ n ih => exact ih (scanSym s)

/-! The obligations. -/

/-- Settles O21: the two cases of the growth rule. -/
theorem tickGrowsTheWidthAtZero : Obligations.TickGrowsTheWidthAtZero := by
  intro s h
  refine congrArg (fun c => Host.Outcome.next { s with width := c }) ?_
  obtain ⟨hone, hgrow⟩ | ⟨hgt, hgrow⟩ := growth_cases s.width h
  · rw [hgrow, if_pos hone]
  · rw [hgrow, if_neg (Nat.ne_of_gt hgt)]

/-- Settles O22: whether Find answers an id decides between Insert and nothing. -/
theorem eregRegistersUnseenSymbols : Obligations.EregRegistersUnseenSymbols := by
  refine fun c s => ⟨fun hnew => ?_, fun ⟨id, h3, hid, hphrase⟩ => ?_⟩
  · exact congrArg Host.Outcome.next (registerSym_of_unseen ((dictFind_eq_none_iff ..).mpr hnew))
  · obtain ⟨hfound, -⟩ | ⟨hnone, -⟩ := registerSym_cases c s
    · obtain ⟨j, hj⟩ := Option.isSome_iff_exists.mp hfound
      exact congrArg Host.Outcome.next (registerSym_of_seen hj)
    · exact absurd hphrase ((dictFind_eq_none_iff ..).mp hnone id h3 hid)

/-- Settles O23: the entry's PENDING bit decides between the literal and the code. -/
theorem eemitSendsALiteralOrACode : Obligations.EemitSendsALiteralOrACode := by
  intro id e s hfind hentry
  obtain ⟨hpend, hemit⟩ | ⟨hpend, hemit⟩ := emitPhrase_cases hfind hentry
  · refine ⟨fun c p hw _ => ⟨emitPhrase s, ?_, rfl⟩, fun hno => absurd (hpend.symm.trans hno) nofun⟩
    rw [runOps_append (runOps_literal c s), hemit, hw]
    simp only [runOps, exec, execTick, execClearPending, tick_dict, pushLiteral_dict, firstSym]
  · refine ⟨fun _ _ _ hyes => absurd (hpend.symm.trans hyes) nofun, fun _ => ⟨emitPhrase s, ?_, rfl⟩⟩
    rw [hemit]
    rfl

/-- Settles O24: ESYM is EREG and then, as Find decides, the longer match or EEMIT and Insert. -/
theorem esymExtendsOrEmits : Obligations.EsymExtendsOrEmits := by
  intro s
  refine ⟨_, rfl, fun id hfound => ?_, fun hnone => ⟨_, rfl, ?_⟩⟩
  · refine congrArg Host.Outcome.next ((scanSym_eq s).trans ?_)
    rw [scanTail_of_found (by simpa using hfound)]
    simp
  · refine congrArg Host.Outcome.next ((scanSym_eq s).trans ?_)
    rw [scanTail_of_not_found (by simpa using hnone), State.mk.injEq]
    simp [(emitPhrase_same _).ret]

/-- Settles O25: both cases of W. -/
theorem efinEmitsEndAndFlushes : Obligations.EfinEmitsEndAndFlushes := by
  intro s
  by_cases hw : s.enc.w = []
  · refine ⟨s, encoderFinish s, by rw [if_pos hw, runOps_nil], ?_, rfl⟩
    simp only [encoderFinish, hw, if_true]
    rfl
  · refine ⟨emitPhrase s, encoderFinish s, by rw [if_neg hw]; rfl, ?_, rfl⟩
    simp only [encoderFinish, hw, if_false]
    rfl

/-- Settles O26: SCAN counts the ESYM steps, so the loop runs IN_LEN of them. -/
theorem encodeIsOneEsymPerSymbol : Obligations.EncodeIsOneEsymPerSymbol := by
  intro s
  refine ⟨encodeText s, ?_, rfl⟩
  rw [encodeText_eq, List.cons_append, runOps_cons rfl, runOps_append (runOps_esym ..)]
  rfl

end Sys2Proof.Machine
end

section
/-! Proof of the encoder's invariant (R157, R158): what EEMIT does to the dictionary and the code space, what holds
inside an ESYM between its EREG and its EEMIT, and the three ways an ESYM can go. -/

namespace Sys2Proof.Machine

/-! The code-width registers (R38, R157). -/

/-- The ranges of NUMBITS and ENLARGEIN between micro-operations of the encoder. -/
structure WidthInRange (c : CodeWidth) : Prop where
  numBits_ge : 2 ≤ c.numBits
  enlargeIn_pos : 1 ≤ c.enlargeIn
  enlargeIn_le : c.enlargeIn ≤ 2 ^ (c.numBits - 1)

theorem WidthInRange.growth {c : CodeWidth} (h : WidthInRange c) : WidthInRange (growth c) :=
  ⟨h.numBits_ge.trans (growth_numBits_le c), growth_enlargeIn_pos c h.enlargeIn_pos,
    growth_enlargeIn_le c h.enlargeIn_pos h.enlargeIn_le⟩

/-- The part of the invariant that also holds inside an ESYM up to its EEMIT (R157, R158). -/
structure EncCore (s : State) : Prop where
  shape : DictShape s.dict s.width.nextId
  width : WidthInRange s.width
  codeSpace : s.width.nextId + s.width.enlargeIn = 2 ^ s.width.numBits + 1 + pendingCount s.dict

theorem EncInv.core {s : State} (h : EncInv s) : EncCore s :=
  ⟨h.shape, ⟨h.numBits_ge, h.enlargeIn_pos, h.enlargeIn_le⟩, h.codeSpace⟩

/-! EEMIT of a phrase in the dictionary (R152). -/

/-- The state is about to emit W, which the entry at this id holds. -/
structure Emits (s : State) (id : Nat) (e : Entry) : Prop extends EncCore s where
  entry : tableGet s.dict id = some e
  phrase : e.phrase = s.enc.w

namespace Emits

variable {s : State} {id : Nat} {e : Entry}

theorem w_phrase (h : Emits s id e) : dictPhrase? s.dict id = some s.enc.w :=
  h.phrase ▸ dictPhrase?_of_entry h.entry

theorem found (h : Emits s id e) : dictFind s.dict s.width.nextId s.enc.w = some id :=
  h.shape.find_eq_some_iff.mpr h.w_phrase

/-- A literal ticks twice and clears the PENDING bit, a code ticks once. -/
theorem cases (h : Emits s id e) :
    (e.pending = true ∧ (emitPhrase s).dict = dictWrite s.dict id s.enc.w false ∧
      (emitPhrase s).width = growth (growth s.width)) ∨
    (e.pending = false ∧ (emitPhrase s).dict = s.dict ∧ (emitPhrase s).width = growth s.width) := by
  obtain ⟨hp, hemit⟩ | ⟨hp, hemit⟩ := emitPhrase_cases h.found h.entry
  · refine .inl ⟨hp, ?_, ?_⟩
    · rw [hemit, tick_dict, clearPending_of_entry h.entry, h.phrase]
    · simp [hemit]
  · exact .inr ⟨hp, by simp [hemit], by simp [hemit]⟩

/-- EEMIT leaves W's entry not pending and every other entry as it was. -/
theorem get (h : Emits s id e) (j : Nat) : tableGet (emitPhrase s).dict j =
    if j = id then some { phrase := s.enc.w, pending := false } else tableGet s.dict j := by
  obtain ⟨-, hd, -⟩ | ⟨hp, hd, -⟩ := h.cases
  · rw [hd, dictWrite, tableGet_tableSet]
  · rw [hd]
    split_ifs with hj
    · rw [hj, h.entry, ← h.phrase, ← hp]
    · rfl

theorem shape_emitPhrase (h : Emits s id e) :
    DictShape (emitPhrase s).dict (emitPhrase s).width.nextId := by
  rw [emitPhrase_nextId]
  obtain ⟨-, hd, -⟩ | ⟨-, hd, -⟩ := h.cases
  · rw [hd]
    exact h.shape.rewrite h.w_phrase false
  · rw [hd]
    exact h.shape

theorem width_emitPhrase (h : Emits s id e) : WidthInRange (emitPhrase s).width := by
  obtain ⟨-, -, hw⟩ | ⟨-, -, hw⟩ := h.cases
  · exact hw ▸ h.width.growth.growth
  · exact hw ▸ h.width.growth

/-- Each tick stands for one code: that of the symbol sent, and that of the phrase to be inserted (R157). -/
theorem codeSpace_emitPhrase (h : Emits s id e) :
    (emitPhrase s).width.nextId + (emitPhrase s).width.enlargeIn =
      2 ^ (emitPhrase s).width.numBits + pendingCount (emitPhrase s).dict := by
  have hspace := h.codeSpace
  have hgrow := growth_codeSpace s.width h.width.enlargeIn_pos
  rw [emitPhrase_nextId]
  obtain ⟨hp, hd, hw⟩ | ⟨-, hd, hw⟩ := h.cases
  · have hgrow' := growth_codeSpace _ h.width.growth.enlargeIn_pos
    have hcount := h.shape.pendingCount_clear h.entry
    rw [h.phrase, hp, Bool.toNat_true] at hcount
    rw [hd, hw]
    omega
  · rw [hd, hw]
    omega

theorem phrase_emitPhrase (h : Emits s id e) (j : Nat) :
    dictPhrase? (emitPhrase s).dict j = dictPhrase? s.dict j := by
  rw [dictPhrase?, h.get]
  split_ifs with hj
  · rw [hj, h.w_phrase]
    rfl
  · rfl

theorem phrase_inserted (h : Emits s id e) (c : Sym) (j : Nat) :
    dictPhrase? (insertPhrase (s.enc.w ++ [c]) false (emitPhrase s)).dict j =
      if j = s.width.nextId then some (s.enc.w ++ [c]) else dictPhrase? s.dict j := by
  rw [insertPhrase_dict, dictPhrase?_dictWrite, h.phrase_emitPhrase, emitPhrase_nextId]

end Emits

/-! Between ESYM steps. -/

namespace EncInv

variable {s : State} (h : EncInv s)
include h

theorem nextId_ge : 3 ≤ s.width.nextId := by
  obtain ⟨hbits, hpos, hle⟩ := h.core.width
  have hspace := h.codeSpace
  have hhalf : 2 ^ s.width.numBits = 2 * 2 ^ (s.width.numBits - 1) := by
    rw [← pow_succ', Nat.sub_add_cancel (by omega)]
  have htwo : 2 ^ 1 ≤ 2 ^ (s.width.numBits - 1) := Nat.pow_le_pow_right (by omega) (by omega)
  omega

/-- W's entry alone may be pending (R158). -/
theorem pending_phrase {id : Nat} {e : Entry} (he : tableGet s.dict id = some e)
    (hp : e.pending = true) : e.phrase = s.enc.w := by
  obtain ⟨c, hphrase, hw, -⟩ := h.pendingShape id e he hp
  rw [hphrase, hw]

theorem emits {id : Nat} {e : Entry} (he : tableGet s.dict id = some e) (hw : e.phrase = s.enc.w) :
    Emits s id e :=
  ⟨h.core, he, hw⟩

/-- `P` of R157 is the PENDING bit of W's entry. -/
theorem pendingCount_eq {id : Nat} {e : Entry} (he : tableGet s.dict id = some e)
    (hw : e.phrase = s.enc.w) : pendingCount s.dict = e.pending.toNat :=
  h.shape.pendingCount_eq he fun _ _ hj hp =>
    (h.shape.entry_eq hj he ((h.pending_phrase hj hp).trans hw.symm)).1

/-- The code of a phrase already sent fits its field (R157). -/
theorem code_fits {id : Nat} {e : Entry} (he : tableGet s.dict id = some e) (hw : e.phrase = s.enc.w)
    (hp : e.pending = false) : id + s.width.enlargeIn ≤ 2 ^ s.width.numBits := by
  have hcount := h.pendingCount_eq he hw
  have hspace := h.codeSpace
  have hid := (h.dense id).mp (by rw [he]; rfl)
  rw [hp, Bool.toNat_false] at hcount
  omega

theorem pendingCount_le_one : pendingCount s.dict ≤ 1 := by
  obtain ⟨-, hd⟩ | ⟨id, hid⟩ := h.matched
  · rw [hd]
    exact Nat.zero_le 1
  · obtain ⟨e, he, hw⟩ := dictPhrase?_eq_some_iff.mp hid
    rw [h.pendingCount_eq he hw]
    exact Bool.toNat_le _

theorem w_found (hw : s.enc.w ≠ []) : ∃ id e, tableGet s.dict id = some e ∧ e.phrase = s.enc.w := by
  obtain ⟨hnil, -⟩ | ⟨id, hid⟩ := h.matched
  · exact absurd hnil hw
  · exact ⟨id, dictPhrase?_eq_some_iff.mp hid⟩

end EncInv

/-! EREG inside an ESYM (R153, R154). -/

/-- The state of the encoder after the EREG of an ESYM: the invariant, but for the symbol's own entry, which may
be pending and then stands in no other phrase. -/
structure Registered (c : Sym) (s : State) : Prop extends EncCore s where
  seen : ∃ id, dictPhrase? s.dict id = some [c]
  pendingShape : ∀ id e, tableGet s.dict id = some e → e.pending = true → e.phrase = s.enc.w ∨
    e.phrase = [c] ∧ ∀ id' p, dictPhrase? s.dict id' = some p → c ∈ p → p = [c]

theorem DictShape.insert_symbol {d : Dict} {n : Nat} (h : DictShape d n) (h3 : 3 ≤ n) {c : Sym}
    (hnew : ∀ id, dictPhrase? d id ≠ some [c]) (b : Bool) : DictShape (dictWrite d n [c] b) (n + 1) := by
  refine h.insert b h3 (List.cons_ne_nil c []) hnew (fun q c' hq hne => ?_) fun c' hc' => .inl ?_
  · exact absurd (List.append_eq_singleton_iff.mp hq.symm) (by simp [hne])
  · rw [List.mem_singleton.mp hc']

/-- An entry stays where it is when a symbol is registered. -/
theorem DictShape.get_registerSym {s : State} (h : DictShape s.dict s.width.nextId) (c : Sym) {id : Nat}
    {e : Entry} (he : tableGet s.dict id = some e) : tableGet (registerSym c s).dict id = some e := by
  obtain ⟨-, hreg⟩ | ⟨-, hreg⟩ := registerSym_cases c s
  · rw [hreg, he]
  · have hlt := ((h.dense id).mp (by rw [he]; rfl)).2
    rw [hreg, insertPhrase_dict, dictWrite, tableGet_tableSet, if_neg (Nat.ne_of_lt hlt), he]

theorem EncInv.registerSym {s : State} (h : EncInv s) (c : Sym) : Registered c (registerSym c s) := by
  obtain ⟨hfound, hreg⟩ | ⟨hnone, hreg⟩ := registerSym_cases c s
  · obtain ⟨id, hid⟩ := Option.isSome_iff_exists.mp hfound
    rw [hreg]
    exact ⟨h.core, ⟨id, h.shape.find_eq_some_iff.mp hid⟩,
      fun _ _ he hp => .inl (h.pending_phrase he hp)⟩
  · have hnew := h.shape.find_eq_none_iff.mp hnone
    have hspace := h.codeSpace
    rw [hreg]
    refine ⟨⟨h.shape.insert_symbol h.nextId_ge hnew true, { h.core.width with }, ?_⟩, ⟨s.width.nextId, ?_⟩, ?_⟩
    · rw [insertPhrase_dict, h.shape.pendingCount_insert, Bool.toNat_true]
      dsimp only [insertPhrase_width]
      omega
    · rw [insertPhrase_dict, dictPhrase?_dictWrite, if_pos rfl]
    · intro id e he hp
      rw [insertPhrase_dict, dictWrite, tableGet_tableSet] at he
      split_ifs at he with hid
      · cases he
        refine .inr ⟨rfl, fun id' p hp hc => ?_⟩
        obtain ⟨-, hpc⟩ | hp := dictWrite_cases hp
        · exact hpc
        · obtain ⟨j, hj⟩ := h.symbols id' p c hp hc
          exact absurd hj (hnew j)
      · exact .inl (h.pending_phrase he hp)

theorem Registered.emits {c : Sym} {s : State} (h : Registered c s) {id : Nat} {e : Entry}
    (he : tableGet s.dict id = some e) (hw : e.phrase = s.enc.w) : Emits s id e :=
  ⟨h.toEncCore, he, hw⟩

/-! EEMIT and Insert bring the invariant back (R154, R157). -/

section Inserted

variable {c : Sym} {s : State} {id : Nat} {e : Entry} (h : Registered c s) (hemit : Emits s id e)
  (hnew : ∀ j, dictPhrase? s.dict j ≠ some (s.enc.w ++ [c]))
include h hemit

include hnew in
theorem Registered.shape_inserted :
    DictShape (insertPhrase (s.enc.w ++ [c]) false (emitPhrase s)).dict
      ((emitPhrase s).width.nextId + 1) := by
  have hphrase (j : Nat) := hemit.phrase_emitPhrase j
  refine hemit.shape_emitPhrase.insert false ?_ (by simp) (fun j => by rw [hphrase]; exact hnew j)
    (fun q c' hq _ => ⟨id, ?_⟩) fun c' hc' => .inr ?_
  · rw [emitPhrase_nextId]
    have := h.shape.range_of_phrase hemit.w_phrase
    omega
  · rw [hphrase, hemit.w_phrase, List.append_inj_left' hq rfl]
  · simp only [hphrase]
    obtain hw | hc := List.mem_append.mp hc'
    · exact h.shape.symbols id _ c' hemit.w_phrase hw
    · rw [List.mem_singleton.mp hc]
      exact h.seen

/-- W's PENDING bit being cleared, only the new symbol may be pending, and it begins no longer phrase. -/
theorem Registered.pending_inserted {j : Nat} {x : Entry}
    (hx : tableGet (insertPhrase (s.enc.w ++ [c]) false (emitPhrase s)).dict j = some x)
    (hp : x.pending = true) : x.phrase = [c] ∧ ∀ k p,
      dictPhrase? (insertPhrase (s.enc.w ++ [c]) false (emitPhrase s)).dict k = some (c :: p) → p = [] := by
  rw [insertPhrase_dict, dictWrite, tableGet_tableSet, hemit.get] at hx
  split_ifs at hx with hj hjw
  · cases hx
    cases hp
  · cases hx
    cases hp
  · have hnotw : x.phrase ≠ s.enc.w := fun hxw =>
      hjw (h.shape.entry_eq hx hemit.entry (hxw.trans hemit.phrase.symm)).1
    obtain ⟨hxc, halone⟩ := (h.pendingShape j x hx hp).resolve_left hnotw
    refine ⟨hxc, fun k p hk => ?_⟩
    rw [hemit.phrase_inserted] at hk
    split_ifs at hk
    · obtain ⟨a, w, hw⟩ := List.exists_cons_of_ne_nil (h.shape.nonempty id _ hemit.w_phrase)
      have hac : a = c := List.head_eq_of_cons_eq ((congrArg (· ++ [c]) hw).symm.trans (Option.some.inj hk))
      have hcw : c ∈ s.enc.w := by rw [hw, hac]; exact List.mem_cons_self
      exact absurd (hxc.trans (halone id _ hemit.w_phrase hcw).symm) hnotw
    · exact List.tail_eq_of_cons_eq (halone k _ hk List.mem_cons_self)

include hnew in
theorem Registered.emitted :
    EncInv { insertPhrase (s.enc.w ++ [c]) false (emitPhrase s) with enc := { s.enc with w := [c] } } := by
  obtain ⟨hsorted, hdense, hnonempty, honce, hprefixes, hsymbols⟩ := h.shape_inserted hemit hnew
  obtain ⟨hbits, hpos, hle⟩ := hemit.width_emitPhrase
  have hspace := hemit.codeSpace_emitPhrase
  have hcount := hemit.shape_emitPhrase.pendingCount_insert (s.enc.w ++ [c]) false
  refine ⟨hbits, ?_, hpos, hle, hsorted, hdense, hnonempty, honce, hprefixes, hsymbols,
    fun j x hx hp => ?_, .inr ?_⟩
  · simp only [insertPhrase_dict, insertPhrase_width, hcount, Bool.toNat_false]
    omega
  · obtain ⟨hphrase, hbegins⟩ := h.pending_inserted hemit hx hp
    exact ⟨c, hphrase, rfl, hbegins⟩
  · obtain ⟨j, hj⟩ := h.seen
    refine ⟨j, ?_⟩
    rw [hemit.phrase_inserted, if_neg (Nat.ne_of_lt (h.shape.range_of_phrase hj).2), hj]

end Inserted

/-! The three ways an ESYM can go (R154). -/

/-- The symbol the next ESYM takes. -/
def nextSym (s : State) : Sym := memRead s.port.inp s.enc.scan

/-- SCAN moved on by one. -/
def advance (s : State) : State := { s with enc := { s.enc with scan := s.enc.scan + 1 } }

/-- The state an ESYM reaches with its EREG. -/
def registered (s : State) : State := registerSym (nextSym s) (advance s)

theorem scanSym_eq_registered (s : State) : scanSym s = scanTail (nextSym s) (registered s) := scanSym_eq s

@[simp] theorem registered_enc (s : State) :
    (registered s).enc = { s.enc with scan := s.enc.scan + 1 } := registerSym_enc ..

@[simp] theorem registered_port (s : State) : (registered s).port = s.port := registerSym_port ..

theorem phrase_registered {s : State} {id : Nat} {p : Phrase}
    (hp : dictPhrase? (registered s).dict id = some p) :
    p = [nextSym s] ∨ dictPhrase? s.dict id = some p := by
  obtain ⟨-, hreg⟩ | ⟨-, hreg⟩ := registerSym_cases (nextSym s) (advance s)
  · rw [registered, hreg] at hp
    exact .inr hp
  · rw [registered, hreg] at hp
    exact (dictWrite_cases hp).imp_left And.right

namespace EncInv

variable {s : State} (h : EncInv s)
include h

theorem advance : EncInv (advance s) := { h with }

theorem registered : Registered (nextSym s) (registered s) := h.advance.registerSym _

theorem get_registered {id : Nat} {e : Entry} (he : tableGet s.dict id = some e) :
    tableGet (Machine.registered s).dict id = some e :=
  DictShape.get_registerSym (s := Machine.advance s) h.shape _ he

/-- The first ESYM starts the match with its symbol. -/
theorem scanSym_first (hw : s.enc.w = []) : scanSym s =
    { Machine.registered s with enc := { w := [nextSym s], scan := s.enc.scan + 1 } } := by
  obtain ⟨id, hid⟩ := h.registered.seen
  rw [scanSym_eq_registered, scanTail_of_found (id := id)]
  · simp [hw]
  · simpa [hw] using h.registered.shape.find_eq_some_iff.mpr hid

/-- Where W with the symbol is in the dictionary, the symbol has been seen and the match is extended. -/
theorem scanSym_extend {id : Nat} (hp : dictPhrase? s.dict id = some (s.enc.w ++ [nextSym s])) :
    scanSym s = { s with enc := { w := s.enc.w ++ [nextSym s], scan := s.enc.scan + 1 } } := by
  obtain ⟨j, hj⟩ := h.symbols id _ (nextSym s) hp (by simp)
  have hreg : Machine.registered s = Machine.advance s :=
    registerSym_of_seen (h.advance.shape.find_eq_some_iff.mpr hj)
  rw [scanSym_eq_registered, hreg, scanTail_of_found (h.advance.shape.find_eq_some_iff.mpr hp)]
  rfl

/-- Everything an ESYM can do from a state that meets the invariant. -/
theorem scanSym_cases :
    (s.enc.w = [] ∧ scanSym s =
      { Machine.registered s with enc := { w := [nextSym s], scan := s.enc.scan + 1 } }) ∨
    (s.enc.w ≠ [] ∧ (∃ id, dictPhrase? s.dict id = some (s.enc.w ++ [nextSym s])) ∧ scanSym s =
      { s with enc := { w := s.enc.w ++ [nextSym s], scan := s.enc.scan + 1 } }) ∨
    (s.enc.w ≠ [] ∧ (∀ id, dictPhrase? (Machine.registered s).dict id ≠ some (s.enc.w ++ [nextSym s])) ∧
      scanSym s = { insertPhrase (s.enc.w ++ [nextSym s]) false (emitPhrase (Machine.registered s)) with
        enc := { w := [nextSym s], scan := s.enc.scan + 1 } }) := by
  by_cases hw : s.enc.w = []
  · exact .inl ⟨hw, h.scanSym_first hw⟩
  · refine .inr ?_
    by_cases hfound : ∃ id, dictPhrase? s.dict id = some (s.enc.w ++ [nextSym s])
    · obtain ⟨id, hid⟩ := hfound
      exact .inl ⟨hw, ⟨id, hid⟩, h.scanSym_extend hid⟩
    · have hnew (id : Nat) : dictPhrase? (Machine.registered s).dict id ≠ some (s.enc.w ++ [nextSym s]) :=
        fun hid => (phrase_registered hid).elim (by simp [hw]) fun hold => hfound ⟨id, hold⟩
      refine .inr ⟨hw, hnew, ?_⟩
      rw [scanSym_eq_registered, scanTail_of_not_found]
      · simp
      · rw [registered_enc]
        exact h.registered.shape.find_eq_none_iff.mpr hnew

/-- Where W with some symbol is in the dictionary, no entry is pending. -/
theorem not_pending_of_extended {id j : Nat} {c : Sym} {e : Entry}
    (hp : dictPhrase? s.dict id = some (s.enc.w ++ [c])) (he : tableGet s.dict j = some e) :
    e.pending = false := by
  by_contra hpend
  obtain ⟨a, -, hw, hbegins⟩ := h.pendingShape j e he (by simpa using hpend)
  rw [hw] at hp
  exact absurd (hbegins id [c] hp) (List.cons_ne_nil c [])

/-- Every ESYM keeps the invariant and leaves W found. -/
theorem scanSym : EncInv (scanSym s) ∧ (Machine.scanSym s).enc.w ≠ [] := by
  obtain ⟨hw, hscan⟩ | ⟨-, ⟨id, hid⟩, hscan⟩ | ⟨hw, hnew, hscan⟩ := h.scanSym_cases
  · obtain ⟨⟨⟨hsorted, hdense, hnonempty, honce, hprefixes, hsymbols⟩, ⟨hbits, hpos, hle⟩, hspace⟩, hseen,
      hpending⟩ := h.registered
    rw [hscan]
    refine ⟨⟨hbits, hspace, hpos, hle, hsorted, hdense, hnonempty, honce, hprefixes, hsymbols,
      fun id e he hp => ?_, .inr hseen⟩, List.cons_ne_nil _ []⟩
    obtain hnil | ⟨hphrase, halone⟩ := hpending id e he hp
    · rw [registered_enc, hw] at hnil
      exact absurd hnil (hnonempty id _ (dictPhrase?_of_entry he))
    · exact ⟨nextSym s, hphrase, rfl, fun k p hk =>
        List.tail_eq_of_cons_eq (halone k _ hk List.mem_cons_self)⟩
  · rw [hscan]
    refine ⟨{ h with
      pendingShape := fun j e he hp => ?_
      matched := .inr ⟨id, hid⟩ }, by simp⟩
    exact absurd hp (by simp [h.not_pending_of_extended hid he])
  · obtain ⟨id, e, he, hphrase⟩ := h.w_found hw
    have hemit := h.registered.emits (h.get_registered he) (by rw [registered_enc, hphrase])
    rw [hscan]
    refine ⟨?_, List.cons_ne_nil _ []⟩
    simpa using h.registered.emitted hemit (by simpa using hnew)

end EncInv

/-! The obligation. -/

/-- EINIT establishes the invariant (R157). -/
theorem encoderInit_encInv (s : State) : EncInv (encoderInit s) where
  numBits_ge := Nat.le_refl 2
  codeSpace := rfl
  enlargeIn_pos := Nat.le_succ 1
  enlargeIn_le := Nat.le_refl 2
  sorted := List.Pairwise.nil
  dense id := by simp [tableGet]
  nonempty := nofun
  once := nofun
  prefixes := nofun
  symbols := nofun
  pendingShape := nofun
  matched := .inl ⟨rfl, rfl⟩

/-- EREG makes at most one more entry pending. -/
theorem pendingCount_registerSym {s : State} (h : EncInv s) (c : Sym) :
    pendingCount (registerSym c s).dict ≤ 2 := by
  have hle := h.pendingCount_le_one
  obtain ⟨-, hreg⟩ | ⟨-, hreg⟩ := registerSym_cases c s
  · rw [hreg]
    omega
  · rw [hreg, insertPhrase_dict, h.shape.pendingCount_insert, Bool.toNat_true]
    omega

/-- The code of a phrase already sent still fits after the EREG of an ESYM, which leaves the width. -/
theorem code_fits_registerSym {s : State} (h : EncInv s) (c : Sym) {id : Nat} {e : Entry}
    (hfind : dictPhrase? (registerSym c s).dict id = some s.enc.w)
    (he : tableGet (registerSym c s).dict id = some e) (hp : e.pending = false) :
    id + (registerSym c s).width.enlargeIn ≤ 2 ^ (registerSym c s).width.numBits := by
  have hshape := (h.registerSym c).shape
  have hw : s.enc.w ≠ [] := fun hnil => hshape.nonempty id _ hfind hnil
  obtain ⟨j, x, hx, hphrase⟩ := h.w_found hw
  obtain ⟨rfl, rfl⟩ := hshape.entry_eq he (h.shape.get_registerSym c hx)
    ((Option.some.inj ((dictPhrase?_of_entry he).symm.trans hfind)).trans hphrase.symm)
  have hfits := h.code_fits hx hphrase hp
  obtain ⟨-, hreg⟩ | ⟨-, hreg⟩ := registerSym_cases c s <;> rwa [hreg]

/-- Settles O27: EINIT establishes the invariant; an ESYM starts the match, extends it, or emits W and
inserts the longer phrase, and each of the three keeps it. -/
theorem encoderInvariantKept : Obligations.EncoderInvariantKept := by
  refine ⟨fun s t ht => ?_, fun s h => ⟨fun id e hfind he hp => ?_, ?_, ?_⟩⟩
  · cases ht
    exact encoderInit_encInv s
  · have hphrase := h.shape.find_eq_some_iff.mp hfind
    exact h.code_fits he (Option.some.inj ((dictPhrase?_of_entry he).symm.trans hphrase)) hp
  · refine ⟨_, rfl, pendingCount_registerSym h _, fun id e hfind he hp => ?_⟩
    rw [registerSym_enc, (h.registerSym _).shape.find_eq_some_iff] at hfind
    exact code_fits_registerSym h _ hfind he hp
  · obtain ⟨hinv, hw⟩ := h.scanSym
    obtain ⟨id, e, he, hphrase⟩ := hinv.w_found hw
    exact ⟨_, rfl, hinv, hw, by rw [(hinv.emits he hphrase).found]; nofun⟩

end Sys2Proof.Machine
end

section
/-! SUPPORT. The stream the encoder sends and the decoder takes in (R160, R182): the stream bits of what EEMIT
emits are the encoding of a token, and a token step of the decoder on these bits runs that token. -/

namespace Sys2Proof.Machine

/-! What the encoder has sent. -/

/-- The stream bits sent since BUF was empty, those the packer still holds among them (R132, R160). -/
structure Sent (bs : List Bool) (s : State) : Prop where
  packer_wf : PackerWf s.packer
  bits : bufferBits s.buf ++ heldBits s.packer = bs
  range : ∀ w ∈ bufWords s, WireRange w

namespace Sent

variable {bs : List Bool} {s : State} (h : Sent bs s)
include h

/-- Only BUF and the packer matter. -/
theorem of_same {t : State} (hbuf : t.buf = s.buf) (hpacker : t.packer = s.packer) : Sent bs t := by
  obtain ⟨hwf, hbits, hrange⟩ := h
  exact ⟨hpacker ▸ hwf, by rw [hbuf, hpacker, hbits], by rwa [bufWords, hbuf]⟩

theorem pushField (v n : Nat) : Sent (bs ++ fieldBits v n) (pushField v n s) := by
  obtain ⟨buf, p, hpush, hwf, hbits, hext⟩ := pushBits_spec (fieldBits v n) s h.packer_wf
  obtain ⟨ws, hws, hunits⟩ := hext.words
  rw [Machine.pushField, hpush]
  refine ⟨hwf, by rw [hbits, h.bits], ?_⟩
  rw [bufWords, hunits]
  exact List.forall_mem_append.mpr ⟨h.range, hws⟩

/-- FLUSH sends the bits held, with zeros behind them (R133). -/
theorem flushWord : ∃ zeros, bufferBits (flushWord s).buf = bs ++ zeros ∧
    ∀ w ∈ bufWords (Machine.flushWord s), WireRange w := by
  obtain ⟨v, hv, hflush, hbits⟩ := flushWord_spec s h.packer_wf
  refine ⟨List.replicate (15 - s.packer.pos.val) false, ?_, ?_⟩
  · rw [hflush, bufferBits_appendBuf, hbits, ← h.bits, List.append_assoc]
  · rw [bufWords, hflush, appendBuf_units]
    exact List.forall_mem_append.mpr ⟨h.range, List.forall_mem_singleton.mpr hv⟩

end Sent

/-- The stream bits of a token: its code field and the symbol field its code asks for (R102, R103). -/
def tokenBits (n code sym : Nat) : List Bool := fieldBits code n ++ fieldBits sym (symWidth code)

/-- The code of a symbol's literal: CODE_LIT8 where the symbol fits 8 bits, CODE_LIT16 elsewhere (R152). -/
def literalCode (c : Sym) : Nat := if c.toNat < 256 then 0 else 1

/-- The stream bits EEMIT sends for W, which the entry at this id holds (R152). -/
def emittedBits (s : State) (id : Nat) (e : Entry) : List Bool :=
  if e.pending then tokenBits s.width.numBits (literalCode (firstSym s.enc.w)) (firstSym s.enc.w).toNat
  else tokenBits s.width.numBits id 0

theorem literalCode_cases (c : Sym) :
    (c.toNat < 256 ∧ literalCode c = 0) ∨ (¬ c.toNat < 256 ∧ literalCode c = 1) := by
  unfold literalCode
  split_ifs with hc
  · exact .inl ⟨hc, rfl⟩
  · exact .inr ⟨hc, rfl⟩

theorem tokenBits_of_code (n : Nat) {code : Nat} (h : 2 ≤ code) : tokenBits n code 0 = fieldBits code n := by
  rw [tokenBits, symWidth_of_ge_two h]
  exact List.append_nil _

theorem pushLiteral_eq (c : Sym) (s : State) : pushLiteral c s =
    pushField c.toNat (symWidth (literalCode c)) (pushField (literalCode c) s.width.numBits s) := by
  unfold pushLiteral
  obtain ⟨hc, hcode⟩ | ⟨hc, hcode⟩ := literalCode_cases c
  · rw [if_pos hc, hcode]
    rfl
  · rw [if_neg hc, hcode]
    rfl

theorem Sent.pushLiteral {bs : List Bool} {s : State} (h : Sent bs s) (c : Sym) :
    Sent (bs ++ tokenBits s.width.numBits (literalCode c) c.toNat) (pushLiteral c s) := by
  rw [pushLiteral_eq, tokenBits, ← List.append_assoc]
  exact (h.pushField _ _).pushField _ _

theorem Sent.emitPhrase {bs : List Bool} {s : State} (h : Sent bs s) {id : Nat} {e : Entry}
    (hemit : Emits s id e) : Sent (bs ++ emittedBits s id e) (emitPhrase s) := by
  unfold emittedBits
  obtain ⟨hp, hs⟩ | ⟨hp, hs⟩ := emitPhrase_cases hemit.found hemit.entry
  · rw [hs, if_pos hp]
    exact (h.pushLiteral _).of_same rfl rfl
  · have hid := (hemit.shape.range_of_phrase hemit.w_phrase).1
    rw [hs, if_neg (by simp [hp]), tokenBits_of_code _ (by omega)]
    exact (h.pushField _ _).of_same rfl rfl

/-! A token step on the bits of a token (R172, R184). -/

/-- The states a run of token steps leads to (R180). -/
def TokenRun : State → State → Prop :=
  Relation.ReflTransGen fun d d' => d.phase ≠ .idle ∧ tokenStep d = .next d'

/-- A token step on the fields of a token reads them and runs the token they select. -/
theorem tokenStep_of_tokenBits {d : State} {code sym : Nat} {rest : List Bool} (hc : CursorWf d.unpacker)
    (hcode : code < 2 ^ codeWidth (tokenCtx d)) (hsym : sym < 2 ^ symWidth code)
    (hu : unreadBits d = tokenBits (codeWidth (tokenCtx d)) code sym ++ rest) :
    ∃ u c, CursorWf u ∧ unreadBits { d with unpacker := u } = rest ∧
      tokenStep d = retireOutcome (assemble (tokenCtx d) code sym)
        (exec (assemble (tokenCtx d) code sym) { d with unpacker := u, dec := { d.dec with code := c } }) := by
  have hdec : decodeToken (tokenCtx d) (unreadBits d) = .ok (assemble (tokenCtx d) code sym, rest) :=
    decodeToken_eq_ok_iff.mpr ⟨code, sym, hcode, hsym, rfl, hu.trans (List.append_assoc ..)⟩
  obtain ⟨i, r, u, c, hok, -, hf, hcur, hr, -, -⟩ | ⟨e, -, -, herr, -⟩ := fetchToken_spec (tokenCtx d) d hc
  · cases hdec.symm.trans hok
    exact ⟨u, c, hcur, hr, tokenStep_of_token hf⟩
  · cases hdec.symm.trans herr

theorem literalCode_lt {n : Nat} (hn : 2 ≤ n) (c : Sym) : literalCode c < 2 ^ n := by
  have hpow : 2 ^ 2 ≤ 2 ^ n := Nat.pow_le_pow_right (by omega) hn
  obtain ⟨-, hcode⟩ | ⟨-, hcode⟩ := literalCode_cases c <;> omega

theorem toNat_lt_symWidth (c : Sym) : c.toNat < 2 ^ symWidth (literalCode c) := by
  obtain ⟨hc, hcode⟩ | ⟨-, hcode⟩ := literalCode_cases c
  · rwa [hcode]
  · rw [hcode]
    exact c.isLt

/-- The token of a literal, at the first place of a stream (R171). -/
theorem run_literal_first (c : Sym) (s : State) :
    retireOutcome (assemble .first (literalCode c) c.toNat)
      (exec (assemble .first (literalCode c) c.toNat) s) = .next (firstLiteral c s) := by
  have hsym : BitVec.ofNat 16 c.toNat = c := BitVec.ofNat_toNat 16 c |>.trans (BitVec.setWidth_eq c)
  obtain ⟨hc, hcode⟩ | ⟨-, hcode⟩ := literalCode_cases c
  · rw [hcode, assemble_first_lit8, exec_lit8P_ofNat hc, hsym]
    rfl
  · rw [hcode, assemble_first_lit16, hsym]
    rfl

/-- The token of a literal, at a later place (R173, R174). -/
theorem run_literal_later (n m : Nat) (c : Sym) (s : State) :
    retireOutcome (assemble (.later n m) (literalCode c) c.toNat)
      (exec (assemble (.later n m) (literalCode c) c.toNat) s) = .next (applyEntry (literal c s)) := by
  have hsym : BitVec.ofNat 16 c.toNat = c := BitVec.ofNat_toNat 16 c |>.trans (BitVec.setWidth_eq c)
  obtain ⟨hc, hcode⟩ | ⟨-, hcode⟩ := literalCode_cases c
  · rw [hcode, assemble_later_lit8, exec_lit8_ofNat hc, hsym]
    rfl
  · rw [hcode, assemble_later_lit16, hsym]
    rfl

/-- The token of a code below NEXTID (R176). -/
theorem run_ref (n : Nat) {m id : Nat} (h3 : 3 ≤ id) (hlt : id < m) (s : State) :
    retireOutcome (assemble (.later n m) id 0) (exec (assemble (.later n m) id 0) s) =
      .next (applyEntry (reference id s)) := by
  rw [assemble_later_ref n m 0 h3 hlt]
  rfl

/-- The token of the code NEXTID (R178). -/
theorem run_sref (n : Nat) {m : Nat} (h3 : 3 ≤ m) (s : State) :
    retireOutcome (assemble (.later n m) m 0) (exec (assemble (.later n m) m 0) s) =
      .next (applyEntry (selfReference s)) := by
  rw [assemble_later_sref n 0 h3]
  rfl

/-- The token of the code 2 (R175). -/
theorem run_end (n m : Nat) (s : State) :
    retireOutcome (assemble (.later n m) 2 0) (exec (assemble (.later n m) 2 0) s) = .next (endStream s) :=
  rfl

/-! DECODE as a run of token steps (R180). -/

theorem decodeStream_run (s : State) : TokenRun (decoderInit s) (decodeStream s) := by
  refine whileUpTo_inv (P := TokenRun (decoderInit s)) (fun t ht h => h.tail ?_) _ _
    (.single ⟨nofun, tokenStep_eq_prologue rfl⟩)
  have hlater : t.phase = .laterToken := of_decide_eq_true ht
  exact ⟨by rw [hlater]; nofun, tokenStep_eq_decodeStep hlater⟩

/-- No token step starts from an idle block. -/
theorem TokenRun.eq_of_idle {s t : State} (h : TokenRun s t) (hidle : s.phase = .idle) : t = s := by
  obtain rfl | ⟨r, hstep, -⟩ := h.cases_head
  · rfl
  · exact absurd hidle hstep.1

/-- DECODE ends where a run of token steps from DINIT comes to an end. -/
theorem decodeStream_eq_of_run {s t : State} (h : TokenRun (decoderInit s) t) (hidle : t.phase = .idle) :
    decodeStream s = t := by
  have hunique : Relator.RightUnique fun d d' : State => d.phase ≠ .idle ∧ tokenStep d = .next d' :=
    fun d a b ha hb => by cases ha.2.symm.trans hb.2; rfl
  obtain hrun | hrun := Relation.ReflTransGen.total_of_right_unique hunique h (decodeStream_run s)
  · exact TokenRun.eq_of_idle hrun hidle
  · exact (TokenRun.eq_of_idle hrun (decodeStream_phase s)).symm

end Sys2Proof.Machine
end

section
/-! The lockstep of the two sides (R182): just after an EEMIT the decoder, run on the bits sent so far, has the
encoder's code width and its dictionary without the entries still pending, and PREV is the phrase emitted. Each
token keeps this. -/

namespace Sys2Proof.Machine

/-! The dictionaries of the two sides (R182 c). -/

/-- The decoder's phrases at the ids `3 .. m-1` are the encoder's, none of them pending there. -/
def Shared (d e : Dict) (m : Nat) : Prop := ∀ id, 3 ≤ id → id < m →
  ∃ p, dictPhrase? d id = some p ∧ tableGet e id = some { phrase := p, pending := false }

theorem Shared.mono {d e e' : Dict} {m : Nat} (h : Shared d e m)
    (hget : ∀ id x, tableGet e id = some x → tableGet e' id = some x) : Shared d e' m := fun id h3 hlt =>
  have ⟨p, hd, he⟩ := h id h3 hlt
  ⟨p, hd, hget id _ he⟩

/-- The decoder writes the encoder's next entry. -/
theorem Shared.write {d e : Dict} {m : Nat} {p : Phrase} (h : Shared d e m)
    (he : tableGet e m = some { phrase := p, pending := false }) :
    Shared (dictWrite d m p false) e (m + 1) := by
  intro id h3 hlt
  rw [dictPhrase?_dictWrite]
  split_ifs with hid
  · exact ⟨p, rfl, hid ▸ he⟩
  · exact h id h3 (by omega)

/-- The encoder clears the PENDING bit of an entry the decoder does not have yet. -/
theorem Shared.clear {d e : Dict} {m : Nat} (h : Shared d e m) (p : Phrase) :
    Shared d (dictWrite e m p false) m := by
  intro id h3 hlt
  rw [dictWrite, tableGet_tableSet, if_neg (Nat.ne_of_lt hlt)]
  exact h id h3 hlt

/-- Registers NUMBITS and ENLARGEIN that agree grow alike (R151, R182 b). -/
theorem growth_agree {c c' : CodeWidth} (hn : c'.numBits = c.numBits) (he : c'.enlargeIn = c.enlargeIn) :
    (growth c').numBits = (growth c).numBits ∧ (growth c').enlargeIn = (growth c).enlargeIn := by
  unfold growth
  rw [hn, he]
  split <;> exact ⟨rfl, rfl⟩

/-! The relations between the two sides (R182). -/

/-- The decoder before the first token of a stream (R170). -/
structure AtStart (d : State) : Prop where
  phase : d.phase = .firstToken
  cursor : CursorWf d.unpacker
  dict : d.dict = []
  out : d.out.len = 0

/-- The decoder in its main loop with the encoder's code width and its dictionary as far as it was sent. -/
structure Follows (e d : State) : Prop where
  phase : d.phase = .laterToken
  cursor : CursorWf d.unpacker
  loop : LoopInv d
  numBits : d.width.numBits = e.width.numBits
  enlargeIn : d.width.enlargeIn = e.width.enlargeIn
  shared : Shared d.dict e.dict d.width.nextId

/-- The decoder has taken in everything sent, and W is the encoder's next phrase: nothing has been sent, or W's
entry and the entry inserted last are the two the decoder writes next, or W's entry is one the decoder has or
the one it writes next. -/
inductive Behind (e d : State) : Prop where
  | start (c : Sym) : AtStart d → e.width.numBits = 2 → e.width.enlargeIn = 2 → e.enc.w = [c] →
    tableGet e.dict 3 = some { phrase := [c], pending := true } → Behind e d
  | literal (c : Sym) : Follows e d → e.enc.w = [c] →
    tableGet e.dict d.width.nextId = some { phrase := [c], pending := true } →
    tableGet e.dict (d.width.nextId + 1) = some { phrase := d.dec.prev ++ [c], pending := false } → Behind e d
  | code (id : Nat) : Follows e d → id ≤ d.width.nextId →
    tableGet e.dict id = some { phrase := e.enc.w, pending := false } →
    tableGet e.dict d.width.nextId =
      some { phrase := d.dec.prev ++ [firstSym e.enc.w], pending := false } → Behind e d

theorem Follows.mono {e e' d : State} (h : Follows e d)
    (hget : ∀ id x, tableGet e.dict id = some x → tableGet e'.dict id = some x)
    (hn : e'.width.numBits = e.width.numBits) (hl : e'.width.enlargeIn = e.width.enlargeIn) :
    Follows e' d :=
  { h with
    numBits := h.numBits.trans hn.symm
    enlargeIn := h.enlargeIn.trans hl.symm
    shared := h.shared.mono hget }

/-- EREG of another symbol changes nothing here: it adds an entry at the end. -/
theorem Behind.registered {e d : State} (h : Behind e d) (hinv : EncInv e) : Behind (registered e) d := by
  have hget (id : Nat) (x : Entry) (hx : tableGet e.dict id = some x) := hinv.get_registered hx
  have hw : (Machine.registered e).enc.w = e.enc.w := by rw [registered_enc]
  obtain ⟨hn, hl⟩ : (Machine.registered e).width.numBits = e.width.numBits ∧
      (Machine.registered e).width.enlargeIn = e.width.enlargeIn := by
    obtain ⟨-, hreg⟩ | ⟨-, hreg⟩ := registerSym_cases (nextSym e) (advance e) <;>
      rw [Machine.registered, hreg] <;> exact ⟨rfl, rfl⟩
  cases h with
  | start c hd h2 hl2 hwc hc =>
    exact .start c hd (hn.trans h2) (hl.trans hl2) (hw.trans hwc) (hget _ _ hc)
  | literal c hf hwc hc hlast =>
    exact .literal c (hf.mono hget hn hl) (hw.trans hwc) (hget _ _ hc) (hget _ _ hlast)
  | code id hf hle hid hlast =>
    exact .code id (hf.mono hget hn hl) hle (hw ▸ hget _ _ hid) (hw ▸ hget _ _ hlast)

/-! One token (R182). -/

/-- A token step takes the decoder from one state to the next and appends a phrase to OUT. -/
structure Delivers (p : Phrase) (d d' : State) : Prop where
  running : d.phase ≠ .idle
  step : tokenStep d = .next d'
  units : outUnits d' = outUnits d ++ p
  dcause : d'.out.dcause = d.out.dcause
  dinfo : d'.out.dinfo = d.out.dinfo

theorem Delivers.of_appendOutAll {p : Phrase} {d d' : State} (hrun : d.phase ≠ .idle)
    (hstep : tokenStep d = .next d') (hout : d'.out = appendOutAll d.out p) : Delivers p d d' :=
  ⟨hrun, hstep, outUnits_appendOutAll hout, by rw [hout, appendOutAll_dcause],
    by rw [hout, appendOutAll_dinfo]⟩

/-- The decoder just after the token of an EEMIT (R182 a, b, c). -/
structure CaughtUp (e d : State) : Prop where
  follows : Follows e d
  prev : d.dec.prev = e.enc.w

/-- The fetch moves the cursor and writes CODE alone. -/
theorem Follows.fetched {e d : State} (h : Follows e d) {u : Unpacker} (hu : CursorWf u) (code : Nat) :
    Follows e { d with unpacker := u, dec := { d.dec with code := code } } :=
  { h with
    cursor := hu
    loop := { h.loop with } }

/-- The decoder writes the encoder's next entry and ticks where the encoder ticks (R157, R181). -/
theorem Follows.entryWritten {e e' d d' : State} {p : Phrase} (h : Follows e d)
    (hphase : d'.phase = d.phase) (hcursor : d'.unpacker = d.unpacker) (hloop : LoopInv d')
    (hwidth : d'.width = growth { d.width with nextId := d.width.nextId + 1 })
    (hdict : d'.dict = dictWrite d.dict d.width.nextId p false) (hgrow : e'.width = growth e.width)
    (hshared : Shared d.dict e'.dict d.width.nextId)
    (hentry : tableGet e'.dict d.width.nextId = some { phrase := p, pending := false }) :
    Follows e' d' := by
  obtain ⟨hn, hl⟩ := growth_agree (c := e.width) (c' := { d.width with nextId := d.width.nextId + 1 })
    h.numBits h.enlargeIn
  refine ⟨hphase.trans h.phase, hcursor ▸ h.cursor, hloop, ?_, ?_, ?_⟩
  · rw [hwidth, hgrow, hn]
  · rw [hwidth, hgrow, hl]
  · rw [hwidth, hdict, growth_nextId]
    exact hshared.write hentry

/-- DAPPLY, the encoder's last tick (R177). -/
theorem Follows.applyEntry {e e' d : State} (h : Follows e d) (hne : d.dec.entry ≠ [])
    (hnext : tableGet e.dict d.width.nextId =
      some { phrase := d.dec.prev ++ [firstSym d.dec.entry], pending := false })
    (hdict : e'.dict = e.dict) (hgrow : e'.width = growth e.width) : Follows e' (applyEntry d) :=
  h.entryWritten rfl rfl (h.loop.applyEntry hne) rfl rfl hgrow (hdict ▸ h.shared) (hdict ▸ hnext)

/-- The encoder half way through the EEMIT of a literal: its bit cleared and its own tick done (R152). -/
def literalSent (m : Nat) (c : Sym) (e : State) : State := tick { e with dict := dictWrite e.dict m [c] false }

/-- LIT8 and LIT16, the literal's own tick (R173, R174). -/
theorem Follows.literal {e d : State} (h : Follows e d) (c : Sym) :
    Follows (literalSent d.width.nextId c e) (literal c d) :=
  h.entryWritten rfl rfl (h.loop.literal c) rfl rfl rfl (h.shared.clear [c])
    (by rw [literalSent, tick_dict, dictWrite, tableGet_tableSet, if_pos rfl])

theorem Follows.withEntry {e d : State} (h : Follows e d) (p : Phrase) :
    Follows e { d with dec := { d.dec with entry := p } } :=
  { h with loop := { h.loop with } }

/-- REF and SREF resolve the code of a phrase to the phrase (R176, R178). -/
theorem Follows.run_code {e d : State} (h : Follows e d) {n id : Nat} {w : Phrase} (h3 : 3 ≤ id)
    (hle : id ≤ d.width.nextId) (hid : tableGet e.dict id = some { phrase := w, pending := false })
    (hlast : tableGet e.dict d.width.nextId =
      some { phrase := d.dec.prev ++ [firstSym w], pending := false }) :
    retireOutcome (assemble (.later n d.width.nextId) id 0)
      (exec (assemble (.later n d.width.nextId) id 0) d) =
        .next (Machine.applyEntry { d with dec := { d.dec with entry := w } }) := by
  obtain hlt | rfl := Nat.lt_or_eq_of_le hle
  · obtain ⟨p, hp, hpe⟩ := h.shared id h3 hlt
    have hpw : p = w := congrArg Entry.phrase (Option.some.inj (hpe.symm.trans hid))
    rw [run_ref n h3 hlt, reference, dictRead_of_phrase hp, hpw]
  · have hw : w = d.dec.prev ++ [firstSym w] := congrArg Entry.phrase (Option.some.inj (hid.symm.trans hlast))
    obtain ⟨a, p, hprev⟩ := List.exists_cons_of_ne_nil h.loop.prev_ne
    have hfirst : firstSym w = firstSym d.dec.prev := by rw [hw, hprev]; rfl
    rw [run_sref n h3, selfReference, ← hfirst, ← hw]

section Token

variable {e d : State} {id : Nat} {x : Entry} {rest : List Bool} (hemit : Emits e id x)
  (hu : unreadBits d = emittedBits e id x ++ rest)
include hemit hu

/-- The first token of a stream (R171). -/
theorem caughtUp_start {c : Sym} (hd : AtStart d) (hn : e.width.numBits = 2) (hl : e.width.enlargeIn = 2)
    (hw : e.enc.w = [c]) (hc : tableGet e.dict 3 = some { phrase := [c], pending := true }) :
    ∃ d', Delivers e.enc.w d d' ∧ unreadBits d' = rest ∧ CaughtUp (emitPhrase e) d' := by
  obtain ⟨rfl, rfl⟩ := hemit.shape.entry_eq hemit.entry hc (hemit.phrase.trans hw)
  obtain ⟨-, hdict, hwidth⟩ := hemit.cases.resolve_right fun h => absurd h.1 nofun
  have hctx := tokenCtx_of_firstToken hd.phase
  simp only [emittedBits, if_true, hw, firstSym, hn] at hu
  obtain ⟨u, n, hcur, hrest, hstep⟩ := tokenStep_of_tokenBits hd.cursor
    (by rw [hctx]; exact literalCode_lt (Nat.le_refl 2) c) (toNat_lt_symWidth c) (by rw [hctx]; exact hu)
  rw [hctx, run_literal_first] at hstep
  have hgrow : growth (growth e.width) = { e.width with numBits := 3, enlargeIn := 4 } := by
    have hone : growth e.width = { e.width with enlargeIn := 1 } := by rw [growth_of_gt (by omega), hl]
    rw [hone, growth_of_one rfl, hn]
    rfl
  refine ⟨_, .of_appendOutAll (by rw [hd.phase]; nofun) hstep (hw ▸ rfl), hrest,
    ⟨rfl, hcur, firstLiteral_loopInv c hd.dict, ?_, ?_, ?_⟩, ?_⟩
  · rw [hwidth, hgrow, firstLiteral_width]
  · rw [hwidth, hgrow, firstLiteral_width]
  · rw [hdict, firstLiteral_dict, firstLiteral_width, hw]
    refine Shared.write (fun id h3 hlt => by omega) ?_
    rw [dictWrite, tableGet_tableSet, if_pos rfl]
  · rw [emitPhrase_enc, hw, firstLiteral_dec]

/-- A literal at a later place (R173, R174). -/
theorem caughtUp_literal {c : Sym} (hd : Follows e d) (hw : e.enc.w = [c])
    (hc : tableGet e.dict d.width.nextId = some { phrase := [c], pending := true })
    (hlast : tableGet e.dict (d.width.nextId + 1) =
      some { phrase := d.dec.prev ++ [c], pending := false }) :
    ∃ d', Delivers e.enc.w d d' ∧ unreadBits d' = rest ∧ CaughtUp (emitPhrase e) d' := by
  obtain ⟨rfl, rfl⟩ := hemit.shape.entry_eq hemit.entry hc (hemit.phrase.trans hw)
  obtain ⟨-, hdict, hwidth⟩ := hemit.cases.resolve_right fun h => absurd h.1 nofun
  have hctx := tokenCtx_of_laterToken hd.phase
  simp only [emittedBits, if_true, hw, firstSym, ← hd.numBits] at hu
  obtain ⟨u, n, hcur, hrest, hstep⟩ := tokenStep_of_tokenBits hd.cursor
    (by rw [hctx]; exact literalCode_lt ((Nat.le_succ 2).trans hd.loop.numBits_ge) c)
    (toNat_lt_symWidth c) (by rw [hctx]; exact hu)
  rw [hctx, run_literal_later] at hstep
  refine ⟨_, .of_appendOutAll (by rw [hd.phase]; nofun) hstep (hw ▸ rfl), hrest,
    ((hd.fetched hcur n).literal c).applyEntry (List.cons_ne_nil c []) ?_ ?_ ?_, ?_⟩
  · rw [literalSent, tick_dict, dictWrite, tableGet_tableSet, literal_width, growth_nextId,
      if_neg (Nat.succ_ne_self _)]
    exact hlast
  · rw [hdict, hw]
    rfl
  · rw [hwidth]
    rfl
  · rw [emitPhrase_enc, hw]
    rfl

/-- A code the decoder has, or the one it assigns next (R176, R178). -/
theorem caughtUp_code {j : Nat} (hd : Follows e d) (hle : j ≤ d.width.nextId)
    (hj : tableGet e.dict j = some { phrase := e.enc.w, pending := false })
    (hlast : tableGet e.dict d.width.nextId =
      some { phrase := d.dec.prev ++ [firstSym e.enc.w], pending := false }) :
    ∃ d', Delivers e.enc.w d d' ∧ unreadBits d' = rest ∧ CaughtUp (emitPhrase e) d' := by
  obtain ⟨rfl, rfl⟩ := hemit.shape.entry_eq hemit.entry hj hemit.phrase
  obtain ⟨-, hdict, hwidth⟩ := hemit.cases.resolve_left fun h => absurd h.1 nofun
  have hctx := tokenCtx_of_laterToken hd.phase
  have h3 := (hemit.shape.range_of_phrase hemit.w_phrase).1
  have hlt : id < 2 ^ d.width.numBits := by
    have hspace := hd.loop.codeSpace
    have hpos := hd.loop.enlargeIn_pos
    omega
  simp only [emittedBits, Bool.false_eq_true, if_false, ← hd.numBits] at hu
  obtain ⟨u, n, hcur, hrest, hstep⟩ := tokenStep_of_tokenBits hd.cursor (by rw [hctx]; exact hlt)
    (Nat.two_pow_pos _) (by rw [hctx]; exact hu)
  have hq := hd.fetched hcur n
  rw [hctx, hq.run_code h3 hle hj hlast] at hstep
  exact ⟨_, .of_appendOutAll (by rw [hd.phase]; nofun) hstep rfl, hrest,
    (hq.withEntry e.enc.w).applyEntry (hemit.shape.nonempty id _ hemit.w_phrase) hlast hdict hwidth,
    by rw [emitPhrase_enc]; rfl⟩

end Token

/-- R182: the token of an EEMIT delivers W and brings the decoder level with the encoder. -/
theorem Behind.emit {e d : State} {id : Nat} {x : Entry} {rest : List Bool} (h : Behind e d)
    (hemit : Emits e id x) (hu : unreadBits d = emittedBits e id x ++ rest) :
    ∃ d', Delivers e.enc.w d d' ∧ unreadBits d' = rest ∧ CaughtUp (emitPhrase e) d' := by
  cases h with
  | start c hd hn hl hw hc => exact caughtUp_start hemit hu hd hn hl hw hc
  | literal c hd hw hc hlast => exact caughtUp_literal hemit hu hd hw hc hlast
  | code j hd hle hj hlast => exact caughtUp_code hemit hu hd hle hj hlast

/-! From one emission to the next. -/

/-- The encoder is ahead by its pending entry and the one it inserted last (R157, R181). -/
theorem Follows.nextId_eq {e d : State} (h : Follows e d) (hinv : EncInv e) :
    e.width.nextId = d.width.nextId + 1 + pendingCount e.dict := by
  have hspace := hinv.codeSpace
  have hspace' := h.loop.codeSpace
  rw [h.numBits, h.enlargeIn] at hspace'
  omega

/-- The code of a phrase already sent is one the decoder has or the one it assigns next. -/
theorem Follows.code_le {e d : State} (h : Follows e d) (hinv : EncInv e) {id : Nat} {x : Entry}
    (hx : tableGet e.dict id = some x) (hw : x.phrase = e.enc.w) (hp : x.pending = false) :
    id ≤ d.width.nextId := by
  have hfits := hinv.code_fits hx hw hp
  have hspace := h.loop.codeSpace
  rw [h.numBits, h.enlargeIn] at hspace
  omega

/-- A new match of one symbol, the phrase inserted last being PREV with that symbol: if the symbol is pending, its
entry and that phrase's are the next two of the decoder. -/
theorem Follows.behind {e d : State} {c : Sym} {n : Nat} (h : Follows e d) (hinv : EncInv e)
    (hw : e.enc.w = [c]) (hn : e.width.nextId = n + 1)
    (hlast : tableGet e.dict n = some { phrase := d.dec.prev ++ [c], pending := false }) : Behind e d := by
  have hahead := h.nextId_eq hinv
  obtain ⟨j, x, hx, hxw⟩ := hinv.w_found (by rw [hw]; exact List.cons_ne_nil c [])
  have hcount := hinv.pendingCount_eq hx hxw
  obtain ⟨p, pending⟩ := x
  obtain rfl : p = [c] := hxw.trans hw
  cases pending with
  | false =>
    rw [Bool.toNat_false] at hcount
    obtain rfl : n = d.width.nextId := by omega
    exact .code j h (h.code_le hinv hx hxw rfl) (hw ▸ hx) (hw ▸ hlast)
  | true =>
    rw [Bool.toNat_true] at hcount
    obtain rfl : n = d.width.nextId + 1 := by omega
    obtain ⟨h3, hlt⟩ := (hinv.dense j).mp (by rw [hx]; rfl)
    have hne : j ≠ d.width.nextId + 1 := by
      rintro rfl
      have hphrase : [c] = d.dec.prev ++ [c] := congrArg Entry.phrase (Option.some.inj (hx.symm.trans hlast))
      exact h.loop.prev_ne (by simpa using hphrase)
    have hge : ¬ j < d.width.nextId := fun hlt => by
      obtain ⟨q, -, hq⟩ := h.shared j h3 hlt
      cases hx.symm.trans hq
    obtain rfl : j = d.width.nextId := by omega
    exact .literal c h hw hx hlast

/-- The Insert and the new match that follow an EEMIT in an ESYM (R154). -/
theorem CaughtUp.behind {e d : State} {id : Nat} {x : Entry} {c : Sym} {enc : Encoder}
    (h : CaughtUp (emitPhrase e) d) (hemit : Emits e id x) (hw : enc.w = [c])
    (hinv : EncInv { insertPhrase (e.enc.w ++ [c]) false (emitPhrase e) with enc := enc }) :
    Behind { insertPhrase (e.enc.w ++ [c]) false (emitPhrase e) with enc := enc } d := by
  obtain ⟨hf, hprev⟩ := h
  rw [emitPhrase_enc] at hprev
  have hget (i : Nat) := tableGet_tableSet (emitPhrase e).dict (emitPhrase e).width.nextId i
    { phrase := e.enc.w ++ [c], pending := false }
  refine Follows.behind (c := c) (n := (emitPhrase e).width.nextId) (hf.mono (fun i y hy => ?_) rfl rfl) hinv
    hw rfl ?_
  · have hlt := ((hemit.shape_emitPhrase.dense i).mp (by rw [hy]; rfl)).2
    exact (hget i).trans (by rw [if_neg (Nat.ne_of_lt hlt), hy])
  · exact (hget _).trans (by rw [if_pos rfl, hprev])

/-- Extending the match leaves the first symbol of W, on which alone the decoder's next entry depends. -/
theorem Behind.extend {e d : State} {j : Nat} {c : Sym} {enc : Encoder} (h : Behind e d) (hinv : EncInv e)
    (hw : e.enc.w ≠ []) (hj : dictPhrase? e.dict j = some (e.enc.w ++ [c])) (hwc : enc.w = e.enc.w ++ [c])
    (hinv' : EncInv { e with enc := enc }) : Behind { e with enc := enc } d := by
  have hnot {i : Nat} {y : Entry} (hy : tableGet e.dict i = some y) := hinv.not_pending_of_extended hj hy
  cases h with
  | start a _ _ _ _ ha => exact absurd (hnot ha) nofun
  | literal a _ _ ha _ => exact absurd (hnot ha) nofun
  | code id hf _ _ hlast =>
    obtain ⟨⟨p, pending⟩, hx, rfl : p = e.enc.w ++ [c]⟩ := dictPhrase?_eq_some_iff.mp hj
    obtain rfl : pending = false := hnot hx
    have hf' : Follows { e with enc := enc } d := { hf with }
    have hfirst : firstSym enc.w = firstSym e.enc.w := by
      obtain ⟨a, p, hap⟩ := List.exists_cons_of_ne_nil hw
      rw [hwc, hap]
      rfl
    rw [← hfirst] at hlast
    exact .code j hf' (hf'.code_le hinv' hx hwc.symm rfl) (by rw [hwc]; exact hx) hlast

end Sys2Proof.Machine
end

section
/-! Proof that DECODE undoes ENCODE (R160, R182): the bits sent up to any ESYM are decoded to the text scanned but for
W, by one token for each EEMIT, and EFIN completes the text and stops the decoder. -/

namespace Sys2Proof.Machine

/-! The text behind a stream (R182). -/

/-- A run of token steps that raises nothing and leaves a text in OUT. -/
structure Decoded (text : List Sym) (d d' : State) : Prop where
  run : TokenRun d d'
  units : outUnits d' = text
  dcause : d'.out.dcause = d.out.dcause
  dinfo : d'.out.dinfo = d.out.dinfo

theorem Decoded.next {text p : List Sym} {d d' d'' : State} (h : Decoded text d d')
    (hnext : Delivers p d' d'') : Decoded (text ++ p) d d'' :=
  ⟨h.run.tail ⟨hnext.running, hnext.step⟩, by rw [hnext.units, h.units], hnext.dcause.trans h.dcause,
    hnext.dinfo.trans h.dinfo⟩

/-- Whatever follows them in a stream, these bits are decoded to this text and a state with this property. -/
def Decodes (bs : List Bool) (text : List Sym) (P : State → Prop) : Prop :=
  ∀ d rest, AtStart d → unreadBits d = bs ++ rest →
    ∃ d', Decoded text d d' ∧ unreadBits d' = rest ∧ P d'

namespace Decodes

variable {bs : List Bool} {text : List Sym} {P Q : State → Prop}

theorem nil : Decodes [] [] AtStart := fun d rest hd hu =>
  ⟨d, ⟨.refl, by rw [outUnits, hd.out]; rfl, rfl, rfl⟩, hu, hd⟩

theorem imp (h : Decodes bs text P) (himp : ∀ d, P d → Q d) : Decodes bs text Q := fun d rest hd hu =>
  have ⟨d', hdec, hrest, hp⟩ := h d rest hd hu
  ⟨d', hdec, hrest, himp d' hp⟩

/-- One more token. -/
theorem next (h : Decodes bs text P) {own : List Bool} {p : List Sym}
    (htoken : ∀ d rest, P d → unreadBits d = own ++ rest →
      ∃ d', Delivers p d d' ∧ unreadBits d' = rest ∧ Q d') : Decodes (bs ++ own) (text ++ p) Q := by
  intro d rest hd hu
  obtain ⟨d', hdec, hrest, hp⟩ := h d (own ++ rest) hd (hu.trans (List.append_assoc ..))
  obtain ⟨d'', hnext, hrest', hq⟩ := htoken d' rest hp hrest
  exact ⟨d'', hdec.next hnext, hrest', hq⟩

end Decodes

/-- The END token (R175). -/
theorem Follows.finish {e d : State} {rest : List Bool} (h : Follows e d)
    (hu : unreadBits d = tokenBits e.width.numBits 2 0 ++ rest) :
    ∃ d', Delivers [] d d' ∧ unreadBits d' = rest ∧ d'.phase = .idle := by
  have hctx := tokenCtx_of_laterToken h.phase
  have hcode : 2 < 2 ^ d.width.numBits :=
    (by decide : 2 < 2 ^ 3).trans_le (Nat.pow_le_pow_right (by decide) h.loop.numBits_ge)
  rw [← h.numBits] at hu
  obtain ⟨u, n, -, hrest, hstep⟩ := tokenStep_of_tokenBits h.cursor (by rw [hctx]; exact hcode)
    (Nat.two_pow_pos _) (by rw [hctx]; exact hu)
  rw [hctx, run_end] at hstep
  exact ⟨_, .of_appendOutAll (by rw [h.phase]; nofun) hstep rfl, hrest, rfl⟩

/-! ENCODE (R156, R182). -/

/-- The encoder between two ESYM steps: the bits sent are decoded to the text scanned but for W, and the decoder
waits for W. -/
structure Transmitted (e : State) : Prop where
  inv : EncInv e
  w_ne : e.enc.w ≠ []
  stream : ∃ bs text, Sent bs e ∧ Decodes bs text (Behind e) ∧
    text ++ e.enc.w = memUnits e.port.inp e.enc.scan

/-- EEMIT sends the bits that the decoder takes W from. -/
theorem emitPhrase_transmits {e : State} {bs : List Bool} {text : List Sym} {id : Nat} {x : Entry}
    (hsent : Sent bs e) (hdec : Decodes bs text (Behind e)) (hemit : Emits e id x) :
    ∃ bs', Sent bs' (emitPhrase e) ∧ Decodes bs' (text ++ e.enc.w) (CaughtUp (emitPhrase e)) :=
  ⟨_, hsent.emitPhrase hemit, hdec.next fun _ _ hbehind hu => hbehind.emit hemit hu⟩

theorem transmitted_first {s : State} (h : s.buf.len = 0) : Transmitted (scanSym (encoderInit s)) := by
  have hinv := encoderInit_encInv s
  obtain ⟨hinv', hw⟩ := hinv.scanSym
  refine ⟨hinv', hw, [], [], ?_, Decodes.nil.imp fun d hd => ?_, ?_⟩ <;> rw [hinv.scanSym_first rfl]
  · refine Sent.of_same (s := encoderInit s) ⟨Nat.one_pos, ?_, ?_⟩ (registerSym_buf ..)
      (registerSym_packer ..)
    · rw [bufferBits, encoderInit_buf, h]
      rfl
    · rw [bufWords, encoderInit_buf, h]
      nofun
  · exact .start (nextSym (encoderInit s)) hd rfl rfl rfl rfl
  · rfl

theorem Transmitted.scanSym {e : State} (h : Transmitted e) : Transmitted (scanSym e) := by
  obtain ⟨hinv, hw, bs, text, hsent, hdec, htext⟩ := h
  obtain ⟨hinv', hw'⟩ := hinv.scanSym
  refine ⟨hinv', hw', ?_⟩
  have hscanned : text ++ e.enc.w ++ [nextSym e] = memUnits e.port.inp (e.enc.scan + 1) := by
    rw [htext, memUnits_succ]
    rfl
  obtain ⟨hnil, -⟩ | ⟨-, ⟨j, hj⟩, hscan⟩ | ⟨-, hnew, hscan⟩ := hinv.scanSym_cases
  · exact absurd hnil hw
  · rw [hscan] at hinv' ⊢
    exact ⟨bs, text, hsent.of_same rfl rfl, hdec.imp fun d hd => hd.extend hinv hw hj rfl hinv',
      (List.append_assoc ..).symm.trans hscanned⟩
  · obtain ⟨id, x, hx, hxw⟩ := hinv.w_found hw
    have hreg : (registered e).enc.w = e.enc.w := by rw [registered_enc]
    have hemit := hinv.registered.emits (hinv.get_registered hx) (hxw.trans hreg.symm)
    obtain ⟨bs', hsent', hdec'⟩ := emitPhrase_transmits (e := registered e)
      (hsent.of_same (registerSym_buf ..) (registerSym_packer ..))
      (hdec.imp fun d hd => hd.registered hinv) hemit
    rw [hscan] at hinv' ⊢
    rw [← hreg] at hinv' ⊢
    refine ⟨bs', text ++ (registered e).enc.w, hsent'.of_same rfl rfl,
      hdec'.imp fun d hd => hd.behind hemit rfl hinv', ?_⟩
    rw [hreg]
    exact hscanned.trans (by simp [(emitPhrase_same _).port])

theorem Transmitted.iterate {e : State} (h : Transmitted e) (n : Nat) : Transmitted (Machine.scanSym^[n] e) := by
  induction n generalizing e with
  | zero => exact h
  | succ n ih => exact ih h.scanSym

/-- EFIN completes the stream: it is decoded to the whole text, and END stops the decoder (R155). -/
theorem Transmitted.finish {e : State} (h : Transmitted e) :
    ∃ bs, Decodes bs (memUnits e.port.inp e.enc.scan) (fun d => d.phase = .idle) ∧
      (∃ zeros, bufferBits (encoderFinish e).buf = bs ++ zeros) ∧
      ∀ w ∈ bufWords (encoderFinish e), WireRange w := by
  obtain ⟨hinv, hw, bs, text, hsent, hdec, htext⟩ := h
  obtain ⟨id, x, hx, hxw⟩ := hinv.w_found hw
  obtain ⟨bs', hsent', hdec'⟩ := emitPhrase_transmits hsent hdec (hinv.emits hx hxw)
  have hfin : encoderFinish e =
      flushWord (pushField 2 (emitPhrase e).width.numBits (emitPhrase e)) := by
    simp only [encoderFinish, if_neg hw]
  have hend := hdec'.next fun d rest hd hu => hd.follows.finish hu
  rw [tokenBits_of_code _ (Nat.le_refl 2), List.append_nil, htext] at hend
  obtain ⟨zeros, hbits, hrange⟩ := (hsent'.pushField 2 (emitPhrase e).width.numBits).flushWord
  rw [hfin]
  exact ⟨_, hend, ⟨zeros, hbits⟩, hrange⟩

/-- Settles O36: by lockstep the decoder takes in the tokens the encoder sent, and END stops it. -/
theorem decodeUndoesEncode : Obligations.DecodeUndoesEncode := by
  intro s hlen hbuf
  obtain ⟨n, hn⟩ := Nat.exists_eq_add_of_le' hlen
  have hall : Transmitted (scanSym^[s.port.inLen] (encoderInit s)) := by
    rw [hn, Function.iterate_succ_apply]
    exact (transmitted_first hbuf).iterate n
  obtain ⟨hport, hscan⟩ := iterate_scanSym s.port.inLen (encoderInit s)
  obtain ⟨bs, hdec, ⟨zeros, hbits⟩, hrange⟩ := hall.finish
  rw [← encodeText_eq] at hbits hrange
  obtain ⟨u, ⟨hrun, hunits, hcause, hinfo⟩, -, hidle⟩ :=
    hdec (decoderInit (encodeText s)) zeros ⟨rfl, ⟨.inl rfl, fun _ => rfl⟩, rfl, rfl⟩ hbits
  refine ⟨encodeText s, u, rfl, hrange, congrArg _ (decodeStream_eq_of_run hrun hidle), ?_, hidle, ?_, ?_⟩
  · rw [hunits, hport, hscan]
    simp [inUnits]
  · rw [hcause, decoderInit_out, (encodeText_same s).out]
  · rw [hinfo, decoderInit_out, (encodeText_same s).out]

end Sys2Proof.Machine
end

section
/-! Proofs of the decoder's rules (R170 to R183): what each token and DAPPLY write, that DPRO and DSTEP run the token
the unread bits decode to, and where DECODE can end. -/

namespace Sys2Proof.Machine

/-! The tokens and DAPPLY (R171 to R179). -/

/-- Trap entry writes the outputs and the phase alone (R256). -/
theorem enterTrap_eq_trapped (c : Cause) (n : Nat) (s : State) :
    enterTrap c n s = trapped (Cause.number c) n s := rfl

theorem exec_raise (c : Cause) (n : Nat) (s : State) :
    exec (.raise c n) s = .next (trapped (Cause.number c) n s) :=
  congrArg Host.Outcome.next (enterTrap_eq_trapped c n s)

theorem exec_illegal (code : Nat) (s : State) : exec (.illegal code) s = .next (trapped 1 code s) :=
  congrArg Host.Outcome.next (enterTrap_eq_trapped .unknownCode code s)

theorem exec_illegalP (s : State) : exec .illegalP s = .next (trapped 3 3 s) :=
  congrArg Host.Outcome.next (enterTrap_eq_trapped .badFirstCode 3 s)

/-- LIT8 and LIT16 as one write of the state, the tick having its precondition (R151, R173, R174). -/
theorem literal_eq (c : Sym) {s : State} (h : 1 ≤ s.width.enlargeIn) : literal c s = { s with
    dict := tableSet s.dict s.width.nextId { phrase := [c], pending := false }
    width := widthAfterEntry s.width
    dec := { s.dec with code := s.width.nextId, entry := [c] } } := by
  rw [← growth_nextEntry s.width h]
  rfl

/-- DAPPLY as one write of the state, the tick having its precondition (R151, R177). -/
theorem applyEntry_eq {s : State} (h : 1 ≤ s.width.enlargeIn) : applyEntry s = { s with
    out := appendOutAll s.out s.dec.entry
    dict := dictWrite s.dict s.width.nextId (s.dec.prev ++ [firstSym s.dec.entry]) false
    width := widthAfterEntry s.width
    dec := { s.dec with prev := s.dec.entry } } := by
  rw [← growth_nextEntry s.width h]
  rfl

/-! DPRO and DSTEP run the fetched token (R171, R172). -/

/-- What comes of a fetch: the token is run, or the raise has ended the command. -/
def afterFetch (run : Instr → State → Host.Outcome State Fault Refusal) :
    Res Instr → Host.Outcome State Fault Refusal
  | .ok i t => run i t
  | .raised t => .next t

/-- A token of the main loop and the DAPPLY that R172 adds to it. -/
def tokenOps (i : Instr) : List Instr := i :: if resolvesPhrase i then [.dapply] else []

theorem fetchToken_of_raised (ctx : TokenCtx) {s t : State} (h : readField (codeWidth ctx) s = .raised t) :
    fetchToken ctx s = .raised t := by
  simp only [fetchToken, h]

/-- A code other than a literal's is the whole token. -/
theorem fetchToken_of_code (ctx : TokenCtx) {s t : State} {code : Nat}
    (h : readField (codeWidth ctx) s = .ok code t) (h2 : 2 ≤ code) :
    fetchToken ctx s = .ok (assemble ctx code 0) (setCode code t) := by
  simp only [fetchToken, h, symWidth_of_ge_two h2, readField]

/-- DPRO in any phase: it fetches at the first place and runs what it fetched (R171). -/
theorem exec_dpro (s : State) : exec .dpro s = afterFetch exec (fetchToken .first s) := by
  change Host.Outcome.next (prologue s) = _
  unfold prologue
  cases hcode : readField Config.proBits s with
  | raised t => rw [fetchToken_of_raised .first hcode]; rfl
  | ok code t =>
    obtain rfl | rfl | rfl | ⟨h0, h1, h2, h3⟩ := code_cases code
    · simp only [fetchToken, codeWidth, hcode, symWidth_lit8, if_true]
      cases hsym : readField 8 (setCode 0 t) with
      | raised t => rfl
      | ok v t => exact (exec_lit8P_ofNat (readField_lt 8 _ hsym) t).symm
    · simp only [fetchToken, codeWidth, hcode, symWidth_lit16, one_ne_zero, if_false, if_true]
      cases readField 16 (setCode 1 t) <;> rfl
    · rw [fetchToken_of_code .first hcode (Nat.le_refl 2)]
      rfl
    · rw [fetchToken_of_code .first hcode (Nat.le_of_succ_le h3), assemble_first_illegal 0 h3]
      simp only [h0, h1, h2, if_false]
      rfl

/-- DSTEP in any phase: it fetches at a later place and runs what it fetched, with DAPPLY after a phrase (R172). -/
theorem exec_dstep (s : State) : exec .dstep s =
    afterFetch (fun i => runOps (tokenOps i)) (fetchToken (.later s.width.numBits s.width.nextId) s) := by
  change Host.Outcome.next (decodeStep s) = _
  unfold decodeStep
  obtain ⟨code, u, hcode⟩ | ⟨u, hcode⟩ := readField_frame s.width.numBits s
  · simp only [hcode]
    obtain rfl | rfl | rfl | ⟨h0, h1, h2, h3⟩ := code_cases code
    · simp only [fetchToken, codeWidth, hcode, symWidth_lit8, if_true]
      cases hsym : readField 8 (setCode 0 { s with unpacker := u }) with
      | raised t => rfl
      | ok v t => exact (runOps_cons (exec_lit8_ofNat (readField_lt 8 _ hsym) t) [.dapply]).symm
    · simp only [fetchToken, codeWidth, hcode, symWidth_lit16, one_ne_zero, if_false, if_true]
      cases readField 16 (setCode 1 { s with unpacker := u }) <;> rfl
    · rw [fetchToken_of_code (.later ..) hcode (Nat.le_refl 2)]
      rfl
    · rw [fetchToken_of_code (.later ..) hcode (Nat.le_of_succ_le h3)]
      simp only [h0, h1, h2, if_false]
      obtain hlt | rfl | hgt := Nat.lt_trichotomy code s.width.nextId
      · rw [assemble_later_ref _ _ _ h3 hlt]
        exact congrArg Host.Outcome.next (if_pos hlt)
      · rw [assemble_later_sref _ _ h3]
        exact congrArg Host.Outcome.next ((if_neg (Nat.lt_irrefl _)).trans (if_pos rfl))
      · rw [assemble_later_illegal _ _ _ h3 hgt]
        exact congrArg Host.Outcome.next ((if_neg (Nat.lt_asymm hgt)).trans (if_neg (Nat.ne_of_gt hgt)))
  · rw [fetchToken_of_raised (.later ..) hcode, hcode]
    rfl

/-- An operation runs the token that the unread bits decode to at this place, the cursor moved past its bits, or
raises InputExhausted where they end inside it. -/
def RunsDecodedToken (ctx : TokenCtx) (run : Instr → State → Host.Outcome State Fault Refusal) (op : Instr)
    (s : State) : Prop :=
  match decodeToken ctx (unreadBits s) with
  | .ok (i, rest) => ∃ u code t, tokenCode i = some code ∧ CursorWf u ∧
      unreadBits { s with unpacker := u } = rest ∧
      run i { s with unpacker := u, dec := { s.dec with code := code } } = .next t ∧ exec op s = .next t
  | .error _ => ∃ u d, d.prev = s.dec.prev ∧ d.entry = s.dec.entry ∧ s.buf.len ≤ u.uidx ∧
      exec op s = .next (trapped 2 u.uidx { s with unpacker := u, dec := d })

/-- An operation that fetches a token and runs it runs the decoded one, since the fetch agrees with the decoder. -/
theorem runsDecodedToken {ctx : TokenCtx} {run : Instr → State → Host.Outcome State Fault Refusal} {op : Instr}
    {s : State} (hcur : CursorWf s.unpacker) (hop : exec op s = afterFetch run (fetchToken ctx s))
    (hnext : ∀ i t, ∃ t', run i t = .next t') : RunsDecodedToken ctx run op s := by
  unfold RunsDecodedToken
  rw [hop]
  obtain ⟨i, rest, u, code, hdec, hcode, hfetch, hu, hrest, -, -⟩ |
    ⟨e, u, d, hdec, -, -, hend, -, hprev, hentry, hfetch⟩ := fetchToken_spec ctx s hcur
  · obtain ⟨t, ht⟩ := hnext i { s with unpacker := u, dec := { s.dec with code := code } }
    rw [hdec, hfetch]
    exact ⟨u, code, t, hcode, hu, hrest, ht, ht⟩
  · rw [hdec, hfetch]
    exact ⟨u, d, hprev, hentry, hend, rfl⟩

/-! Where DECODE can end (R183, R250 to R253). -/

/-- A raise that DECODE can make over BUF: an unknown code, the end of BUF, or a first code of 3. -/
structure RaisedOver (b : Buffer) (t : State) : Prop where
  idle : t.phase = .idle
  null : t.out.null = false
  len : t.out.len = 0
  cause : t.out.dcause = 1 ∨ t.out.dcause = 2 ∧ t.out.dinfo = b.len ∨ t.out.dcause = 3 ∧ t.out.dinfo = 3

/-- OUT_NULL and the diagnosis are the ones before, or a raise has set them. -/
def SameDiagnosisOrRaised (s t : State) : Prop :=
  (t.out.null = s.out.null ∧ t.out.dcause = s.out.dcause ∧ t.out.dinfo = s.out.dinfo) ∨ RaisedOver s.buf t

/-- InputExhausted names the cursor, which has come to the end of BUF. -/
theorem raisedOver_of_ranOut {s t : State} {u : Unpacker} (h : CursorIn s) (hu : RanOut s u) :
    RaisedOver s.buf (enterTrap .inputExhausted u.uidx t) :=
  ⟨rfl, rfl, rfl, .inr (.inl ⟨rfl, hu.2 h.1 h.2⟩)⟩

theorem prologue_sameDiagnosisOrRaised {s : State} (h : CursorIn s) : SameDiagnosisOrRaised s (prologue s) := by
  apply prologue_cases (P := SameDiagnosisOrRaised s) s
  case lit | fin => intros; exact .inl ⟨rfl, rfl, rfl⟩
  case bad => intros; exact .inr ⟨rfl, rfl, rfl, .inr (.inr ⟨rfl, rfl⟩)⟩
  case out => exact fun u code hu => .inr (raisedOver_of_ranOut h hu)

theorem decodeStep_sameDiagnosisOrRaised {s : State} (h : CursorIn s) :
    SameDiagnosisOrRaised s (decodeStep s) := by
  have resolved (t : State) (ht : t.out = s.out) : SameDiagnosisOrRaised s (applyEntry t) := by
    left
    simp only [applyEntry_out, appendOutAll_null, appendOutAll_dcause, appendOutAll_dinfo, ht, and_self]
  apply decodeStep_cases (P := SameDiagnosisOrRaised s) s
  case lit | ref | sref => intros; exact resolved _ rfl
  case fin => intros; exact .inl ⟨rfl, rfl, rfl⟩
  case bad => intros; exact .inr ⟨rfl, rfl, rfl, .inl rfl⟩
  case out => exact fun u code hu => .inr (raisedOver_of_ranOut h hu)

/-- What the main loop keeps: a raise ends it, so the diagnosis is the one before as long as it goes on. -/
structure Decoding (s t : State) : Prop where
  place : EndedOrLooping t
  buf : t.buf = s.buf
  diagnosis : SameDiagnosisOrRaised s t

theorem Decoding.decodeStep {s t : State} (h : Decoding s t) (hp : t.phase = .laterToken) :
    Decoding s (decodeStep t) := by
  obtain ⟨hplace, hbuf, hdiag⟩ := h
  refine ⟨(decodeStep_endedOrLooping hp hplace).1, (decodeStep_same t).buf.trans hbuf, ?_⟩
  obtain ⟨hnull, hcause, hinfo⟩ | hraised := hdiag
  · obtain hidle | ⟨-, hin, -⟩ := hplace
    · exact absurd hp (ne_laterToken_of_idle hidle)
    · have hstep := decodeStep_sameDiagnosisOrRaised hin
      rwa [SameDiagnosisOrRaised, hnull, hcause, hinfo, hbuf] at hstep
  · exact absurd hp (ne_laterToken_of_idle hraised.idle)

theorem decodeStream_sameDiagnosisOrRaised (s : State) : SameDiagnosisOrRaised s (decodeStream s) := by
  have hcur : CursorIn (decoderInit s) := ⟨⟨.inl rfl, fun _ => rfl⟩, Nat.zero_le _⟩
  have hstart : Decoding s (prologue (decoderInit s)) :=
    ⟨(prologue_endedOrLooping rfl hcur).1, (prologue_same _).buf, prologue_sameDiagnosisOrRaised hcur⟩
  exact (whileUpTo_inv (P := Decoding s) (fun t ht h => h.decodeStep (of_decide_eq_true ht)) _ _
    hstart).diagnosis

/-! The obligations. -/

/-- Settles O29, by the fetch at the first place of a stream. -/
theorem dproRunsTheFirstToken : Obligations.DproRunsTheFirstToken := fun s hcur =>
  runsDecodedToken hcur (exec_dpro s) exec_next

/-- Settles O30, by the fetch at a later place. -/
theorem dstepRunsALaterToken : Obligations.DstepRunsALaterToken := fun s hcur =>
  runsDecodedToken hcur (exec_dstep s) fun i => runOps_next (tokenOps i)

/-- Settles O33, by what appending ENTRY does to OUT. -/
theorem dapplyAppendsAndRegisters : Obligations.DapplyAppendsAndRegisters := by
  intro s c p hentry hpos
  obtain ⟨m, hout, hunits, habove, -⟩ := appendOutAll_spec s.out (c :: p)
  refine ⟨m, congrArg Host.Outcome.next ?_, hunits, habove⟩
  rw [applyEntry_eq hpos, hentry, hout]
  rfl

/-- Settles O35: the loop ends, and the one raise that ends it is InputExhausted at the end of BUF or one of the two
bad codes. -/
theorem decodeStopsOrRaises : Obligations.DecodeStopsOrRaises := fun s =>
  ⟨decodeStream s, rfl, decodeStream_phase s,
    (decodeStream_sameDiagnosisOrRaised s).imp_right fun h => ⟨h.null, h.len, h.cause⟩⟩

/-- Settles O28: each of the four tokens is one write of the state, both literals the same one. -/
theorem firstTokensStartOrEndTheText : Obligations.FirstTokensStartOrEndTheText := by
  refine fun s => ⟨?_, rfl, exec_illegalP s⟩
  rintro i c (rfl | ⟨sym, rfl, rfl⟩)
  · rfl
  · rfl

/-- Settles O31: both literals are one write of the state, of the symbol zero-extended. -/
theorem literalsInstallAnEntry : Obligations.LiteralsInstallAnEntry := fun _ hpos =>
  ⟨fun sym => congrArg Host.Outcome.next (literal_eq (sym.setWidth 16) hpos),
    fun sym => congrArg Host.Outcome.next (literal_eq sym hpos)⟩

/-- Settles O32: the phrase is in DICT, and PREV has a first symbol. -/
theorem referencesResolveAPhrase : Obligations.ReferencesResolveAPhrase := by
  refine fun s id => ⟨fun p hp => congrArg Host.Outcome.next ?_, fun c p hprev => congrArg Host.Outcome.next ?_⟩
  · rw [reference, dictRead_of_phrase hp]
  · rw [selfReference, hprev]
    rfl

/-- Settles O34: END writes the phase alone, and every raise is the one trap entry. -/
theorem endsAndRaisesEndTheCommand : Obligations.EndsAndRaisesEndTheCommand := fun s =>
  ⟨rfl, fun code => exec_illegal code s, fun n => exec_raise .unknownCode n s,
    fun n => exec_raise .inputExhausted n s, fun n => exec_raise .badFirstCode n s⟩

end Sys2Proof.Machine
end

section
/-! Proofs about the cipher (R200 to R212, R216): what XW does to one word, the closed form of a pass, and the masks
of a list of keys. A run of XW is read as one XOR of a mask per index, the mask 0 where no word is written, so that
runs one after the other XOR their masks. -/

namespace Sys2Proof.Machine

/-! KINC, LANE and XW (R201, R204, R205). -/

theorem increment_toNat (key : Key) :
    (increment key).toNat = (0x9E3779BA * key.toNat + 0x632BE5AB) % 2 ^ 64 := by
  rw [increment, BitVec.toNat_add, BitVec.toNat_mul, Nat.add_mod_mod, Nat.add_comm]
  rfl

theorem laneOf_toNat (r : Key) (j : Fin 4) :
    (laneOf r j).toNat = r.toNat / 2 ^ (if j = 3 then 49 else 15 * j.val) % 2 ^ 15 := by
  unfold laneOf
  split <;> rw [BitVec.extractLsb'_toNat, Nat.shiftRight_eq_div_pow]

/-- A lane has 15 bits, so bit 15 of the payload stays (R205). -/
theorem xorLane_bit15 (w : Word) (l : Payload) : (xorLane w l - 32).getLsbD 15 = (w - 32).getLsbD 15 := by
  change (unstored (xorLane w l)).getLsbD 15 = (unstored w).getLsbD 15
  rw [unstored_xorLane, BitVec.getLsbD_xor, BitVec.getLsbD_setWidth, BitVec.getLsbD_of_ge l 15 (Nat.le_refl _),
    Bool.and_false, Bool.xor_false]

theorem memRead_xorWord_same (i : Nat) (l : Payload) (b : Buffer) :
    memRead (xorWord i l b).mem i = xorLane (memRead b.mem i) l := memRead_memWrite_same ..

theorem memRead_xorWord_ne {i j : Nat} (l : Payload) (b : Buffer) (h : j ≠ i) :
    memRead (xorWord i l b).mem j = memRead b.mem j := memRead_memWrite_ne _ _ h

theorem memRead_xorWord_twice (i : Nat) (l : Payload) (b : Buffer) (j : Nat) :
    memRead (xorWord i l (xorWord i l b)).mem j = memRead b.mem j := by
  obtain rfl | h := eq_or_ne j i
  · rw [memRead_xorWord_same, memRead_xorWord_same, xorLane_twice]
  · rw [memRead_xorWord_ne _ _ h, memRead_xorWord_ne _ _ h]

/-! Masks over BUF. -/

/-- Every word of BUF has taken the mask of its index. -/
def Xored (m : Nat → Payload) (b b' : Buffer) : Prop :=
  ∀ j, memRead b'.mem j = xorLane (memRead b.mem j) (m j)

/-- A mask on the indices from `lo` to below `hi` alone. -/
def onRange (lo hi : Nat) (m : Nat → Payload) (j : Nat) : Payload :=
  if lo ≤ j ∧ j < hi then m j else 0

section Masks

variable {m m' : Nat → Payload} {b b' b'' : Buffer}

theorem xored_zero (b : Buffer) : Xored (fun _ => 0) b b := fun _ => (xorLane_zero _).symm

theorem Xored.trans (h : Xored m b b') (h' : Xored m' b' b'') : Xored (fun j => m j ^^^ m' j) b b'' := fun j => by
  rw [h' j, h j, xorLane_xorLane]

/-- The same mask twice gives every word back. -/
theorem Xored.twice (h : Xored m b b') (h' : Xored m b' b'') (j : Nat) : memRead b''.mem j = memRead b.mem j := by
  rw [h' j, h j, xorLane_twice]

theorem Xored.on_range {lo hi j : Nat} (h : Xored (onRange lo hi m) b b') (hlo : lo ≤ j) (hhi : j < hi) :
    memRead b'.mem j = masked (memRead b.mem j) (m j) := by
  rw [h j, onRange, if_pos ⟨hlo, hhi⟩, masked_eq_xorLane]

theorem Xored.above_range {lo hi j : Nat} (h : Xored (onRange lo hi m) b b') (hhi : hi ≤ j) :
    memRead b'.mem j = memRead b.mem j := by
  rw [h j, onRange, if_neg (by omega), xorLane_zero]

/-- A mask on all of BUF, written out. -/
theorem Xored.closedForm {s t : State} (h : Xored (onRange 0 s.buf.len m) s.buf t.buf)
    (honly : CipherOnly s t) : t = { s with buf := t.buf, cipher := t.cipher } ∧ t.buf.len = s.buf.len ∧
      (∀ j, j < s.buf.len → memRead t.buf.mem j = masked (memRead s.buf.mem j) (m j)) ∧
      ∀ j, s.buf.len ≤ j → memRead t.buf.mem j = memRead s.buf.mem j :=
  ⟨honly.1, honly.2.1, fun _ => h.on_range (Nat.zero_le _), fun _ => h.above_range⟩

theorem onRange_empty (n : Nat) (m : Nat → Payload) : onRange n n m = fun _ => 0 :=
  funext fun _ => if_neg (by omega)

theorem onRange_zero (lo hi : Nat) : onRange lo hi (fun _ => 0) = fun _ => 0 := funext fun _ => ite_self _

theorem onRange_xor (lo hi : Nat) (m m' : Nat → Payload) :
    (fun j => onRange lo hi m j ^^^ onRange lo hi m' j) = onRange lo hi fun j => m j ^^^ m' j := by
  funext j
  unfold onRange
  split
  · rfl
  · exact BitVec.xor_self

/-- Masks on adjacent ranges join. -/
theorem onRange_append {lo mid hi : Nat} (hlo : lo ≤ mid) (hhi : mid ≤ hi) (m : Nat → Payload) :
    (fun j => onRange lo mid m j ^^^ onRange mid hi m j) = onRange lo hi m := by
  funext j
  unfold onRange
  obtain h | h := Nat.lt_or_ge j mid
  · rw [if_neg (by omega : ¬(mid ≤ j ∧ j < hi))]
    exact BitVec.xor_zero.trans (if_congr (by omega) rfl rfl)
  · rw [if_neg (by omega : ¬(lo ≤ j ∧ j < mid))]
    exact BitVec.zero_xor.trans (if_congr (by omega) rfl rfl)

/-- A run of XW over `c` words from `base` on, in any order, whose lanes are those of a mask. -/
theorem xored_xorWords {base c : Nat} {r : Key} {f : Nat → Fin 4} {ts : List Nat} (b : Buffer)
    (hts : ts.Perm (List.range c)) (hlane : ∀ i, i < c → laneOf r (f i) = m (base + i)) :
    Xored (onRange base (base + c) m) b (xorWords base r f ts b) := by
  intro j
  have hrange : (base ≤ j ∧ j - base ∈ ts) ↔ base ≤ j ∧ j < base + c := by
    rw [hts.mem_iff, List.mem_range]
    omega
  rw [memRead_xorWords base r f ts b (hts.nodup_iff.2 List.nodup_range), onRange]
  simp only [hrange]
  split
  · next h => rw [hlane _ (by omega), Nat.add_sub_cancel' h.1]
  · exact (xorLane_zero _).symm

end Masks

/-! The mask of a pass (R211) is what its keystream steps XOR in. -/

/-- The lanes of full group `g`, at step `g + 1` of the accumulator. -/
theorem lane_of_group (key : Key) {len g i : Nat} (hg : g < len / 4) (hi : i < 4) :
    laneOf (Config.mix (key + BitVec.ofNat 64 (g + 1) * increment key)) (groupLane i) =
      passMask key len (4 * g + i) := by
  unfold passMask
  rw [if_pos (by omega), show (4 * g + i) / 4 = g by omega, show (4 * g + i) % 4 = i by omega]
  rfl

/-- The lanes of the trailing words, at the last step of the accumulator. -/
theorem lane_of_trailing (key : Key) (len t : Nat) :
    laneOf (Config.mix (key + BitVec.ofNat 64 (len / 4 + 1) * increment key)) (trailingLane t) =
      passMask key len (4 * (len / 4) + t) := by
  unfold passMask
  rw [if_neg (by omega), Nat.add_sub_cancel_left]
  rfl

/-! The course of a pass (R207, R208). -/

/-- In the pass of a key over `s` the accumulator has come to step `n`, and the words from `lo` to below `hi` have
taken their masks. -/
structure InPass (key : Key) (s : State) (n lo hi : Nat) (t : State) : Prop where
  len : t.buf.len = s.buf.len
  inc : t.cipher.inc = increment key
  z : t.cipher.z = key + BitVec.ofNat 64 n * increment key
  words : Xored (onRange lo hi (passMask key s.buf.len)) s.buf t.buf

section Pass

variable {key : Key} {s t : State} {n lo hi c : Nat} {f : Nat → Fin 4} {ts : List Nat}

/-- A pass before its first word. -/
theorem InPass.start (hbuf : t.buf = s.buf) (hinc : t.cipher.inc = increment key)
    (hz : t.cipher.z = key + BitVec.ofNat 64 n * increment key) : InPass key s n lo lo t :=
  ⟨congrArg Buffer.len hbuf, hinc, hz, by rw [onRange_empty, hbuf]; exact xored_zero _⟩

/-- A part of a pass: a keystream step, and the words whose lanes are their masks. -/
theorem InPass.step {n' lo' hi' base : Nat} {dir : Dir} (h : InPass key s n lo hi t)
    (hz : (keyStep dir t.cipher).z = key + BitVec.ofNat 64 n' * increment key) (next : Nat)
    (hts : ts.Perm (List.range c))
    (hlane : ∀ i, i < c → laneOf (Config.mix (key + BitVec.ofNat 64 n' * increment key)) (f i) =
      passMask key s.buf.len (base + i))
    (hjoin : (fun j => onRange lo hi (passMask key s.buf.len) j ^^^
      onRange base (base + c) (passMask key s.buf.len) j) = onRange lo' hi' (passMask key s.buf.len)) :
    InPass key s n' lo' hi' (cipherStep dir base next f ts t) := by
  refine ⟨(xorWords_len ..).trans h.len, h.inc, hz, ?_⟩
  rw [← hjoin]
  refine h.words.trans (xored_xorWords t.buf hts fun i hi => ?_)
  rw [keyStep_rmix, hz, hlane i hi]

/-- A part of EPASS steps forward and takes the next words. -/
theorem InPass.forward (h : InPass key s n lo hi t) (hlo : lo ≤ hi) (next : Nat) (hts : ts.Perm (List.range c))
    (hlane : ∀ i, i < c → laneOf (Config.mix (key + BitVec.ofNat 64 (n + 1) * increment key)) (f i) =
      passMask key s.buf.len (hi + i)) :
    InPass key s (n + 1) lo (hi + c) (cipherStep .forward hi next f ts t) := by
  refine h.step ?_ next hts hlane (onRange_append hlo (Nat.le_add_right hi c) _)
  rw [keyStep_forward_z, h.z, h.inc, BitVec.ofNat_add, BitVec.add_mul, BitVec.one_mul, BitVec.add_assoc]

/-- A part of DPASS steps backward and takes the words below. -/
theorem InPass.backward (h : InPass key s (n + 1) (lo + c) hi t) (hhi : lo + c ≤ hi) (next : Nat)
    (hts : ts.Perm (List.range c))
    (hlane : ∀ i, i < c → laneOf (Config.mix (key + BitVec.ofNat 64 n * increment key)) (f i) =
      passMask key s.buf.len (lo + i)) :
    InPass key s n lo hi (cipherStep .backward lo next f ts t) := by
  refine h.step ?_ next hts hlane ?_
  · rw [keyStep_backward_z, h.z, h.inc, BitVec.ofNat_add, BitVec.add_mul, BitVec.one_mul, ← BitVec.add_assoc]
    exact BitVec.add_sub_cancel _ _
  · simp only [BitVec.xor_comm (onRange (lo + c) hi _ _)]
    exact onRange_append (Nat.le_add_right lo c) hhi _

end Pass

/-- A loop that runs as long as a count is left, and as often as the rounds allow, has counted down to 0. -/
theorem whileUpTo_countdown {cond : State → Bool} {body : State → State} {P : Nat → State → Prop}
    (hstep : ∀ k s, P (k + 1) s → cond s = true ∧ P k (body s)) (hstop : ∀ s, P 0 s → cond s = false)
    {k n : Nat} {s : State} (h : P k s) (hn : k ≤ n) : P 0 (whileUpTo cond body n s) := by
  induction k generalizing n s with
  | zero => rwa [whileUpTo_of_not (hstop s h)]
  | succ k ih =>
    obtain ⟨n, rfl⟩ := Nat.exists_eq_add_of_le' hn
    obtain ⟨hcond, hbody⟩ := hstep k s h
    rw [← Nat.add_assoc, whileUpTo, if_pos hcond]
    exact ih hbody (by omega)

/-! EPASS (R207). -/

/-- In EPASS `k` full groups are left. -/
def EncryptLeft (key : Key) (s : State) (k : Nat) (t : State) : Prop :=
  ∃ g, g + k = s.buf.len / 4 ∧ t.cipher.ci = 4 * g ∧ InPass key s g 0 (4 * g) t

theorem EncryptLeft.round {key : Key} {s t : State} {k : Nat} (h : EncryptLeft key s (k + 1) t) :
    t.cipher.ci + 4 ≤ t.buf.len ∧ EncryptLeft key s k (encryptGroup t) := by
  obtain ⟨g, hg, hci, hpass⟩ := h
  refine ⟨by rw [hci, hpass.len]; omega, g + 1, by omega, ?_, ?_⟩
  · rw [encryptGroup_cipher, hci]
    rfl
  · rw [encryptGroup_eq, hci]
    exact hpass.forward (Nat.zero_le _) _ (.refl _) fun i hi => lane_of_group key (by omega) hi

theorem encryptGroups_left (key : Key) (s : State) :
    EncryptLeft key s 0 (encryptGroups s.buf.len (encryptStart key s)) := by
  refine whileUpTo_countdown (P := EncryptLeft key s) (k := s.buf.len / 4) ?_ ?_ ?_ (Nat.div_le_self _ _)
  · exact fun k t h => ⟨decide_eq_true h.round.1, h.round.2⟩
  · rintro t ⟨g, hg, hci, hpass⟩
    rw [decide_eq_false_iff_not, show Config.group = 4 from rfl, hci, hpass.len]
    omega
  · refine ⟨0, Nat.zero_add _, rfl, .start rfl rfl ?_⟩
    rw [BitVec.zero_mul]
    exact (BitVec.add_zero _).symm

/-- Where EPASS ends: `ceil(L/4)` steps on, with every word masked. -/
theorem encryptPass_spec (key : Key) (s : State) :
    InPass key s (stepCount s.buf.len) 0 s.buf.len (encryptPass key s) ∧
      (encryptPass key s).cipher.ci = s.buf.len := by
  rw [encryptPass_eq]
  obtain ⟨g, hg, hci, hpass⟩ := encryptGroups_left key s
  unfold encryptTail stepCount
  rw [hpass.len, hci]
  split
  · refine ⟨?_, rfl⟩
    have htail := hpass.forward (Nat.zero_le _) s.buf.len (.refl (List.range (s.buf.len - 4 * g)))
      (f := trailingLane) fun i _ => by
        rw [show g = s.buf.len / 4 by omega]
        exact lane_of_trailing key s.buf.len i
    rwa [show g + 1 = (s.buf.len + 3) / 4 by omega, show 4 * g + (s.buf.len - 4 * g) = s.buf.len by omega] at htail
  · have hlen : 4 * g = s.buf.len := by omega
    rw [hlen] at hpass hci
    rw [show (s.buf.len + 3) / 4 = g by omega]
    exact ⟨hpass, hci⟩

/-! DPASS (R208). -/

/-- In DPASS `k` full groups are left. -/
structure DecryptLeft (key : Key) (s : State) (k : Nat) (t : State) : Prop where
  le : k ≤ s.buf.len / 4
  ci : t.cipher.ci = 4 * k
  pass : InPass key s (k + 1) (4 * k) s.buf.len t

theorem DecryptLeft.round {key : Key} {s t : State} {k : Nat} (h : DecryptLeft key s (k + 1) t) :
    0 < t.cipher.ci ∧ DecryptLeft key s k (decryptGroup t) := by
  obtain ⟨hle, hci, hpass⟩ := h
  have hbase : t.cipher.ci - 4 = 4 * k := by omega
  refine ⟨by omega, by omega, hbase, ?_⟩
  rw [decryptGroup_eq, hbase]
  exact hpass.backward (lo := 4 * k) (c := 4) (by omega) _ (by decide) fun i hi => lane_of_group key (by omega) hi

theorem decryptTail_left (key : Key) (s : State) :
    DecryptLeft key s (s.buf.len / 4) (decryptTail (decryptStart key s)) := by
  have hstart : InPass key s (stepCount s.buf.len + 1) s.buf.len s.buf.len (decryptStart key s) := .start rfl rfl rfl
  unfold decryptTail
  rw [hstart.len, show Config.group = 4 from rfl]
  split
  · have hbase : s.buf.len - s.buf.len % 4 = 4 * (s.buf.len / 4) := by omega
    rw [show stepCount s.buf.len = s.buf.len / 4 + 1 by unfold stepCount; omega] at hstart
    refine ⟨Nat.le_refl _, hbase, ?_⟩
    rw [hbase]
    refine InPass.backward (c := s.buf.len % 4) ?_ (by omega) _ (List.reverse_perm _)
      fun t _ => lane_of_trailing key s.buf.len t
    rwa [Nat.div_add_mod]
  · have hlen : s.buf.len = 4 * (s.buf.len / 4) := by omega
    refine ⟨Nat.le_refl _, hlen, ?_⟩
    rwa [← hlen, show s.buf.len / 4 = stepCount s.buf.len by unfold stepCount; omega]

/-- Where DPASS ends: back at the first step, with every word masked. -/
theorem decryptPass_spec (key : Key) (s : State) :
    InPass key s 1 0 s.buf.len (decryptPass key s) ∧ (decryptPass key s).cipher.ci = 0 := by
  have hleft : DecryptLeft key s 0 (decryptPass key s) := by
    rw [decryptPass_eq]
    refine whileUpTo_countdown (P := DecryptLeft key s) ?_ ?_ (decryptTail_left key s) (Nat.div_le_self _ _)
    · exact fun k t h => ⟨decide_eq_true h.round.1, h.round.2⟩
    · exact fun t h => decide_eq_false (Nat.not_lt_of_le (Nat.le_of_eq h.ci))
  exact ⟨hleft.pass, hleft.ci⟩

/-! A list of keys (R209, R210, R212). -/

theorem listMask_nil (len : Nat) : listMask [] len = fun _ => 0 := rfl

theorem listMask_concat (ks : List Key) (k : Key) (len : Nat) :
    listMask (ks ++ [k]) len = fun i => listMask ks len i ^^^ passMask k len i :=
  funext fun _ => List.foldl_append

/-- XOR is commutative, so the order of the keys does not count (R212 b). -/
theorem listMask_perm {ks ks' : List Key} (h : ks.Perm ks') (len : Nat) : listMask ks len = listMask ks' len :=
  funext fun i => h.foldl_eq' (fun k _ k' _ m => by
    rw [BitVec.xor_assoc, BitVec.xor_comm (passMask k len i), ← BitVec.xor_assoc]) 0

/-- Rounds that each XOR in the mask of their key XOR in the mask of the list. -/
theorem foldl_xored {round : State → Nat → State} (honly : ∀ s k, CipherOnly s (round s k))
    (hround : ∀ s k, Xored (onRange 0 s.buf.len (passMask (memRead s.port.keys k) s.buf.len)) s.buf (round s k).buf)
    (ks : List Nat) (s : State) : CipherOnly s (ks.foldl round s) ∧
      Xored (onRange 0 s.buf.len (listMask (ks.map (memRead s.port.keys)) s.buf.len)) s.buf (ks.foldl round s).buf := by
  induction ks using List.reverseRecOn with
  | nil =>
    rw [List.map_nil, listMask_nil, onRange_zero]
    exact ⟨.refl s, xored_zero _⟩
  | append_singleton ks k ih =>
    obtain ⟨hkept, hxored⟩ := ih
    have hlast := hround (ks.foldl round s) k
    rw [hkept.port, hkept.2.1] at hlast
    rw [List.foldl_append, List.map_append, List.map_singleton, listMask_concat]
    refine ⟨hkept.trans (honly _ k), ?_⟩
    have hall := hxored.trans hlast
    rwa [onRange_xor] at hall

theorem encryptKey_xored (s : State) (k : Nat) :
    Xored (onRange 0 s.buf.len (passMask (memRead s.port.keys k) s.buf.len)) s.buf (encryptKey s k).buf :=
  (encryptPass_spec (memRead s.port.keys k) (selectKey k s)).1.words

theorem decryptKey_xored (s : State) (k : Nat) :
    Xored (onRange 0 s.buf.len (passMask (memRead s.port.keys k) s.buf.len)) s.buf (decryptKey s k).buf :=
  (decryptPass_spec (memRead s.port.keys k) (selectKey k s)).1.words

/-- Every word has taken the masks of the keys applied (R212 b). -/
def MaskedByKeys (s t : State) : Prop :=
  Xored (onRange 0 s.buf.len (listMask (usedKeys s) s.buf.len)) s.buf t.buf

theorem bypassed_or_engaged (p : HostPort) :
    (p.keysNull = true ∨ p.nKeys = 0) ∨ (p.keysNull = false ∧ 0 < p.nKeys) := by
  cases p.keysNull with
  | true => exact .inl (.inl rfl)
  | false => exact (Nat.eq_zero_or_pos p.nKeys).imp .inr fun h => ⟨rfl, h⟩

theorem maskedByKeys_of_bypass {s : State} (h : s.port.keysNull = true ∨ s.port.nKeys = 0) : MaskedByKeys s s := by
  rw [MaskedByKeys, usedKeys_of_bypass h, listMask_nil, onRange_zero]
  exact xored_zero _

theorem encryptAll_masked (s : State) : MaskedByKeys s (encryptAll s) := by
  obtain h | h := bypassed_or_engaged s.port
  · rw [encryptAll_of_bypass h]
    exact maskedByKeys_of_bypass h
  · rw [encryptAll_of_engaged h, MaskedByKeys, usedKeys_of_engaged h]
    exact (foldl_xored (fun s k => (encryptKey_only s k).1) encryptKey_xored _ s).2

theorem decryptAll_masked (s : State) : MaskedByKeys s (decryptAll s) := by
  obtain h | h := bypassed_or_engaged s.port
  · rw [decryptAll_of_bypass h]
    exact maskedByKeys_of_bypass h
  · rw [decryptAll_of_engaged h, MaskedByKeys, usedKeys_of_engaged h, keyList, memUnits,
      ← listMask_perm ((List.reverse_perm _).map _)]
    exact (foldl_xored (fun s k => (decryptKey_only s k).1) decryptKey_xored _ s).2

/-! The bypass (R216). -/

theorem compressText_cipher_of_bypass {s : State} (h : s.port.keysNull = true ∨ s.port.nKeys = 0) :
    (compressText s).cipher = s.cipher := by
  obtain ⟨-, e⟩ | ⟨-, -, e⟩ | ⟨-, -, e⟩ := compressText_cases s
  · rw [e]; rfl
  · rw [e]; rfl
  · have hsame := encodeText_same (commandStart s)
    rw [e, encryptIfEngaged_eq, encryptAll_of_bypass (by rwa [hsame.port])]
    exact hsame.cipher

theorem decompressText_cipher_of_bypass {s : State} (h : s.port.keysNull = true ∨ s.port.nKeys = 0) :
    (decompressText s).cipher = s.cipher := by
  obtain ⟨-, e⟩ | ⟨-, -, e⟩ | ⟨-, -, e⟩ := decompressText_cases s
  · rw [e]; rfl
  · rw [e]; rfl
  · rw [e, decryptIfEngaged_eq, decryptAll_of_bypass (s := copyIn (commandStart s)) h]
    exact (decodeStream_same _).cipher

/-! The obligations. -/

/-- Settles O41: the words that the parts of a pass take are adjacent, and the lane each takes is its mask. -/
theorem passesXorTheirMask : Obligations.PassesXorTheirMask := by
  rintro k s i (rfl | rfl)
  · exact ⟨_, rfl, (encryptPass_spec k s).1.words.closedForm (encryptPass_only k s).1⟩
  · exact ⟨_, rfl, (decryptPass_spec k s).1.words.closedForm (decryptPass_only k s).1⟩

/-- Settles O45: both XOR the masks of the same keys into every word. -/
theorem decryptUndoesEncrypt : Obligations.DecryptUndoesEncrypt := by
  intro s
  have henc := (encryptAll_only s).1
  have hback := decryptAll_masked (encryptAll s)
  have hkeys : usedKeys (encryptAll s) = usedKeys s := by rw [usedKeys, keyList, henc.port]; rfl
  rw [MaskedByKeys, hkeys, henc.2.1] at hback
  exact ⟨encryptAll s, decryptAll (encryptAll s), rfl, rfl, henc.2.1, (decryptAll_only _).1.2.1.trans henc.2.1,
    (encryptAll_masked s).twice hback⟩

/-- Settles O40, by the XOR of a lane under the offset. -/
theorem xwXorsOneWord : Obligations.XwXorsOneWord := by
  intro i l s
  have hword := memRead_xorWord_same i l s.buf
  refine ⟨{ s with buf := xorWord i l s.buf }, { s with buf := xorWord i l (xorWord i l s.buf) }, rfl, rfl, hword,
    fun j => memRead_xorWord_ne l s.buf, fun hrange => ?_, ?_, rfl, memRead_xorWord_twice i l s.buf⟩
  · exact hword ▸ xorLane_wireRange l hrange
  · exact hword ▸ xorLane_bit15 _ l

/-- Settles O42, by where the two passes end. -/
theorem passesLeaveTheirAccumulator : Obligations.PassesLeaveTheirAccumulator := by
  intro k s
  obtain ⟨henc, hencCi⟩ := encryptPass_spec k s
  obtain ⟨hdec, hdecCi⟩ := decryptPass_spec k s
  refine ⟨encryptPass k s, decryptPass k s, rfl, rfl, henc.inc, hdec.inc, ?_, ?_, hencCi, hdecCi,
    (encryptPass_only k s).2.2, (decryptPass_only k s).2.2⟩
  · rw [henc.z, henc.inc]
    rfl
  · rw [hdec.z, hdec.inc, BitVec.one_mul]

/-- Settles O43, by the masks of the keys applied. -/
theorem encryptAndDecryptXorAllMasks : Obligations.EncryptAndDecryptXorAllMasks := by
  rintro s i (rfl | rfl)
  · exact ⟨_, rfl, (encryptAll_masked s).closedForm (encryptAll_only s).1⟩
  · exact ⟨_, rfl, (decryptAll_masked s).closedForm (decryptAll_only s).1⟩

/-- Settles O46: the masks of permuted keys are the same. -/
theorem keyOrderDoesNotMatter : Obligations.KeyOrderDoesNotMatter := by
  intro s s' hbuf hkeys
  have h' := encryptAll_masked s'
  rw [MaskedByKeys, hbuf, listMask_perm hkeys] at h'
  exact ⟨encryptAll s, encryptAll s', rfl, rfl, fun j => (h' j).trans (encryptAll_masked s j).symm⟩

/-- Settles O51: the encoder, the decoder and the copies write no cipher register, and no pass is run. -/
theorem bypassWritesNoCipherRegister : Obligations.BypassWritesNoCipherRegister := by
  refine fun s h => ⟨?_, ?_⟩
  · rintro i t (rfl | rfl) ht
    · cases ht; exact compressText_cipher_of_bypass h
    · cases ht; exact decompressText_cipher_of_bypass h
  · rintro i (rfl | rfl)
    · exact congrArg Host.Outcome.next (encryptAll_of_bypass h)
    · exact congrArg Host.Outcome.next (decryptAll_of_bypass h)

/-- Settles O38, by the value of the increment. -/
theorem keystreamRegisters : Obligations.KeystreamRegisters := fun key _ =>
  ⟨⟨increment key, increment_toNat key, increment_odd key, rfl⟩, rfl, rfl, rfl⟩

/-- Settles O39, by the value of a lane. -/
theorem mixAndLanes : Obligations.MixAndLanes := fun r _ =>
  ⟨rfl, fun j => ⟨laneOf r j, laneOf_toNat r j, rfl⟩⟩

end Sys2Proof.Machine
end

section
/-! Proofs about the host commands (R230 to R236): the branches of COMPRESS and DECOMPRESS as the operations they
run, the wire range and the length of a compressed text, and the round trip through the host. -/

namespace Sys2Proof.Machine

/-! The branches of both commands (R231, R232, R234, R235). -/

/-- BUF and the cipher as COMPRESS leaves them for the copy-out (R231). -/
def compressed (s : State) : State := encryptAll (encodeText (commandStart s))

/-- BUF and the cipher as DECOMPRESS has them before DECODE (R232). -/
def decrypted (s : State) : State := decryptAll (copyIn (commandStart s))

section Branches

variable {s : State} (hnull : s.port.inNull = false)

theorem compressText_of_absent (h : s.port.inNull = true) : compressText s = absentResult (commandStart s) := by
  rw [compressText_eq, if_pos h]

theorem decompressText_of_absent (h : s.port.inNull = true) :
    decompressText s = absentResult (commandStart s) := by
  rw [decompressText_eq, if_pos h]

include hnull

theorem compressText_of_empty (h : s.port.inLen = 0) : compressText s = endCommand (commandStart s) := by
  rw [compressText_eq, if_neg (ne_true_of_eq_false hnull), if_pos h]

theorem decompressText_of_empty (h : s.port.inLen = 0) : decompressText s = endCommand (commandStart s) := by
  rw [decompressText_eq, if_neg (ne_true_of_eq_false hnull), if_pos h]

theorem compressText_of_text (h : 1 ≤ s.port.inLen) : compressText s = endCommand (copyOut (compressed s)) := by
  rw [compressText_eq, if_neg (ne_true_of_eq_false hnull), if_neg (Nat.ne_of_gt h), encryptIfEngaged_eq]
  rfl

theorem decompressText_of_text (h : 1 ≤ s.port.inLen) : decompressText s = decodeStream (decrypted s) := by
  rw [decompressText_eq, if_neg (ne_true_of_eq_false hnull), if_neg (Nat.ne_of_gt h), decryptIfEngaged_eq]
  rfl

end Branches

theorem compressText_phase (s : State) : (compressText s).phase = .idle := by
  obtain ⟨-, e⟩ | ⟨-, -, e⟩ | ⟨-, -, e⟩ := compressText_cases s <;> rw [e] <;> rfl

/-- An operation that does nothing where the cipher is bypassed may be left out there (R216, R233). -/
theorem runOps_ifEngaged {i : Instr} {p : HostPort} {s t : State} (hrun : exec i s = .next t)
    (hbypass : p.keysNull = true ∨ p.nKeys = 0 → t = s) :
    runOps (if p.keysNull = false ∧ 0 < p.nKeys then [i] else []) s = .next t := by
  obtain h | h := bypassed_or_engaged p
  · rw [if_neg fun he => cipherEngaged_of_bypass h ((cipherEngaged_iff p).2 he), hbypass h]
    rfl
  · rw [if_pos h, runOps_cons hrun]
    rfl

/-! The compressed text (R100, R212, R231). -/

theorem compressed_port (s : State) : (compressed s).port = s.port :=
  (encryptAll_only _).1.port.trans (encodeText_same (commandStart s)).port

theorem compressed_out (s : State) : (compressed s).out = (commandStart s).out :=
  (encryptAll_only _).1.out.trans (encodeText_same (commandStart s)).out

/-- The cipher keeps the length (R212). -/
theorem compressed_len (s : State) : (compressed s).buf.len = (encodeText (commandStart s)).buf.len :=
  (encryptAll_only _).1.2.1

/-- EFIN ends with FLUSH, which always sends a word (R133, R155). -/
theorem encodeText_len_pos (s : State) : 1 ≤ (encodeText s).buf.len := by
  rw [encodeText_eq, encoderFinish, flushWord_buf, appendBuf_len]
  exact Nat.le_add_left 1 _

/-- XW keeps the wire range (R205), so a mask on all of BUF does. -/
theorem Xored.wireRange {m : Nat → Payload} {s t : State} (h : Xored m s.buf t.buf)
    (hlen : t.buf.len = s.buf.len) (hrange : ∀ w ∈ bufWords s, WireRange w) :
    ∀ w ∈ bufWords t, WireRange w := by
  intro w hw
  obtain ⟨j, hj, rfl⟩ := List.mem_map.1 hw
  rw [h j]
  exact xorLane_wireRange _ (hrange _ (List.mem_map_of_mem (hlen ▸ hj)))

theorem compressed_wireRange {s : State} (h : 1 ≤ s.port.inLen) : ∀ w ∈ bufWords (compressed s), WireRange w := by
  obtain ⟨t, -, ht, hrange, -⟩ := decodeUndoesEncode (commandStart s) h rfl
  cases ht
  exact (encryptAll_masked _).wireRange (compressed_len s) hrange

/-- The host reads OUT where OUT_NULL = 0 (R36). -/
theorem output_of_present {s : State} (h : s.out.null = false) : output s = some (outUnits s) :=
  if_neg (ne_true_of_eq_false h)

theorem compressText_null {s : State} (hnull : s.port.inNull = false) : (compressText s).out.null = false := by
  obtain ⟨habsent, -⟩ | ⟨-, -, e⟩ | ⟨-, hlen, -⟩ := compressText_cases s
  · exact absurd habsent (ne_true_of_eq_false hnull)
  · rw [e]
    rfl
  · rw [compressText_of_text hnull hlen, endCommand_out, copyOut_out, compressed_out]
    rfl

theorem outUnits_compressText {s : State} (hnull : s.port.inNull = false) (hlen : 1 ≤ s.port.inLen) :
    outUnits (compressText s) = bufWords (compressed s) := by
  rw [compressText_of_text hnull hlen]
  exact outUnits_copyOut (compressed s)

/-- The length is the one ENCODE gives, and ENCODE reads no key (R236 c). -/
theorem compressText_len_agree {s s' : State} (hnull : s'.port.inNull = s.port.inNull)
    (hin : inUnits s' = inUnits s) : (compressText s').out.len = (compressText s).out.len := by
  rw [compressText_eq, compressText_eq, hnull, (memUnits_eq_iff.1 hin).1]
  split_ifs
  · rfl
  · rfl
  · have henc := encodeText_agree (s := commandStart s) (s' := commandStart s') hin
      (commandStart_words_agree s s')
    rw [encryptIfEngaged_eq, encryptIfEngaged_eq]
    exact (compressed_len s').trans (henc.words.len.trans (compressed_len s).symm)

/-! The host's inputs (R33, R35, R281). -/

/-- The host has loaded a text that is present, and this key list. -/
structure HostLoaded (text : List Sym) (keys : Option (List Key)) (s : State) : Prop where
  present : s.port.inNull = false
  input : inUnits s = text
  keysNull : s.port.keysNull = keys.isNone
  keys : ∀ ks, keys = some ks → keyList s = ks

theorem HostLoaded.inLen {text : List Sym} {keys : Option (List Key)} {s : State} (h : HostLoaded text keys s) :
    s.port.inLen = text.length := by
  rw [← h.input, inUnits, memUnits_length]

theorem HostLoaded.keysAgree {text text' : List Sym} {keys : Option (List Key)} {s s' : State}
    (h : HostLoaded text keys s) (h' : HostLoaded text' keys s') : KeysAgree s s' where
  keysNull := h'.keysNull.trans h.keysNull.symm
  keys hpresent := by
    cases keys with
    | none => exact absurd (h.keysNull.symm.trans hpresent) nofun
    | some ks => exact (h'.keys ks rfl).trans (h.keys ks rfl).symm

/-- The host's move on an idle block is possible, and the next step runs the command on what it loaded (R32, R281). -/
theorem hostStart_runs (text : List Sym) (keys : Option (List Key)) (op : BitVec 1) {s : State}
    (hidle : s.phase = .idle) (hcmd : s.port.cmd = none) :
    ∃ a t, hostStart (some text) keys op s = some a ∧ step a = exec (decodeCmd op) t ∧
      HostLoaded text keys t ∧ t.port.cmd = none := by
  refine ⟨_, takeCmd _, if_pos ⟨hidle, hcmd⟩, step_of_idle hidle, ?_, rfl⟩
  cases keys with
  | none => exact ⟨rfl, memUnits_memWriteFrom _ text, rfl, nofun⟩
  | some ks =>
    refine ⟨rfl, memUnits_memWriteFrom _ text, rfl, ?_⟩
    rintro _ ⟨⟩
    exact memUnits_memWriteFrom _ ks

/-! The round trip (R236). -/

/-- DECRYPT after ENCRYPT gives the words of BUF back (R200). -/
theorem decryptAll_encryptAll_words (s : State) : WordsAgree s.buf (decryptAll (encryptAll s)).buf := by
  obtain ⟨t, u, ht, hu, -, hlen, hread⟩ := decryptUndoesEncrypt s
  cases ht
  cases hu
  exact wordsAgree_iff.2 ⟨hlen, fun j _ => hread j⟩

/-- Under the same keys DECRYPT gives DECODE the words that ENCODE made. -/
theorem decrypted_words {text : List Sym} {keys : Option (List Key)} {s c : State} (hs : HostLoaded text keys s)
    (hc : HostLoaded (bufWords (compressed s)) keys c) :
    WordsAgree (encodeText (commandStart s)).buf (decrypted c).buf := by
  have hcopied : WordsAgree (compressed s).buf (copyIn (commandStart c)).buf :=
    (bufWords_copyIn (commandStart c)).trans hc.input
  have hkeys : KeysAgree (compressed s) (copyIn (commandStart c)) :=
    (hs.keysAgree hc).of_port (compressed_port s) rfl
  exact (decryptAll_agree hcopied hkeys).trans (decryptAll_encryptAll_words _)

/-- An output that is present before DECODE is present after it: a raise leaves the empty text (R256). -/
theorem decodeStream_null {s : State} (h : s.out.null = false) : (decodeStream s).out.null = false := by
  obtain ⟨hnull, -⟩ | hraised := decodeStream_sameDiagnosisOrRaised s
  · exact hnull.trans h
  · exact hraised.null

theorem decodeStream_encodeText {s : State} (hlen : 1 ≤ s.port.inLen) :
    output (decodeStream (encodeText (commandStart s))) = some (inUnits s) ∧
      (decodeStream (encodeText (commandStart s))).out.dcause = 0 := by
  obtain ⟨t, u, ht, -, hu, hunits, -, hcause, -⟩ := decodeUndoesEncode (commandStart s) hlen rfl
  cases ht
  cases hu
  have hnull : (encodeText (commandStart s)).out.null = false := by rw [(encodeText_same _).out]; rfl
  exact ⟨(output_of_present (decodeStream_null hnull)).trans (congrArg some hunits), hcause⟩

theorem decompressText_compressText {text : List Sym} {keys : Option (List Key)} {s c : State}
    (hs : HostLoaded text keys s) (hc : HostLoaded (outUnits (compressText s)) keys c) :
    output (decompressText c) = some text ∧ (decompressText c).out.dcause = 0 := by
  obtain hempty | hlen := Nat.eq_zero_or_pos s.port.inLen
  · obtain rfl : text = [] := List.length_eq_zero_iff.1 (hs.inLen.symm.trans hempty)
    have hc0 : c.port.inLen = 0 := by rw [hc.inLen, compressText_of_empty hs.present hempty]; rfl
    rw [decompressText_of_empty hc.present hc0]
    exact ⟨rfl, rfl⟩
  · rw [outUnits_compressText hs.present hlen] at hc
    have hclen : 1 ≤ c.port.inLen := by
      rw [hc.inLen, bufWords, memUnits_length, compressed_len]
      exact encodeText_len_pos _
    have hout : OutAgree (encodeText (commandStart s)).out (decrypted c).out := by
      rw [(encodeText_same _).out, decrypted, (decryptAll_only _).1.out]
      exact commandStart_out_agree s c
    have hagree := (decodeStream_agree (decrypted_words hs hc) hout).out
    obtain ⟨htext, hcause⟩ := decodeStream_encodeText hlen
    rw [decompressText_of_text hc.present hclen]
    exact ⟨hagree.output.trans (htext.trans (congrArg some hs.input)), hagree.dcause.trans hcause⟩

/-! The obligations. -/

/-- Settles O52: DECRYPT gives DECODE the words that ENCODE made, and DECODE of these gives the text back. -/
theorem decompressUndoesCompress : Obligations.DecompressUndoesCompress := by
  intro text keys s hidle hcmd
  obtain ⟨a, s1, ha, hrun, hload, hnone⟩ := hostStart_runs text keys 0 hidle hcmd
  obtain ⟨c, s2, hc, hrun', hload', -⟩ := hostStart_runs (outUnits (compressText s1)) keys 1
    (compressText_phase s1) ((congrArg HostPort.cmd (compressText_port s1)).trans hnone)
  refine ⟨a, compressText s1, c, decompressText s2, ha, hrun, ?_, hrun', decompressText_compressText hload hload'⟩
  rw [output_of_present (compressText_null hload.present)]
  exact hc

/-- Settles O49: the branch of a text is the sequence of operations, and the cipher keeps the wire range and the
length of what ENCODE sends. -/
theorem compressEncodesAndEncrypts : Obligations.CompressEncodesAndEncrypts := by
  intro s hnull hlen
  have hkeys : s.port.keysNull = true ∨ s.port.nKeys = 0 → compressed s = encodeText (commandStart s) := fun h =>
    encryptAll_of_bypass (by rwa [(encodeText_same (commandStart s)).port])
  have hunits := outUnits_compressText hnull hlen
  refine ⟨compressed s, compressText s, ?_, rfl, ?_, ?_, ?_, (compressText_cause s).1, (compressText_cause s).2, ?_⟩
  · exact (runOps_append rfl _).trans (runOps_ifEngaged rfl hkeys)
  · rw [output_of_present (compressText_null hnull), hunits]
  · rw [compressText_of_text hnull hlen, endCommand_out, copyOut_out, compressed_len]
    exact encodeText_len_pos _
  · rw [hunits]
    exact compressed_wireRange hlen
  · rw [compressText_of_text hnull hlen]
    rfl

/-- Settles O50: the branch of a text is the sequence of operations, and DECODE ends idle. -/
theorem decompressDecryptsAndDecodes : Obligations.DecompressDecryptsAndDecodes := by
  intro s hnull hlen
  have hkeys : s.port.keysNull = true ∨ s.port.nKeys = 0 → decrypted s = copyIn (commandStart s) := fun h =>
    decryptAll_of_bypass h
  refine ⟨commandStart s, memCopy s.port.inLen s.port.inp s.buf.mem, decodeStream (decrypted s), rfl,
    memUnits_memCopy .., ?_, ?_, decodeStream_phase _⟩
  · exact runOps_append (runOps_ifEngaged rfl hkeys) [.decode]
  · exact congrArg Host.Outcome.next (decompressText_of_text hnull hlen)

/-- Settles O53: ENCODE reads no key, and the cipher keeps the length. -/
theorem keysDoNotChangeTheLength : Obligations.KeysDoNotChangeTheLength := fun s s' hnull hin =>
  ⟨compressText s, compressText s', rfl, rfl, compressText_len_agree hnull hin⟩

/-- Settles O47, by the first branch of both commands. -/
theorem absentInputGivesAbsentOutput : Obligations.AbsentInputGivesAbsentOutput := by
  rintro s i (rfl | rfl) h
  · exact congrArg Host.Outcome.next (compressText_of_absent h)
  · exact congrArg Host.Outcome.next (decompressText_of_absent h)

/-- Settles O48, by the second branch of both commands. -/
theorem emptyInputGivesEmptyOutput : Obligations.EmptyInputGivesEmptyOutput := by
  rintro s i (rfl | rfl) hnull h
  · exact congrArg Host.Outcome.next (compressText_of_empty hnull h)
  · exact congrArg Host.Outcome.next (decompressText_of_empty hnull h)

end Sys2Proof.Machine
end
